-- ==== Sys2Proof/Word.lean ====
section
/-! DEFINITION. The word types of the LCC cipher core (00_scope.md R14, R16; 20_memory.md R80). -/

namespace Sys2Proof

/-- A byte, 0 to 255 (R14). -/
abbrev Byte := BitVec 8

/-- A host address: the bus carries 12 address bits (R80). -/
abbrev Addr := BitVec 12

/-- A 16-bit register: MSGLEN, OUTLEN and the block counters (10_state.md R37, R38, R59). -/
abbrev Half := BitVec 16

/-- An AES key-schedule word: four bytes (41_aes.md R216). -/
abbrev Word4 := Vector Byte 4

/-- An AES state or round-key matrix, `s[r][c]` with row r and column c (00_scope.md R16). -/
abbrev Matrix := Vector (Vector Byte 4) 4

end Sys2Proof
end

