-- ==== Sys2Proof/Config.lean ====
section
/-! DEFINITION. The parameters of the core (00_scope.md R12) and the values its spec leaves open. -/

namespace Sys2Proof

/-- The three cipher engines (10_state.md R30). -/
inductive EngineId where
  | aes
  | des
  | present
deriving DecidableEq, Repr

namespace Config

/-- `MSG_BUF_BYTES` (R12, decided 256 by D16; log 14). -/
def msgBufBytes : Nat := 256

/-- `KEY_BYTES(E)` (R12). -/
abbrev keyBytes : EngineId → Nat
  | .aes => 16
  | .des => 8
  | .present => 10

/-- `BLK_BYTES(E)`, written B(E) (R12, 40_common.md R163). -/
abbrev blkBytes : EngineId → Nat
  | .aes => 16
  | .des => 8
  | .present => 8

/-- `base(E)`: the register window of engine E (10_state.md R44). -/
def base : EngineId → Nat
  | .aes => 0x100
  | .des => 0x200
  | .present => 0x300

/-- `mbase(E)`: the message buffer window of engine E (10_state.md R42). -/
def mbase : EngineId → Nat
  | .aes => 0x400
  | .des => 0x500
  | .present => 0x600

/-- `NKS(E)`: the number of key-schedule steps of engine E (10_state.md R60, 40_common.md R170). -/
def nks : EngineId → Nat
  | .aes => 10
  | .des => 16
  | .present => 32

/-- The FREE VALUE of a MSGBUF byte that nothing has written since a reset (10_state.md R42,
93_implementation_defined.md U6): a draw per byte, indexed by how many resets came before (`epoch`) and by
the byte's host address. Nothing constrains it. DEDUCED (log 5): it is one value until the byte is written,
because reads are idempotent (20_memory.md R90). -/
opaque msgbufDraw : Nat → Nat → Byte

/-- The FREE VALUES of host reads of MSGBUF during a message op on its engine (70_reset_and_hazards.md R452,
93_implementation_defined.md U7): a fresh draw for each such read, indexed by a counter in State (log 6). -/
opaque busyDraw : Nat → Byte

/-- The FREE VALUES of the hidden registers outside a command (10_state.md R61, 93_implementation_defined.md U9):
"unspecified and unobservable". Element `i` of register number `r` of engine `e` after its `n`-th completion is
`hiddenDraw e n r i`, cut to the register's width (log 7). -/
opaque hiddenDraw : EngineId → Nat → Nat → Nat → Nat

/-- The FREE VALUE of a name that a host program uses before any read has bound it (30_encoding.md R129 gives it none), by
name (log 20). -/
opaque unboundName : Nat → Byte

/-- `CORE_BASE` (20_memory.md R81, U16): left to the platform; no rule reads it, and nothing here does. -/
opaque coreBase : Nat

/-- `CYCLES_PER_STEP - 1` (70_reset_and_hazards.md R460, U14): open; no rule reads it, and nothing here does. -/
opaque extraCyclesPerStep : Nat

/-- `CYCLES_PER_STEP`, at least 1 (R460). -/
def cyclesPerStep : Nat := extraCyclesPerStep + 1

end Config

end Sys2Proof
end

