-- ==== Sys2Proof/Machine/Bus.lean ====
section
/-! DEFINITION. The host side of the bus: bus steps (30_encoding.md R129, 20_memory.md R83) and the agents whose
turns interleave (10_state.md R30). -/

namespace Sys2Proof.Machine

/-- A byte in a host program: written out, or the name of a byte read before, as the `c[0]` to `c[15]` of program P2
(95_test_vectors.md). A name is a number here (log 2). -/
inductive HostVal where
  | byte (v : Byte)
  | name (n : Nat)
deriving DecidableEq, Repr

/-- One line of a host program (R129). `poll a mask value` repeats its read until `t & mask = value`, one host step
per read. -/
inductive HostOp where
  | wr8 (a : Addr) (v : HostVal)
  | rd8 (a : Addr) (name : Nat)
  | poll (a : Addr) (mask value : HostVal)
deriving DecidableEq, Repr

/-- Whose step comes next: the host's, an engine's (R30), or the reset input's (70_reset_and_hazards.md R442). -/
inductive Agent where
  | host
  | engine (e : EngineId)
  | reset
deriving DecidableEq, Repr

/-- The registers of an engine's window, by offset (10_state.md R35 to R41). -/
inductive EngReg where
  | status
  | keylen
  | msglenHi
  | msglenLo
  | outlenHi
  | outlenLo
  | key (i : Nat)
  | din (i : Nat)
  | dout (i : Nat)
deriving DecidableEq, Repr

/-- What stands at a host address (10_state.md R44, 20_memory.md R81). -/
inductive Loc where
  | cmd
  | gstat
  | reg (e : EngineId) (r : EngReg)
  | msgbuf (e : EngineId) (off : Nat)
  | ua
  | ub
  | ur
  | reserved
deriving DecidableEq, Repr

/-- The register at an offset of engine E's window (R35 to R41); every other offset is reserved (R49). -/
def locateReg (e : EngineId) (off : Nat) : Loc :=
  if off = 0x00 then .reg e .status
  else if off = 0x01 then .reg e .keylen
  else if off = 0x02 then .reg e .msglenHi
  else if off = 0x03 then .reg e .msglenLo
  else if off = 0x04 then .reg e .outlenHi
  else if off = 0x05 then .reg e .outlenLo
  else if 0x10 ≤ off ∧ off < 0x10 + Config.keyBytes e then .reg e (.key (off - 0x10))
  else if 0x20 ≤ off ∧ off < 0x20 + Config.blkBytes e then .reg e (.din (off - 0x20))
  else if 0x30 ≤ off ∧ off < 0x30 + Config.blkBytes e then .reg e (.dout (off - 0x30))
  else .reserved

/-- A byte of engine E's buffer window: its first `MSG_BUF_BYTES` bytes, the rest reserved (R81). -/
def locateBuf (e : EngineId) (off : Nat) : Loc :=
  if off < Config.msgBufBytes then .msgbuf e off else .reserved

/-- The global registers (R33, R34). -/
def locateGlobal (off : Nat) : Loc :=
  if off = 0x00 then .cmd else if off = 0x01 then .gstat else .reserved

/-- The UTIL unit's registers (R43). -/
def locateUtil (off : Nat) : Loc :=
  if off = 0x00 then .ua else if off = 0x01 then .ub else if off = 0x02 then .ur else .reserved

/-- The address map (R44, R81): bits 11:8 select the window, bits 7:0 the offset in it. -/
def locate (a : Addr) : Loc :=
  let off := a.toNat % 256
  match a.toNat / 256 with
  | 0 => locateGlobal off
  | 1 => locateReg .aes off
  | 2 => locateReg .des off
  | 3 => locateReg .present off
  | 4 => locateBuf .aes off
  | 5 => locateBuf .des off
  | 6 => locateBuf .present off
  | 8 => locateUtil off
  | _ => .reserved

end Sys2Proof.Machine
end

