-- ==== Sys2Proof/Machine/State.lean ====
section
/-! DEFINITION. The state of the core: everything spec/10_state.md gives it, the host's side of the bus, and the
model's own scheduling data. INVENTORY.md's '## State' lists each field with its rule and reset value. -/

namespace Sys2Proof.Machine

/-- ERRCODE (60_exceptions.md R402). Codes 3 to 15 are "never written", so no state holds one (log 12). -/
inductive ErrCode where
  | none
  | invalidKeyLength
  | badMsgLength
deriving DecidableEq, Repr

/-- `E.STATUS` by its fields (R35). Reserved bit 3 is no field: it reads 0. -/
structure Status where
  busy : Bool
  done : Bool
  err : Bool
  errcode : ErrCode
deriving DecidableEq, Repr

/-- `E.fsm` (R60). -/
inductive Fsm where
  | idle
  | ks (i : Nat)
  | msginit
  | load
  | rnd (i : Nat)
  | store
deriving DecidableEq, Repr

/-- `E.L`, the inputs latched at accept (R55): a key of type `κ`, a block of `n` bytes. -/
structure Latch (κ : Type) (n : Nat) where
  op : Byte
  key : κ
  din : Vector Byte n
  mlen : Half
deriving DecidableEq, Repr

/-- The AES working state (R56). -/
structure AesWork where
  st : Matrix
  rk : Vector Matrix 11
  w : Vector Word4 44
deriving DecidableEq, Repr

/-- The DES working state (R57). Bit sequences are bit vectors whose most significant bit is element 0 (log 16).
`k` holds K[1..16], K[i] at index i-1. -/
structure DesWork where
  c : BitVec 28
  d : BitVec 28
  k : Vector (BitVec 48) 16
  l : BitVec 32
  r : BitVec 32
deriving DecidableEq, Repr

/-- The PRESENT working state (R58). `k` holds K[1..32], K[i] at index i-1. -/
structure PresentWork where
  kr : BitVec 80
  k : Vector (BitVec 64) 32
  s : BitVec 64
deriving DecidableEq, Repr

/-- One engine: its register window (R35 to R41), its message buffer (R42) and its hidden state (R55 to R60), for a
normalised key of type `κ`, a working state `ω`, `kb` key bytes and `bb` block bytes. The buffer lists the bytes
written since reset, each at its host address, addresses strictly rising. `runs` is the model's own (log 7): how many
commands have completed, the index of the free values that stand in the hidden registers until the next command. -/
structure Engine (κ ω : Type) (kb bb : Nat) where
  status : Status
  keylen : Byte
  msglen : Half
  outlen : Half
  key : Vector Byte kb
  din : Vector Byte bb
  dout : Vector Byte bb
  msgbuf : List Host.Cell
  fsm : Fsm
  lat : Latch κ bb
  work : ω
  j : Half
  nblk : Half
  runs : Nat
deriving DecidableEq, Repr

/-- The normalised key of engine E (R55): AES 16 bytes, DES a 64-bit sequence, PRESENT an 80-bit integer. -/
abbrev KeyT : EngineId → Type
  | .aes => Vector Byte 16
  | .des => BitVec 64
  | .present => BitVec 80

/-- The working state of engine E (R56 to R58). -/
abbrev Work : EngineId → Type
  | .aes => AesWork
  | .des => DesWork
  | .present => PresentWork

/-- Engine E, with its own widths (00_scope.md R11, R12). -/
abbrev EngineOf (e : EngineId) : Type := Engine (KeyT e) (Work e) (Config.keyBytes e) (Config.blkBytes e)

/-- Why the model's machine stops. The hardware has no fault (60_exceptions.md R437): each reason names a state that no
run reaches, and the invariant of Safety.lean rules it out. -/
inductive Fault where
  /-- An engine's FSM index is one for which R170 gives no transition (KS(i) outside 1 to NKS, RND(i) outside
  `rnd_E(dir)`). Raised by the engine step only. Safe: the model stops where the spec gives no step (log 8). -/
  | corruptFsm (e : EngineId)
  /-- An engine step of a message op would reach beyond `MSG_BUF_BYTES`, which R85 says never happens. Raised by the
  engine steps MSGINIT, LOAD and STORE only. Safe, as above (log 8). -/
  | bufferRange (e : EngineId)
deriving DecidableEq, Repr

/-- What the model gives no meaning to. -/
inductive Refusal where
  /-- A command that has no meaning yet. Raised by exec's arms only; no arm raises it now. Safe. -/
  | notModelled (mnemonic : String)
  /-- `StringToBits` or `StringToBytes` of a text with an ordinal above 255 (93_implementation_defined.md U1). Raised by
  those two functions only, never by a step. Safe. -/
  | ordinalAbove255
  /-- `RotateLeft` by a negative amount (U2). Raised by that function only, never by a step. Safe. -/
  | negativeRotation
  /-- The source's AES call with a key text that is not 16 characters long (60_exceptions.md R401; U5). Raised by the
  functions of SourceInterface.lean only, never by a step: a command reports code 1 instead (R165). Safe. -/
  | invalidKeyLength
  /-- The source's decrypt call on a ciphertext that is no whole number of blocks, for which it gives no result
  (91_not_in_source.md N20). Raised by the functions of SourceInterface.lean only, never by a step: a command reports code 2
  instead (R168). Safe. -/
  | partialBlock
  /-- `IntegerToBits` of a value that does not fit (U3). Raised by that function only, never by a step. Safe. -/
  | integerTooWide
deriving DecidableEq, Repr

/-- The machine. `illegal` and `busyrej` are GSTAT bits 0 and 1; GSTAT's busy bits are read from the engines (R34).
`rdata`, `vars`, `host` are the host's side of the bus (20_memory.md R82, 30_encoding.md R129; logs 2, 3, 10); `sched`,
`epoch`, `draws` are the model's own (logs 1, 5, 6, 11). -/
structure State where
  illegal : Bool
  busyrej : Bool
  ua : Byte
  ub : Byte
  ur : Byte
  aes : Engine (Vector Byte 16) AesWork 16 16
  des : Engine (BitVec 64) DesWork 8 8
  present : Engine (BitVec 80) PresentWork 10 8
  epoch : Nat
  draws : Nat
  rdata : Byte
  vars : List Host.Cell
  host : List HostOp
  sched : List Agent
deriving DecidableEq, Repr

/-- Engine E of a state. -/
def State.engine (s : State) : (e : EngineId) → EngineOf e
  | .aes => s.aes
  | .des => s.des
  | .present => s.present

/-- The state with engine E replaced. -/
def State.setEngine (s : State) : (e : EngineId) → EngineOf e → State
  | .aes, x => { s with aes := x }
  | .des, x => { s with des := x }
  | .present, x => { s with present := x }

/-- The hidden key register at reset. DESIGN CHOICE (log 7), unsafe: R61 says "no value". -/
def KeyT.reset : (e : EngineId) → KeyT e
  | .aes => Vector.replicate 16 0
  | .des => 0
  | .present => 0

/-- The hidden working registers at reset. DESIGN CHOICE (log 7), unsafe: R61 says "no value". -/
def Work.reset : (e : EngineId) → Work e
  | .aes =>
    { st := Vector.replicate 4 (Vector.replicate 4 0),
      rk := Vector.replicate 11 (Vector.replicate 4 (Vector.replicate 4 0)),
      w := Vector.replicate 44 (Vector.replicate 4 0) }
  | .des => { c := 0, d := 0, k := Vector.replicate 16 0, l := 0, r := 0 }
  | .present => { kr := 0, k := Vector.replicate 32 0, s := 0 }

/-- The latch at reset. DESIGN CHOICE (log 7), unsafe: R61 says "no value". -/
def Latch.reset (e : EngineId) : Latch (KeyT e) (Config.blkBytes e) :=
  { op := 0, key := KeyT.reset e, din := Vector.replicate _ 0, mlen := 0 }

/-- STATUS = 0x00 (R440). -/
def Status.reset : Status := { busy := false, done := false, err := false, errcode := .none }

/-- Engine E after reset (70_reset_and_hazards.md R440). -/
def Engine.reset (e : EngineId) : EngineOf e :=
  { status := Status.reset, keylen := 0, msglen := 0, outlen := 0,
    key := Vector.replicate _ 0, din := Vector.replicate _ 0, dout := Vector.replicate _ 0,
    msgbuf := [], fsm := .idle, lat := Latch.reset e, work := Work.reset e, j := 0, nblk := 0, runs := 0 }

/-- The machine right after reset (R440, T-X-1 of 95_test_vectors.md), with an idle host. -/
def State.reset : State :=
  { illegal := false, busyrej := false, ua := 0, ub := 0, ur := 0,
    aes := Engine.reset .aes, des := Engine.reset .des, present := Engine.reset .present,
    epoch := 0, draws := 0, rdata := 0, vars := [], host := [], sched := [] }

end Sys2Proof.Machine
end

