-- ==== Sys2Proof/Machine/Flags.lean ====
section
/-! DEFINITION. The status flags: how they read, and the four events that write them (spec/10_state.md R34, R35, R45 to
R47; spec/60_exceptions.md R402, R410). The core has no arithmetic condition code (R48). -/

namespace Sys2Proof.Machine

/-- A flag as one bit. -/
def flagBit (b : Bool) : BitVec 1 := BitVec.ofBool b

/-- The code of an error (R402). -/
def errCodeBits : ErrCode → BitVec 4
  | .none => 0#4
  | .invalidKeyLength => 1#4
  | .badMsgLength => 2#4

/-- STATUS as the host reads it (R35): ERRCODE in 7:4, bit 3 zero, ERR 2, DONE 1, BUSY 0. -/
def statusByte (st : Status) : Byte :=
  errCodeBits st.errcode ++ (0#1 ++ (flagBit st.err ++ (flagBit st.done ++ flagBit st.busy)))

/-- GSTAT as the host reads it (R34): bit 7 zero, the three busy mirrors, bits 3:2 zero, BUSYREJ, ILLEGAL. -/
def gstatByte (s : State) : Byte :=
  0#1 ++ (flagBit s.present.status.busy ++ (flagBit s.des.status.busy ++ (flagBit s.aes.status.busy ++
    (0#2 ++ (flagBit s.busyrej ++ flagBit s.illegal)))))

/-- A host write of `v` to GSTAT clears the bits written as 1 (R34). -/
def gstatWrite (v : Byte) (s : State) : State :=
  { s with illegal := s.illegal && !v.getLsbD 0, busyrej := s.busyrej && !v.getLsbD 1 }

/-- An illegal command byte (30_encoding.md R127). -/
def setIllegal (s : State) : State := { s with illegal := true }

/-- A cipher command for a busy engine (40_common.md R161). -/
def setBusyrej (s : State) : State := { s with busyrej := true }

/-- STATUS after an accept without error (R45, 40_common.md R164). -/
def statusAccepted : Status := { busy := true, done := false, err := false, errcode := .none }

/-- STATUS after a completion (R45, 40_common.md R176): BUSY cleared and DONE set, the rest as it was. -/
def statusCompleted (st : Status) : Status := { st with busy := false, done := true }

/-- STATUS after a refusal with error `c` (R46, R410): ERR, ERRCODE and DONE written, BUSY as it was. -/
def statusRefused (c : ErrCode) (st : Status) : Status := { st with done := false, err := true, errcode := c }

end Sys2Proof.Machine
end

