-- ==== Sys2Proof/Syntax.lean ====
section
/-! DEFINITION. The commands of the core: one constructor per row of spec/opcode_table.json (30_encoding.md R126). -/

namespace Sys2Proof

/-- The 18 legal commands (R126). No command has an immediate or a register field (R125), so no constructor has
an argument. -/
inductive Instr where
  | aesEncBlk
  | aesDecBlk
  | aesEncMsg
  | aesDecMsg
  | desEncBlk
  | desDecBlk
  | desEncMsg
  | desDecMsg
  | presentEncBlk
  | presentDecBlk
  | presentEncMsg
  | presentDecMsg
  | gfMul
  | aesSbox
  | aesInvSbox
  | presentSbox
  | presentInvSbox
  | desSbox
deriving DecidableEq, Repr

end Sys2Proof
end

