-- ==== Sys2Proof/Decode.lean ====
section
/-! DEFINITION. Decoding a command byte and encoding a command (30_encoding.md R120 to R128).

The first function is R128 itself, with a name for each reason a byte is illegal (R127); the second names the
table row that a legal byte stands for (R126). The encoder builds the byte from its fields (R121, R123, R124). -/

namespace Sys2Proof

/-- MODE of a cipher command (R121): 0 = block op, 1 = message op. -/
inductive Mode where
  | blk
  | msg
deriving DecidableEq, Repr

/-- DIR of a cipher command (R121): 0 = encrypt, 1 = decrypt. -/
inductive Dir where
  | enc
  | dec
deriving DecidableEq, Repr

/-- FUNC of a UTIL command (R124). -/
inductive UtilFn where
  | gfMul
  | aesSbox
  | aesInvSbox
  | presentSbox
  | presentInvSbox
  | desSbox
deriving DecidableEq, Repr

/-- A legal byte's meaning, as R128 gives it. -/
inductive Verdict where
  | cipher (e : EngineId) (mode : Mode) (dir : Dir)
  | util (f : UtilFn)
deriving DecidableEq, Repr

/-- Why a byte is illegal (R127): its UNIT selects nothing, a cipher UNIT has Z ≠ 00, or UTIL has FUNC > 5. -/
inductive Illegal where
  | unknownUnit
  | zNotZero
  | unknownFunc
deriving DecidableEq, Repr

/-- The UNIT field of a command byte, bits 7:4 (R121). -/
def unitField (v : Byte) : BitVec 4 := v.extractLsb' 4 4

/-- The FUNC field of a UTIL byte, bits 3:0 (R121). -/
def funcField (v : Byte) : BitVec 4 := v.extractLsb' 0 4

/-- The Z field of a cipher byte, bits 3:2 (R121). -/
def zField (v : Byte) : BitVec 2 := v.extractLsb' 2 2

/-- MODE is bit 1 of a cipher byte (R121). -/
def modeField (v : Byte) : Mode := if v.getLsbD 1 then .msg else .blk

/-- DIR is bit 0 of a cipher byte (R121). -/
def dirField (v : Byte) : Dir := if v.getLsbD 0 then .dec else .enc

/-- The engine a UNIT value selects, if it selects one (R122). -/
def engineOfUnit (u : BitVec 4) : Option EngineId :=
  if u = 1#4 then some .aes
  else if u = 2#4 then some .des
  else if u = 3#4 then some .present
  else none

/-- The UTIL function a FUNC value selects, if it selects one (R124). -/
def utilOfFunc (f : BitVec 4) : Option UtilFn :=
  if f = 0#4 then some .gfMul
  else if f = 1#4 then some .aesSbox
  else if f = 2#4 then some .aesInvSbox
  else if f = 3#4 then some .presentSbox
  else if f = 4#4 then some .presentInvSbox
  else if f = 5#4 then some .desSbox
  else none

/-- The decode function of R128, total on every byte. -/
def decodeFields (v : Byte) : Except Illegal Verdict :=
  match engineOfUnit (unitField v) with
  | some e =>
    if zField v = 0#2 then .ok (.cipher e (modeField v) (dirField v)) else .error .zNotZero
  | none =>
    if unitField v = 4#4 then
      match utilOfFunc (funcField v) with
      | some f => .ok (.util f)
      | none => .error .unknownFunc
    else .error .unknownUnit

/-- The row of the opcode map a verdict stands for (R126). -/
def instrOf : Verdict → Instr
  | .cipher .aes .blk .enc => .aesEncBlk
  | .cipher .aes .blk .dec => .aesDecBlk
  | .cipher .aes .msg .enc => .aesEncMsg
  | .cipher .aes .msg .dec => .aesDecMsg
  | .cipher .des .blk .enc => .desEncBlk
  | .cipher .des .blk .dec => .desDecBlk
  | .cipher .des .msg .enc => .desEncMsg
  | .cipher .des .msg .dec => .desDecMsg
  | .cipher .present .blk .enc => .presentEncBlk
  | .cipher .present .blk .dec => .presentDecBlk
  | .cipher .present .msg .enc => .presentEncMsg
  | .cipher .present .msg .dec => .presentDecMsg
  | .util .gfMul => .gfMul
  | .util .aesSbox => .aesSbox
  | .util .aesInvSbox => .aesInvSbox
  | .util .presentSbox => .presentSbox
  | .util .presentInvSbox => .presentInvSbox
  | .util .desSbox => .desSbox

/-- What a command's fields are (R126). -/
def verdictOf : Instr → Verdict
  | .aesEncBlk => .cipher .aes .blk .enc
  | .aesDecBlk => .cipher .aes .blk .dec
  | .aesEncMsg => .cipher .aes .msg .enc
  | .aesDecMsg => .cipher .aes .msg .dec
  | .desEncBlk => .cipher .des .blk .enc
  | .desDecBlk => .cipher .des .blk .dec
  | .desEncMsg => .cipher .des .msg .enc
  | .desDecMsg => .cipher .des .msg .dec
  | .presentEncBlk => .cipher .present .blk .enc
  | .presentDecBlk => .cipher .present .blk .dec
  | .presentEncMsg => .cipher .present .msg .enc
  | .presentDecMsg => .cipher .present .msg .dec
  | .gfMul => .util .gfMul
  | .aesSbox => .util .aesSbox
  | .aesInvSbox => .util .aesInvSbox
  | .presentSbox => .util .presentSbox
  | .presentInvSbox => .util .presentInvSbox
  | .desSbox => .util .desSbox

/-- Decoding a command byte: the command, or the reason the byte is illegal (R127, R128). -/
def decode (v : Byte) : Except Illegal Instr := (decodeFields v).map instrOf

/-- A decoder always consumes one byte (R120): on a byte sequence, the first command and the rest. -/
def decodeStream : List Byte → Option (Except Illegal Instr × List Byte)
  | [] => none
  | v :: rest => some (decode v, rest)

/-- UNIT values (R122). -/
def unitCode : EngineId → BitVec 4
  | .aes => 1#4
  | .des => 2#4
  | .present => 3#4

/-- FUNC values (R124). -/
def funcCode : UtilFn → BitVec 4
  | .gfMul => 0#4
  | .aesSbox => 1#4
  | .aesInvSbox => 2#4
  | .presentSbox => 3#4
  | .presentInvSbox => 4#4
  | .desSbox => 5#4

/-- The MODE bit (R121). -/
def modeBit : Mode → BitVec 1
  | .blk => 0#1
  | .msg => 1#1

/-- The DIR bit (R121). -/
def dirBit : Dir → BitVec 1
  | .enc => 0#1
  | .dec => 1#1

/-- The byte with given fields: `UNIT ++ Z ++ MODE ++ DIR` with Z = 00 for a cipher UNIT (R123), `UNIT ++ FUNC`
with UNIT = 4 for UTIL (R122, R124). -/
def encodeFields : Verdict → Byte
  | .cipher e mode dir => unitCode e ++ (0#2 ++ (modeBit mode ++ dirBit dir))
  | .util f => 4#4 ++ funcCode f

/-- The command byte of a command (R126). -/
def encode (i : Instr) : Byte := encodeFields (verdictOf i)

/-- The host's question: the command read from a word numbered as spec/opcode_table.json numbers it. Every
command is one byte (R120), so it is the byte in bits 7:0; bits at or above `nbits` are 0. -/
def decodeTableWord (nbits w : Nat) : Option Instr :=
  match decode (BitVec.ofNat 8 (w % 2 ^ nbits)) with
  | .ok i => some i
  | .error _ => none

end Sys2Proof
end

