-- ==== Sys2Proof/Machine/Bits.lean ====
section
/-! DEFINITION. Bit sequences and byte sequences of fixed width on the data path (00_scope.md R15, R16;
20_memory.md R86, R87; 40_common.md R158).

A bit sequence of n bits is a `BitVec n` whose MOST significant bit is element 0 (DEDUCED, log 16), so `++`
concatenates, `^^^` is XorBits, `rotateLeft` is RotateLeft and `getMsbD` is the element. -/

namespace Sys2Proof.Machine

/-- `Perm(b, T)` (R15, 42_des.md R260): element k of the result is `b[T[k]-1]`; `m` is the length of T. -/
def perm {n : Nat} (m : Nat) (b : BitVec n) (t : List Nat) : BitVec m :=
  (BitVec.ofBoolListBE (t.map fun p => b.getMsbD (p - 1))).setWidth m

/-- `b[i..i+len)` of a bit sequence (R15). -/
def slice {n : Nat} (b : BitVec n) (i len : Nat) : BitVec len := b.extractLsb' (n - i - len) len

/-- `BytesToBits(b)` of n bytes as a bit sequence (R86, R150): byte 0 gives the most significant bits. -/
def bytesToBits {n : Nat} (b : Vector Byte n) : BitVec (8 * n) :=
  b.toList.foldl (fun acc x => (acc <<< 8) ||| x.setWidth (8 * n)) 0

/-- `BitsToBytes(b)` (R158): byte k is elements 8k to 8k+7. -/
def bitsToBytes (n : Nat) (b : BitVec (8 * n)) : Vector Byte n :=
  Vector.ofFn fun k : Fin n => slice b (8 * k) 8

/-- A byte of a list, 0x00 past its end. -/
def byteAt (l : List Byte) (i : Nat) : Byte := l.getD i 0

/-- `b[i..i+n)` of a byte sequence, as n bytes. -/
def bytesAt (n : Nat) (l : List Byte) (i : Nat) : Vector Byte n := Vector.ofFn fun k : Fin n => byteAt l (i + k)

end Sys2Proof.Machine
end

