-- ==== Sys2Proof/Machine/AesCipher.lean ====
section
/-! DEFINITION. The AES-128 engine's functions (spec/41_aes.md): tables, GF(2^8), round functions, key schedule, the
FSM's actions on the working state, and the pure block functions. -/

namespace Sys2Proof.Machine

/-! ### Tables -/

/-- The S-box, row x[7:4], column x[3:0] (R200). -/
def aesSboxRows : List (List Byte) :=
  [[0x63, 0x7c, 0x77, 0x7b, 0xf2, 0x6b, 0x6f, 0xc5, 0x30, 0x01, 0x67, 0x2b, 0xfe, 0xd7, 0xab, 0x76],
   [0xca, 0x82, 0xc9, 0x7d, 0xfa, 0x59, 0x47, 0xf0, 0xad, 0xd4, 0xa2, 0xaf, 0x9c, 0xa4, 0x72, 0xc0],
   [0xb7, 0xfd, 0x93, 0x26, 0x36, 0x3f, 0xf7, 0xcc, 0x34, 0xa5, 0xe5, 0xf1, 0x71, 0xd8, 0x31, 0x15],
   [0x04, 0xc7, 0x23, 0xc3, 0x18, 0x96, 0x05, 0x9a, 0x07, 0x12, 0x80, 0xe2, 0xeb, 0x27, 0xb2, 0x75],
   [0x09, 0x83, 0x2c, 0x1a, 0x1b, 0x6e, 0x5a, 0xa0, 0x52, 0x3b, 0xd6, 0xb3, 0x29, 0xe3, 0x2f, 0x84],
   [0x53, 0xd1, 0x00, 0xed, 0x20, 0xfc, 0xb1, 0x5b, 0x6a, 0xcb, 0xbe, 0x39, 0x4a, 0x4c, 0x58, 0xcf],
   [0xd0, 0xef, 0xaa, 0xfb, 0x43, 0x4d, 0x33, 0x85, 0x45, 0xf9, 0x02, 0x7f, 0x50, 0x3c, 0x9f, 0xa8],
   [0x51, 0xa3, 0x40, 0x8f, 0x92, 0x9d, 0x38, 0xf5, 0xbc, 0xb6, 0xda, 0x21, 0x10, 0xff, 0xf3, 0xd2],
   [0xcd, 0x0c, 0x13, 0xec, 0x5f, 0x97, 0x44, 0x17, 0xc4, 0xa7, 0x7e, 0x3d, 0x64, 0x5d, 0x19, 0x73],
   [0x60, 0x81, 0x4f, 0xdc, 0x22, 0x2a, 0x90, 0x88, 0x46, 0xee, 0xb8, 0x14, 0xde, 0x5e, 0x0b, 0xdb],
   [0xe0, 0x32, 0x3a, 0x0a, 0x49, 0x06, 0x24, 0x5c, 0xc2, 0xd3, 0xac, 0x62, 0x91, 0x95, 0xe4, 0x79],
   [0xe7, 0xc8, 0x37, 0x6d, 0x8d, 0xd5, 0x4e, 0xa9, 0x6c, 0x56, 0xf4, 0xea, 0x65, 0x7a, 0xae, 0x08],
   [0xba, 0x78, 0x25, 0x2e, 0x1c, 0xa6, 0xb4, 0xc6, 0xe8, 0xdd, 0x74, 0x1f, 0x4b, 0xbd, 0x8b, 0x8a],
   [0x70, 0x3e, 0xb5, 0x66, 0x48, 0x03, 0xf6, 0x0e, 0x61, 0x35, 0x57, 0xb9, 0x86, 0xc1, 0x1d, 0x9e],
   [0xe1, 0xf8, 0x98, 0x11, 0x69, 0xd9, 0x8e, 0x94, 0x9b, 0x1e, 0x87, 0xe9, 0xce, 0x55, 0x28, 0xdf],
   [0x8c, 0xa1, 0x89, 0x0d, 0xbf, 0xe6, 0x42, 0x68, 0x41, 0x99, 0x2d, 0x0f, 0xb0, 0x54, 0xbb, 0x16]]

/-- The inverse S-box (R201), laid out as the S-box. -/
def aesInvSboxRows : List (List Byte) :=
  [[0x52, 0x09, 0x6a, 0xd5, 0x30, 0x36, 0xa5, 0x38, 0xbf, 0x40, 0xa3, 0x9e, 0x81, 0xf3, 0xd7, 0xfb],
   [0x7c, 0xe3, 0x39, 0x82, 0x9b, 0x2f, 0xff, 0x87, 0x34, 0x8e, 0x43, 0x44, 0xc4, 0xde, 0xe9, 0xcb],
   [0x54, 0x7b, 0x94, 0x32, 0xa6, 0xc2, 0x23, 0x3d, 0xee, 0x4c, 0x95, 0x0b, 0x42, 0xfa, 0xc3, 0x4e],
   [0x08, 0x2e, 0xa1, 0x66, 0x28, 0xd9, 0x24, 0xb2, 0x76, 0x5b, 0xa2, 0x49, 0x6d, 0x8b, 0xd1, 0x25],
   [0x72, 0xf8, 0xf6, 0x64, 0x86, 0x68, 0x98, 0x16, 0xd4, 0xa4, 0x5c, 0xcc, 0x5d, 0x65, 0xb6, 0x92],
   [0x6c, 0x70, 0x48, 0x50, 0xfd, 0xed, 0xb9, 0xda, 0x5e, 0x15, 0x46, 0x57, 0xa7, 0x8d, 0x9d, 0x84],
   [0x90, 0xd8, 0xab, 0x00, 0x8c, 0xbc, 0xd3, 0x0a, 0xf7, 0xe4, 0x58, 0x05, 0xb8, 0xb3, 0x45, 0x06],
   [0xd0, 0x2c, 0x1e, 0x8f, 0xca, 0x3f, 0x0f, 0x02, 0xc1, 0xaf, 0xbd, 0x03, 0x01, 0x13, 0x8a, 0x6b],
   [0x3a, 0x91, 0x11, 0x41, 0x4f, 0x67, 0xdc, 0xea, 0x97, 0xf2, 0xcf, 0xce, 0xf0, 0xb4, 0xe6, 0x73],
   [0x96, 0xac, 0x74, 0x22, 0xe7, 0xad, 0x35, 0x85, 0xe2, 0xf9, 0x37, 0xe8, 0x1c, 0x75, 0xdf, 0x6e],
   [0x47, 0xf1, 0x1a, 0x71, 0x1d, 0x29, 0xc5, 0x89, 0x6f, 0xb7, 0x62, 0x0e, 0xaa, 0x18, 0xbe, 0x1b],
   [0xfc, 0x56, 0x3e, 0x4b, 0xc6, 0xd2, 0x79, 0x20, 0x9a, 0xdb, 0xc0, 0xfe, 0x78, 0xcd, 0x5a, 0xf4],
   [0x1f, 0xdd, 0xa8, 0x33, 0x88, 0x07, 0xc7, 0x31, 0xb1, 0x12, 0x10, 0x59, 0x27, 0x80, 0xec, 0x5f],
   [0x60, 0x51, 0x7f, 0xa9, 0x19, 0xb5, 0x4a, 0x0d, 0x2d, 0xe5, 0x7a, 0x9f, 0x93, 0xc9, 0x9c, 0xef],
   [0xa0, 0xe0, 0x3b, 0x4d, 0xae, 0x2a, 0xf5, 0xb0, 0xc8, 0xeb, 0xbb, 0x3c, 0x83, 0x53, 0x99, 0x61],
   [0x17, 0x2b, 0x04, 0x7e, 0xba, 0x77, 0xd6, 0x26, 0xe1, 0x69, 0x14, 0x63, 0x55, 0x21, 0x0c, 0x7d]]

/-- A 16 by 16 table at row x[7:4], column x[3:0] (R200). -/
def lookup16 (rows : List (List Byte)) (x : Byte) : Byte :=
  (rows.getD (x.toNat / 16) []).getD (x.toNat % 16) 0

/-- `SBOX[x]` (R200). -/
def sbox (x : Byte) : Byte := lookup16 aesSboxRows x

/-- `INV_SBOX[y]` (R201). -/
def invSbox (y : Byte) : Byte := lookup16 aesInvSboxRows y

/-- `RCON[i]` for i = 1 to 10 (R203). -/
def rcon (i : Nat) : Byte :=
  ([0x01, 0x02, 0x04, 0x08, 0x10, 0x20, 0x40, 0x80, 0x1B, 0x36] : List Byte).getD (i - 1) 0

/-! ### GF(2^8) (R204) -/

/-- `(a << 1) mod 2^8`, reduced by XOR with 0x1B when a bit left (R204). -/
def xtime (a : Byte) : Byte := if a.getLsbD 7 then (a <<< 1) ^^^ 0x1B else a <<< 1

/-- `k` iterations of R204's loop from product `p` and operands `a`, `b`. -/
def gfmulLoop : Nat → Byte → Byte → Byte → Byte
  | 0, p, _, _ => p
  | k + 1, p, a, b => gfmulLoop k (if b.getLsbD 0 then p ^^^ a else p) (xtime a) (b >>> 1)

/-- `gfmul(a, b)` (R204): eight iterations from product 0. -/
def gfmul (a b : Byte) : Byte := gfmulLoop 8 0 a b

/-! ### State layout and round functions (R206 to R214) -/

/-- The matrix with given entries. -/
def Matrix.ofFn (f : Fin 4 → Fin 4 → Byte) : Matrix := Vector.ofFn fun r => Vector.ofFn fun c => f r c

/-- Entry `m[r][c]` (00_scope.md R16). -/
def Matrix.get (m : Matrix) (r c : Fin 4) : Byte := m[r][c]

/-- `toState(blk)` (R206): `s[r][c] = blk[r + 4c]`. -/
def toState (blk : Vector Byte 16) : Matrix := Matrix.ofFn fun r c => blk[r.val + 4 * c.val]

/-- `fromState(s)` (R207): `blk[r + 4c] = s[r][c]`. -/
def fromState (s : Matrix) : Vector Byte 16 :=
  Vector.ofFn fun n : Fin 16 => Matrix.get s ⟨n.val % 4, by omega⟩ ⟨n.val / 4, by omega⟩

/-- R208. -/
def subBytes (s : Matrix) : Matrix := Matrix.ofFn fun r c => sbox (Matrix.get s r c)

/-- R209. -/
def invSubBytes (s : Matrix) : Matrix := Matrix.ofFn fun r c => invSbox (Matrix.get s r c)

/-- R210: `s[r][(c + r) mod 4]`. -/
def shiftRows (s : Matrix) : Matrix := Matrix.ofFn fun r c => Matrix.get s r (c + r)

/-- R211: `s[r][(c - r) mod 4]`. -/
def invShiftRows (s : Matrix) : Matrix := Matrix.ofFn fun r c => Matrix.get s r (c - r)

/-- The matrix whose row r is a given first row moved right by r places, round the end: the shape of R212's M and R213's IM. -/
def circulant (first : Fin 4 → Byte) : Matrix := Matrix.ofFn fun r c => first (c - r)

/-- The coefficients M of R212: first row 2, 3, 1, 1. -/
def mixCoeff : Matrix :=
  circulant fun
    | 0 => 0x02
    | 1 => 0x03
    | _ => 0x01

/-- The coefficients IM of R213: first row 0E, 0B, 0D, 09. -/
def invMixCoeff : Matrix :=
  circulant fun
    | 0 => 0x0E
    | 1 => 0x0B
    | 2 => 0x0D
    | 3 => 0x09

/-- The matrix product over GF(2^8) that R212 and R213 write out. -/
def mixWith (m s : Matrix) : Matrix :=
  Matrix.ofFn fun r c =>
    gfmul (Matrix.get m r 0) (Matrix.get s 0 c) ^^^ gfmul (Matrix.get m r 1) (Matrix.get s 1 c) ^^^
      gfmul (Matrix.get m r 2) (Matrix.get s 2 c) ^^^ gfmul (Matrix.get m r 3) (Matrix.get s 3 c)

/-- R212. -/
def mixColumns (s : Matrix) : Matrix := mixWith mixCoeff s

/-- R213. -/
def invMixColumns (s : Matrix) : Matrix := mixWith invMixCoeff s

/-- R214. -/
def addRoundKey (s k : Matrix) : Matrix := Matrix.ofFn fun r c => Matrix.get s r c ^^^ Matrix.get k r c

/-! ### Key schedule (R216 to R219) -/

/-- The zero word, read where no word stands. -/
def zeroWord : Word4 := Vector.replicate 4 0

/-- The zero matrix, read where no round key stands. -/
def zeroMatrix : Matrix := Vector.replicate 4 zeroWord

/-- `W[i]`. -/
def wordAt (w : Vector Word4 44) (i : Nat) : Word4 := w.getD i zeroWord

/-- `RK[n]`. -/
def rkAt (rk : Vector Matrix 11) (n : Nat) : Matrix := rk.getD n zeroMatrix

/-- Word i of the key, i = 0 to 3 (R216). -/
def keyWord (k : Vector Byte 16) (i : Nat) : Word4 := Vector.ofFn fun n : Fin 4 => k.getD (4 * i + n) 0

/-- `W[0..3]` from the key (R216), into a word file. -/
def initWords (k : Vector Byte 16) (w : Vector Word4 44) : Vector Word4 44 :=
  (List.range 4).foldl (fun w i => w.setIfInBounds i (keyWord k i)) w

/-- The transform of every fourth word (R217): rotate left one byte, substitute, XOR the round constant into byte 0. -/
def keyCore (t : Word4) (rc : Byte) : Word4 := #v[sbox t[1] ^^^ rc, sbox t[2], sbox t[3], sbox t[0]]

/-- The transform of word i-1 (R217): `keyCore` when `i mod 4 = 0`, else the identity. -/
def keyTransform (i : Nat) (t : Word4) : Word4 := if i % 4 = 0 then keyCore t (rcon (i / 4)) else t

/-- XOR of two words. -/
def xorWord (a b : Word4) : Word4 := Vector.ofFn fun n : Fin 4 => a[n] ^^^ b[n]

/-- One step of the recurrence of R217, for i = 4 to 43. -/
def expandWord (w : Vector Word4 44) (i : Nat) : Vector Word4 44 :=
  w.setIfInBounds i (xorWord (wordAt w (i - 4)) (keyTransform i (wordAt w (i - 1))))

/-- Round key n from the words (R218): column c of RK[n] is `W[4n + c]`. -/
def roundKey (w : Vector Word4 44) (n : Nat) : Matrix := Matrix.ofFn fun r c => (wordAt w (4 * n + c.val))[r]

/-- All 44 words of a key (R216, R217). -/
def keyWords (k : Vector Byte 16) : Vector Word4 44 :=
  (List.range' 4 40).foldl expandWord (initWords k (Vector.replicate 44 zeroWord))

/-- `KeyExpand(k)` (R219). -/
def keyExpand (k : Vector Byte 16) : Vector Matrix 11 := Vector.ofFn fun n : Fin 11 => roundKey (keyWords k) n

/-! ### FSM actions (R220, R221, R231 to R234) -/

/-- `KSInit_AES` (R220). -/
def ksInitAes (k : Vector Byte 16) (x : AesWork) : AesWork :=
  { x with w := initWords k x.w, rk := x.rk.setIfInBounds 0 (toState k) }

/-- `KSStep_AES(i)` (R221). -/
def ksStepAes (i : Nat) (x : AesWork) : AesWork :=
  let w := (List.range' (4 * i) 4).foldl expandWord x.w
  { x with w := w, rk := x.rk.setIfInBounds i (roundKey w i) }

/-- `LoadAction_AES(dir, blk)` (R231). -/
def loadAes (dir : Dir) (blk : Vector Byte 16) (x : AesWork) : AesWork :=
  match dir with
  | .enc => { x with st := addRoundKey (toState blk) (rkAt x.rk 0) }
  | .dec => { x with st := addRoundKey (toState blk) (rkAt x.rk 10) }

/-- One encryption round on a state with round key `k` (R232): the last one, 10, has no column mixing. -/
def encRoundAes (i : Nat) (k s : Matrix) : Matrix :=
  if i = 10 then addRoundKey (shiftRows (subBytes s)) k
  else addRoundKey (mixColumns (shiftRows (subBytes s))) k

/-- One decryption round on a state with round key `k` (R233): the last one, 0, has no inverse column mixing. -/
def decRoundAes (i : Nat) (k s : Matrix) : Matrix :=
  if i = 0 then addRoundKey (invSubBytes (invShiftRows s)) k
  else invMixColumns (addRoundKey (invSubBytes (invShiftRows s)) k)

/-- `RoundAction_AES(dir, i)` (R232, R233). -/
def roundAes (dir : Dir) (i : Nat) (x : AesWork) : AesWork :=
  match dir with
  | .enc => { x with st := encRoundAes i (rkAt x.rk i) x.st }
  | .dec => { x with st := decRoundAes i (rkAt x.rk i) x.st }

/-- `StoreAction_AES(dir)` (R234). -/
def storeAes (x : AesWork) : Vector Byte 16 := fromState x.st

/-! ### Pure block functions (R236) -/

/-- `BlockEnc_AES(blk, k)` (R236). -/
def blockEncAes (blk k : Vector Byte 16) : Vector Byte 16 :=
  let rk := keyExpand k
  let s := addRoundKey (toState blk) (rkAt rk 0)
  let s := (List.range' 1 9).foldl
    (fun s r => addRoundKey (mixColumns (shiftRows (subBytes s))) (rkAt rk r)) s
  fromState (addRoundKey (shiftRows (subBytes s)) (rkAt rk 10))

/-- `BlockDec_AES(blk, k)` (R236). -/
def blockDecAes (blk k : Vector Byte 16) : Vector Byte 16 :=
  let rk := keyExpand k
  let s := addRoundKey (toState blk) (rkAt rk 10)
  let s := (List.range' 1 9).reverse.foldl
    (fun s r => invMixColumns (addRoundKey (invSubBytes (invShiftRows s)) (rkAt rk r))) s
  fromState (addRoundKey (invSubBytes (invShiftRows s)) (rkAt rk 0))

end Sys2Proof.Machine
end

