-- ==== Sys2Proof/Machine/DesCipher.lean ====
section
/-! DEFINITION. The DES engine's functions (spec/42_des.md): tables, key schedule, F, the FSM's actions on the working
state, and the pure block functions. Bit sequences have element 0 most significant (R260, log 16). -/

namespace Sys2Proof.Machine

/-! ### Tables, row by row; an entry n names element n-1 of the input (R260) -/

/-- PC1, 64 bits to 56 (R261). -/
def pc1Table : List Nat :=
  [57, 49, 41, 33, 25, 17, 9,
   1, 58, 50, 42, 34, 26, 18,
   10, 2, 59, 51, 43, 35, 27,
   19, 11, 3, 60, 52, 44, 36,
   63, 55, 47, 39, 31, 23, 15,
   7, 62, 54, 46, 38, 30, 22,
   14, 6, 61, 53, 45, 37, 29,
   21, 13, 5, 28, 20, 12, 4]

/-- PC2, 56 bits to 48 (R262). -/
def pc2Table : List Nat :=
  [14, 17, 11, 24, 1, 5,
   3, 28, 15, 6, 21, 10,
   23, 19, 12, 4, 26, 8,
   16, 7, 27, 20, 13, 2,
   41, 52, 31, 37, 47, 55,
   30, 40, 51, 45, 33, 48,
   44, 49, 39, 56, 34, 53,
   46, 42, 50, 36, 29, 32]

/-- `SHIFT[i]` for rounds 1 to 16 (R263). -/
def desShift (i : Nat) : Nat :=
  ([1, 1, 2, 2, 2, 2, 2, 2, 1, 2, 2, 2, 2, 2, 2, 1] : List Nat).getD (i - 1) 0

/-- IP (R264). -/
def ipTable : List Nat :=
  [58, 50, 42, 34, 26, 18, 10, 2,
   60, 52, 44, 36, 28, 20, 12, 4,
   62, 54, 46, 38, 30, 22, 14, 6,
   64, 56, 48, 40, 32, 24, 16, 8,
   57, 49, 41, 33, 25, 17, 9, 1,
   59, 51, 43, 35, 27, 19, 11, 3,
   61, 53, 45, 37, 29, 21, 13, 5,
   63, 55, 47, 39, 31, 23, 15, 7]

/-- IP⁻¹, called FP (R265). -/
def fpTable : List Nat :=
  [40, 8, 48, 16, 56, 24, 64, 32,
   39, 7, 47, 15, 55, 23, 63, 31,
   38, 6, 46, 14, 54, 22, 62, 30,
   37, 5, 45, 13, 53, 21, 61, 29,
   36, 4, 44, 12, 52, 20, 60, 28,
   35, 3, 43, 11, 51, 19, 59, 27,
   34, 2, 42, 10, 50, 18, 58, 26,
   33, 1, 41, 9, 49, 17, 57, 25]

/-- E, 32 bits to 48 (R266). -/
def eTable : List Nat :=
  [32, 1, 2, 3, 4, 5,
   4, 5, 6, 7, 8, 9,
   8, 9, 10, 11, 12, 13,
   12, 13, 14, 15, 16, 17,
   16, 17, 18, 19, 20, 21,
   20, 21, 22, 23, 24, 25,
   24, 25, 26, 27, 28, 29,
   28, 29, 30, 31, 32, 1]

/-- P (R267). -/
def pTable : List Nat :=
  [16, 7, 20, 21, 29, 12, 28, 17,
   1, 15, 23, 26, 5, 18, 31, 10,
   2, 8, 24, 14, 32, 27, 3, 9,
   19, 13, 30, 6, 22, 11, 4, 25]

/-- Box S1, four rows of sixteen (R268). -/
def desBox1 : List (List (BitVec 4)) :=
  [[14, 4, 13, 1, 2, 15, 11, 8, 3, 10, 6, 12, 5, 9, 0, 7],
   [0, 15, 7, 4, 14, 2, 13, 1, 10, 6, 12, 11, 9, 5, 3, 8],
   [4, 1, 14, 8, 13, 6, 2, 11, 15, 12, 9, 7, 3, 10, 5, 0],
   [15, 12, 8, 2, 4, 9, 1, 7, 5, 11, 3, 14, 10, 0, 6, 13]]

/-- Box S2, four rows of sixteen (R268). -/
def desBox2 : List (List (BitVec 4)) :=
  [[15, 1, 8, 14, 6, 11, 3, 4, 9, 7, 2, 13, 12, 0, 5, 10],
   [3, 13, 4, 7, 15, 2, 8, 14, 12, 0, 1, 10, 6, 9, 11, 5],
   [0, 14, 7, 11, 10, 4, 13, 1, 5, 8, 12, 6, 9, 3, 2, 15],
   [13, 8, 10, 1, 3, 15, 4, 2, 11, 6, 7, 12, 0, 5, 14, 9]]

/-- Box S3, four rows of sixteen (R268). -/
def desBox3 : List (List (BitVec 4)) :=
  [[10, 0, 9, 14, 6, 3, 15, 5, 1, 13, 12, 7, 11, 4, 2, 8],
   [13, 7, 0, 9, 3, 4, 6, 10, 2, 8, 5, 14, 12, 11, 15, 1],
   [13, 6, 4, 9, 8, 15, 3, 0, 11, 1, 2, 12, 5, 10, 14, 7],
   [1, 10, 13, 0, 6, 9, 8, 7, 4, 15, 14, 3, 11, 5, 2, 12]]

/-- Box S4, four rows of sixteen (R268). -/
def desBox4 : List (List (BitVec 4)) :=
  [[7, 13, 14, 3, 0, 6, 9, 10, 1, 2, 8, 5, 11, 12, 4, 15],
   [13, 8, 11, 5, 6, 15, 0, 3, 4, 7, 2, 12, 1, 10, 14, 9],
   [10, 6, 9, 0, 12, 11, 7, 13, 15, 1, 3, 14, 5, 2, 8, 4],
   [3, 15, 0, 6, 10, 1, 13, 8, 9, 4, 5, 11, 12, 7, 2, 14]]

/-- Box S5, four rows of sixteen (R268). -/
def desBox5 : List (List (BitVec 4)) :=
  [[2, 12, 4, 1, 7, 10, 11, 6, 8, 5, 3, 15, 13, 0, 14, 9],
   [14, 11, 2, 12, 4, 7, 13, 1, 5, 0, 15, 10, 3, 9, 8, 6],
   [4, 2, 1, 11, 10, 13, 7, 8, 15, 9, 12, 5, 6, 3, 0, 14],
   [11, 8, 12, 7, 1, 14, 2, 13, 6, 15, 0, 9, 10, 4, 5, 3]]

/-- Box S6, four rows of sixteen (R268). -/
def desBox6 : List (List (BitVec 4)) :=
  [[12, 1, 10, 15, 9, 2, 6, 8, 0, 13, 3, 4, 14, 7, 5, 11],
   [10, 15, 4, 2, 7, 12, 9, 5, 6, 1, 13, 14, 0, 11, 3, 8],
   [9, 14, 15, 5, 2, 8, 12, 3, 7, 0, 4, 10, 1, 13, 11, 6],
   [4, 3, 2, 12, 9, 5, 15, 10, 11, 14, 1, 7, 6, 0, 8, 13]]

/-- Box S7, four rows of sixteen (R268). -/
def desBox7 : List (List (BitVec 4)) :=
  [[4, 11, 2, 14, 15, 0, 8, 13, 3, 12, 9, 7, 5, 10, 6, 1],
   [13, 0, 11, 7, 4, 9, 1, 10, 14, 3, 5, 12, 2, 15, 8, 6],
   [1, 4, 11, 13, 12, 3, 7, 14, 10, 15, 6, 8, 0, 5, 9, 2],
   [6, 11, 13, 8, 1, 4, 10, 7, 9, 5, 0, 15, 14, 2, 3, 12]]

/-- Box S8, four rows of sixteen (R268). -/
def desBox8 : List (List (BitVec 4)) :=
  [[13, 2, 8, 4, 6, 15, 11, 1, 10, 9, 3, 14, 5, 0, 12, 7],
   [1, 15, 13, 8, 10, 3, 7, 4, 12, 5, 6, 11, 0, 14, 9, 2],
   [7, 11, 4, 1, 9, 12, 14, 2, 0, 6, 10, 13, 15, 3, 5, 8],
   [2, 1, 14, 7, 4, 10, 8, 13, 15, 12, 9, 0, 3, 5, 6, 11]]

/-- The box Sj, j = 1 to 8 (R268). -/
def desBox : Nat → List (List (BitVec 4))
  | 1 => desBox1
  | 2 => desBox2
  | 3 => desBox3
  | 4 => desBox4
  | 5 => desBox5
  | 6 => desBox6
  | 7 => desBox7
  | 8 => desBox8
  | _ => []

/-- `SBOX_DES(j, v)` (R286): `row = 2*v[5] + v[0]`, `col = v[4:1]`. -/
def sboxDes (j : Nat) (v : BitVec 6) : BitVec 4 :=
  let row := 2 * (v.getLsbD 5).toNat + (v.getLsbD 0).toNat
  let col := (v.extractLsb' 1 4).toNat
  ((desBox j).getD row []).getD col 0

/-! ### Key schedule (R270) -/

/-- `K[i]`, i = 1 to 16. -/
def desKeyAt (k : Vector (BitVec 48) 16) (i : Nat) : BitVec 48 := k.getD (i - 1) 0

/-- C after PC1: elements 0 to 27 (R261, R280). -/
def desC0 (key : BitVec 64) : BitVec 28 := slice (perm 56 key pc1Table) 0 28

/-- D after PC1: elements 28 to 55 (R261, R280). -/
def desD0 (key : BitVec 64) : BitVec 28 := slice (perm 56 key pc1Table) 28 28

/-- The subkey of halves C and D: `Perm(C ++ D, PC2)` (R262). -/
def desSubkey (c d : BitVec 28) : BitVec 48 := perm 48 (c ++ d) pc2Table

/-- The halves after the rotations of rounds 1 to i, and nothing else (R270). -/
def desHalves (key : BitVec 64) : Nat → BitVec 28 × BitVec 28
  | 0 => (desC0 key, desD0 key)
  | i + 1 =>
    let cd := desHalves key i
    (cd.1.rotateLeft (desShift (i + 1)), cd.2.rotateLeft (desShift (i + 1)))

/-- `KeySched_DES(k)` (R270): K[i] at index i-1. -/
def keySchedDes (key : BitVec 64) : Vector (BitVec 48) 16 :=
  Vector.ofFn fun n : Fin 16 => let cd := desHalves key (n.val + 1); desSubkey cd.1 cd.2

/-! ### The F-function (R285) -/

/-- The eight boxes on the eight 6-bit groups of a 48-bit sequence (R285). -/
def desBoxes (x : BitVec 48) : BitVec 32 :=
  sboxDes 1 (slice x 0 6) ++ (sboxDes 2 (slice x 6 6) ++ (sboxDes 3 (slice x 12 6) ++ (sboxDes 4 (slice x 18 6) ++
    (sboxDes 5 (slice x 24 6) ++ (sboxDes 6 (slice x 30 6) ++ (sboxDes 7 (slice x 36 6) ++ sboxDes 8 (slice x 42 6)))))))

/-- `F(R, Kr)` (R285). -/
def desF (r : BitVec 32) (kr : BitVec 48) : BitVec 32 := perm 32 (desBoxes (perm 48 r eTable ^^^ kr)) pTable

/-! ### FSM actions (R280, R281, R290 to R293) -/

/-- `KSInit_DES` (R280). -/
def ksInitDes (key : BitVec 64) (x : DesWork) : DesWork := { x with c := desC0 key, d := desD0 key }

/-- `KSStep_DES(i)` (R281). -/
def ksStepDes (i : Nat) (x : DesWork) : DesWork :=
  let c := x.c.rotateLeft (desShift i)
  let d := x.d.rotateLeft (desShift i)
  { x with c := c, d := d, k := x.k.setIfInBounds (i - 1) (desSubkey c d) }

/-- `σ(i)`: which subkey round i uses (R290). -/
def desSigma (dir : Dir) (i : Nat) : Nat :=
  match dir with
  | .enc => i
  | .dec => 17 - i

/-- `LoadAction_DES(dir, blk)` (R291), the same for both directions. -/
def loadDes (blk : Vector Byte 8) (x : DesWork) : DesWork :=
  let b := perm 64 (bytesToBits blk) ipTable
  { x with l := slice b 0 32, r := slice b 32 32 }

/-- One Feistel round on the halves (R292): `(L, R) <- (R, L xor F(R, K))`. -/
def desRound (kr : BitVec 48) (lr : BitVec 32 × BitVec 32) : BitVec 32 × BitVec 32 :=
  (lr.2, lr.1 ^^^ desF lr.2 kr)

/-- `RoundAction_DES(dir, i)` (R292). -/
def roundDes (dir : Dir) (i : Nat) (x : DesWork) : DesWork :=
  let lr := desRound (desKeyAt x.k (desSigma dir i)) (x.l, x.r)
  { x with l := lr.1, r := lr.2 }

/-- `StoreAction_DES(dir)` (R293): the halves swapped, then IP⁻¹. -/
def storeDes (x : DesWork) : Vector Byte 8 := bitsToBytes 8 (perm 64 (x.r ++ x.l) fpTable)

/-! ### Pure block functions (R296) -/

/-- `Transform_DES(b, K)` with the subkeys in use order (R296). -/
def transformDes (b : BitVec 64) (ks : List (BitVec 48)) : BitVec 64 :=
  let x := perm 64 b ipTable
  let lr := ks.foldl (fun lr kr => desRound kr lr) (slice x 0 32, slice x 32 32)
  perm 64 (lr.2 ++ lr.1) fpTable

/-- `BlockEnc_DES(blk, k)` (R296). -/
def blockEncDes (blk : Vector Byte 8) (key : BitVec 64) : Vector Byte 8 :=
  bitsToBytes 8 (transformDes (bytesToBits blk) (keySchedDes key).toList)

/-- `BlockDec_DES(blk, k)` (R296): the subkeys in reverse order. -/
def blockDecDes (blk : Vector Byte 8) (key : BitVec 64) : Vector Byte 8 :=
  bitsToBytes 8 (transformDes (bytesToBits blk) (keySchedDes key).toList.reverse)

end Sys2Proof.Machine
end

