-- ==== Sys2Proof/Machine/Operands.lean ====
section
/-! DEFINITION. The operands of a cipher command: key normalisation, the checks at accept, and the lengths of a message
op (spec/40_common.md R163, R165 to R168). No command has an operand field (30_encoding.md R125). -/

namespace Sys2Proof.Machine

/-- `KeyBits_DES(k)` of a byte sequence of any length (R166): the first 8 bytes, 0x00 past the end. -/
def keyBitsDes (k : List Byte) : BitVec 64 := bytesToBits (bytesAt 8 k 0)

/-- `KeyInt_PRESENT(k)` of a byte sequence of any length (R167): the first 10 bytes, 0x00 past the end. -/
def keyIntPresent (k : List Byte) : BitVec 80 := bytesToBits (bytesAt 10 k 0)

/-- `NormKey_E(KEY, n)` (R165 to R167). For AES it is used only when `n = 16`. -/
def normKey : (e : EngineId) → Vector Byte (Config.keyBytes e) → Byte → KeyT e
  | .aes, key, _ => key
  | .des, key, n => keyBitsDes (key.toList.take n.toNat)
  | .present, key, n => keyIntPresent (key.toList.take n.toNat)

/-- `KeyCheck_E(n)` (R165 to R167). -/
def keyCheck : EngineId → Byte → ErrCode
  | .aes, n => if n = 16#8 then .none else .invalidKeyLength
  | .des, _ => .none
  | .present, _ => .none

/-- `LenCheck_E(dir, m)` (R168). -/
def lenCheck (e : EngineId) (dir : Dir) (m : Nat) : ErrCode :=
  if Config.msgBufBytes < m then .badMsgLength
  else if dir = .dec ∧ m % Config.blkBytes e ≠ 0 then .badMsgLength
  else .none

/-- The padded length p of a message op (R163). -/
def paddedLen (e : EngineId) (dir : Dir) (m : Nat) : Nat :=
  match dir with
  | .enc => (m + (Config.blkBytes e - 1)) / Config.blkBytes e * Config.blkBytes e
  | .dec => m

/-- The first check that fails at accept, in the order of R160 and 60_exceptions.md R420 (the illegal byte and the busy
engine come before it). -/
def acceptCheck (e : EngineId) (mode : Mode) (dir : Dir) (x : EngineOf e) : ErrCode :=
  match keyCheck e x.keylen with
  | .none =>
    match mode with
    | .blk => .none
    | .msg => lenCheck e dir x.msglen.toNat
  | c => c

end Sys2Proof.Machine
end

