-- ==== Sys2Proof/Machine/PresentCipher.lean ====
section
/-! DEFINITION. The PRESENT-80 engine's functions (spec/43_present.md): tables, layers, key schedule, the FSM's actions
on the working state, and the pure block functions. Bit 0 of an integer is its least significant bit (R320). -/

namespace Sys2Proof.Machine

/-! ### Tables and layers (R321 to R327) -/

/-- `PSBOX[x]` (R321). -/
def psbox (x : BitVec 4) : BitVec 4 :=
  ([0xC, 0x5, 0x6, 0xB, 0x9, 0x0, 0xA, 0xD, 0x3, 0xE, 0xF, 0x8, 0x4, 0x7, 0x1, 0x2] : List (BitVec 4)).getD x.toNat 0

/-- `PSBOX_INV[y]` (R322). -/
def psboxInv (y : BitVec 4) : BitVec 4 :=
  ([0x5, 0xE, 0xF, 0x8, 0xC, 0x1, 0x2, 0xD, 0xB, 0x4, 0x6, 0x3, 0x0, 0x7, 0x9, 0xA] : List (BitVec 4)).getD y.toNat 0

/-- `PP(i)` (R323): bit i of the input goes to bit PP(i). -/
def pp (i : Nat) : Nat := if i = 63 then 63 else 16 * i % 63

/-- `PP_INV(j)` (R324). -/
def ppInv (j : Nat) : Nat := if j = 63 then 63 else 4 * j % 63

/-- The sum over n < k of terms that share no bit, which is their bitwise OR (R326, R327; DEDUCED, log 17). -/
def orSum (k : Nat) (f : Nat → BitVec 64) : BitVec 64 := (List.range k).foldl (fun acc n => acc ||| f n) 0

/-- `SLayer` and `InvSLayer` with a given box (R326): nibble n through the box, back to its place. -/
def nibbleLayer (box : BitVec 4 → BitVec 4) (s : BitVec 64) : BitVec 64 :=
  orSum 16 fun n => (box (s.extractLsb' (4 * n) 4)).setWidth 64 <<< (4 * n)

/-- `SLayer` (R326). -/
def sLayer (s : BitVec 64) : BitVec 64 := nibbleLayer psbox s

/-- `InvSLayer` (R326). -/
def invSLayer (s : BitVec 64) : BitVec 64 := nibbleLayer psboxInv s

/-- `PLayer` (R327): the sum of `((s >> i) & 1) << PP(i)`. -/
def pLayer (s : BitVec 64) : BitVec 64 := orSum 64 fun i => ((s >>> i) &&& 1) <<< pp i

/-- `InvPLayer` (R327): the sum of `((s >> PP(i)) & 1) << i`. -/
def invPLayer (s : BitVec 64) : BitVec 64 := orSum 64 fun i => ((s >>> pp i) &&& 1) <<< i

/-! ### Key schedule (R329, R332) -/

/-- `KUpdate(kr, rc)` (R329): rotate left by 61, top nibble through the S-box, counter into bits 19 to 15. -/
def kUpdate (kr : BitVec 80) (rc : Nat) : BitVec 80 :=
  let kr := (kr <<< 61) ||| (kr >>> 19)
  let kr : BitVec 80 := psbox (kr.extractLsb' 76 4) ++ kr.extractLsb' 0 76
  kr ^^^ (BitVec.ofNat 80 rc <<< 15)

/-- The register's top 64 bits (R320, R331). -/
def topBits (kr : BitVec 80) : BitVec 64 := kr.extractLsb' 16 64

/-- The key register after i updates with counters 1 to i (R332). -/
def krAfter (key : BitVec 80) : Nat → BitVec 80
  | 0 => key
  | i + 1 => kUpdate (krAfter key i) (i + 1)

/-- `KeySched_PRESENT(k)` (R332): K[i], the top bits after i-1 updates, at index i-1. -/
def keySchedPresent (key : BitVec 80) : Vector (BitVec 64) 32 :=
  Vector.ofFn fun n : Fin 32 => topBits (krAfter key n)

/-- `K[i]`, i = 1 to 32. -/
def presentKeyAt (k : Vector (BitVec 64) 32) (i : Nat) : BitVec 64 := k.getD (i - 1) 0

/-! ### FSM actions (R330, R331, R341 to R344) -/

/-- `KSInit_PRESENT` (R330). -/
def ksInitPresent (key : BitVec 80) (x : PresentWork) : PresentWork := { x with kr := key }

/-- `KSStep_PRESENT(i)` (R331): emit K[i], then update the register unless i = 32 (R333). -/
def ksStepPresent (i : Nat) (x : PresentWork) : PresentWork :=
  { x with
    k := x.k.setIfInBounds (i - 1) (topBits x.kr),
    kr := if i < 32 then kUpdate x.kr i else x.kr }

/-- `LoadAction_PRESENT(dir, blk)` (R341). -/
def loadPresent (dir : Dir) (blk : Vector Byte 8) (x : PresentWork) : PresentWork :=
  match dir with
  | .enc => { x with s := bytesToBits blk }
  | .dec => { x with s := bytesToBits blk ^^^ presentKeyAt x.k 32 }

/-- One encryption round with its subkey (R342). -/
def encRoundPresent (k s : BitVec 64) : BitVec 64 := pLayer (sLayer (s ^^^ k))

/-- One decryption round with its subkey (R343). -/
def decRoundPresent (k s : BitVec 64) : BitVec 64 := invSLayer (invPLayer s) ^^^ k

/-- `RoundAction_PRESENT(dir, i)` (R342, R343): round 31 of an encryption also XORs K[32]. -/
def roundPresent (dir : Dir) (i : Nat) (x : PresentWork) : PresentWork :=
  match dir with
  | .enc =>
    let s := encRoundPresent (presentKeyAt x.k i) x.s
    { x with s := if i = 31 then s ^^^ presentKeyAt x.k 32 else s }
  | .dec => { x with s := decRoundPresent (presentKeyAt x.k i) x.s }

/-- `StoreAction_PRESENT(dir)` (R344). -/
def storePresent (x : PresentWork) : Vector Byte 8 := bitsToBytes 8 x.s

/-! ### Pure block functions (R346) -/

/-- `BlockEnc_PRESENT(blk, k)` (R346). -/
def blockEncPresent (blk : Vector Byte 8) (key : BitVec 80) : Vector Byte 8 :=
  let k := keySchedPresent key
  let s := (List.range' 1 31).foldl (fun s i => encRoundPresent (presentKeyAt k i) s) (bytesToBits blk)
  bitsToBytes 8 (s ^^^ presentKeyAt k 32)

/-- `BlockDec_PRESENT(blk, k)` (R346). -/
def blockDecPresent (blk : Vector Byte 8) (key : BitVec 80) : Vector Byte 8 :=
  let k := keySchedPresent key
  let s := (List.range' 1 31).reverse.foldl (fun s i => decRoundPresent (presentKeyAt k i) s)
    (bytesToBits blk ^^^ presentKeyAt k 32)
  bitsToBytes 8 s

end Sys2Proof.Machine
end

