-- ==== Sys2Proof/Machine/Rounds.lean ====
section
/-! DEFINITION. What each engine supplies to the common FSM (spec/40_common.md R170): its round lists and actions, its
pure block functions, and the pure message functions over them (R179). -/

namespace Sys2Proof.Machine

/-- `rnd_E(dir)`: the round indices in the order the RND steps take them (R230, R290, R340). -/
def rounds : EngineId → Dir → List Nat
  | .aes, .enc => List.range' 1 10
  | .aes, .dec => (List.range 10).reverse
  | .des, _ => List.range' 1 16
  | .present, .enc => List.range' 1 31
  | .present, .dec => (List.range' 1 31).reverse

/-- `KSInit_E` (R220, R280, R330). -/
def ksInit : (e : EngineId) → KeyT e → Work e → Work e
  | .aes => ksInitAes
  | .des => ksInitDes
  | .present => ksInitPresent

/-- `KSStep_E(i)` (R221, R281, R331). -/
def ksStep : (e : EngineId) → Nat → Work e → Work e
  | .aes => ksStepAes
  | .des => ksStepDes
  | .present => ksStepPresent

/-- `LoadAction_E(dir, blk)` (R231, R291, R341). -/
def loadAction : (e : EngineId) → Dir → Vector Byte (Config.blkBytes e) → Work e → Work e
  | .aes => loadAes
  | .des => fun _ => loadDes
  | .present => loadPresent

/-- `RoundAction_E(dir, i)` (R232, R233, R292, R342, R343). -/
def roundAction : (e : EngineId) → Dir → Nat → Work e → Work e
  | .aes => roundAes
  | .des => roundDes
  | .present => roundPresent

/-- `StoreAction_E(dir)` (R234, R293, R344), the same for both directions. -/
def storeAction : (e : EngineId) → Work e → Vector Byte (Config.blkBytes e)
  | .aes => storeAes
  | .des => storeDes
  | .present => storePresent

/-- `BlockEnc_E` (R236, R296, R346). -/
def blockEnc : (e : EngineId) → Vector Byte (Config.blkBytes e) → KeyT e → Vector Byte (Config.blkBytes e)
  | .aes => blockEncAes
  | .des => blockEncDes
  | .present => blockEncPresent

/-- `BlockDec_E` (R236, R296, R346). -/
def blockDec : (e : EngineId) → Vector Byte (Config.blkBytes e) → KeyT e → Vector Byte (Config.blkBytes e)
  | .aes => blockDecAes
  | .des => blockDecDes
  | .present => blockDecPresent

/-- The block function of a direction. -/
def blockFn (e : EngineId) (dir : Dir) (blk : Vector Byte (Config.blkBytes e)) (k : KeyT e) :
    Vector Byte (Config.blkBytes e) :=
  match dir with
  | .enc => blockEnc e blk k
  | .dec => blockDec e blk k

/-- The concatenation of a block function on each of `n` blocks of a byte sequence (R179). -/
def mapBlocks (e : EngineId) (f : Vector Byte (Config.blkBytes e) → Vector Byte (Config.blkBytes e)) (m : List Byte)
    (n : Nat) : List Byte :=
  (List.range n).flatMap fun j => (f (bytesAt (Config.blkBytes e) m (j * Config.blkBytes e))).toList

/-- `MsgEnc_E(M, K)` (R179): zero-padded to whole blocks, each encrypted on its own. The length has no bound here (log 21). -/
def msgEnc (e : EngineId) (m : List Byte) (k : KeyT e) : List Byte :=
  let p := paddedLen e .enc m.length
  mapBlocks e (fun b => blockEnc e b k) (m ++ List.replicate (p - m.length) 0) (p / Config.blkBytes e)

/-- `MsgDec_E(C, K)` (R179), for a whole number of blocks: each decrypted on its own. For another length, of which R179 says
nothing, the last incomplete block is left out (DESIGN CHOICE, log 19). -/
def msgDec (e : EngineId) (c : List Byte) (k : KeyT e) : List Byte :=
  mapBlocks e (fun b => blockDec e b k) c (c.length / Config.blkBytes e)

/-- The message function of a direction. -/
def msgFn (e : EngineId) (dir : Dir) (m : List Byte) (k : KeyT e) : List Byte :=
  match dir with
  | .enc => msgEnc e m k
  | .dec => msgDec e m k

end Sys2Proof.Machine
end

