-- ==== Sys2Proof/Machine/Ops.lean ====
section
/-! DEFINITION. The named operations: the message buffers' bytes, the bus reads and register writes, reporting a command
error (the core's only "exception", spec/60_exceptions.md R410; there is nothing to return from, R426), accepting a cipher
command, the round FSM, and reset. -/

namespace Sys2Proof.Machine

/-! ### Bytes of a message buffer (10_state.md R42)

A buffer lists the bytes written since reset at their host addresses, addresses strictly rising. An unlisted address has
no fixed value. -/

/-- The listed byte at an address. -/
def cellRead : List Host.Cell → Nat → Option Byte
  | [], _ => none
  | (k, v) :: rest, a => if k = a then some v else cellRead rest a

/-- Write one byte, keeping the addresses strictly rising. -/
def cellWrite : List Host.Cell → Nat → Byte → List Host.Cell
  | [], a, v => [(a, v)]
  | (k, w) :: rest, a, v =>
    if a < k then (a, v) :: (k, w) :: rest
    else if a = k then (a, v) :: rest
    else (k, w) :: cellWrite rest a v

/-- Write consecutive bytes from an address on. -/
def cellWrites : List Host.Cell → Nat → List Byte → List Host.Cell
  | m, _, [] => m
  | m, a, b :: bs => cellWrites (cellWrite m a b) (a + 1) bs

/-- The addresses of a list of cells are strictly rising. -/
abbrev cellsRising (m : List Host.Cell) : Prop := m.Pairwise fun x y => x.1 < y.1

/-- The canonical form of engine E's buffer: addresses strictly rising, each in E's buffer (R42, R85). -/
abbrev Memory.wf (e : EngineId) (m : List Host.Cell) : Prop :=
  cellsRising m ∧ ∀ c ∈ m, Config.mbase e ≤ c.1 ∧ c.1 < Config.mbase e + Config.msgBufBytes

/-- `MemRead(mbase(E) + off, 1)`: the listed byte, or the free value of a byte nothing has written since reset (R42,
log 5). -/
def bufRead (e : EngineId) (epoch : Nat) (m : List Host.Cell) (off : Nat) : Byte :=
  (cellRead m (Config.mbase e + off)).getD (Config.msgbufDraw epoch (Config.mbase e + off))

/-- `n` bytes of a buffer from offset `off` on. -/
def bufBytes (e : EngineId) (epoch : Nat) (m : List Host.Cell) (off n : Nat) : List Byte :=
  (List.range n).map fun k => bufRead e epoch m (off + k)

/-! ### Command errors (60_exceptions.md R410) -/

/-- `raise CmdError(c)` on an engine: STATUS only. -/
def raiseOn {e : EngineId} (c : ErrCode) (x : EngineOf e) : EngineOf e := { x with status := statusRefused c x.status }

/-- `raise CmdError(c)` at the accept of a command on engine E (R410): the one shared operation. No state is saved, no
mode changes, nothing is masked and control goes nowhere (R425). -/
def raiseCmdError (e : EngineId) (c : ErrCode) (s : State) : State := s.setEngine e (raiseOn c (s.engine e))

/-! ### Accepting a cipher command (40_common.md R160 to R164) -/

/-- `latch(E, v)` (R162). -/
def latchOn {e : EngineId} (v : Byte) (x : EngineOf e) : EngineOf e :=
  { x with lat := { op := v, key := normKey e x.key x.keylen, din := x.din, mlen := x.msglen } }

/-- `start(E)` (R164). -/
def startOn {e : EngineId} (x : EngineOf e) : EngineOf e :=
  { x with status := statusAccepted, work := ksInit e x.lat.key x.work, fsm := .ks 1 }

/-- Engine E after an accept without error: latched and started. -/
def acceptOn {e : EngineId} (v : Byte) (x : EngineOf e) : EngineOf e := startOn (latchOn v x)

/-- Acceptance of a legal cipher command with byte `v` on engine E (R160): refused as busy (R161), refused with the first
error (R420), or latched and started. -/
def acceptCipher (e : EngineId) (v : Byte) (mode : Mode) (dir : Dir) (s : State) : Host.Outcome State Fault Refusal :=
  if (s.engine e).status.busy then .next (setBusyrej s)
  else
    match acceptCheck e mode dir (s.engine e) with
    | .none => .next (s.setEngine e (acceptOn v (s.engine e)))
    | c => .next (raiseCmdError e c s)

/-- A UTIL command's result goes to UR, and nothing else changes (44_diagnostic.md R370). -/
def utilResult (v : Byte) (s : State) : Host.Outcome State Fault Refusal := .next { s with ur := v }

/-! ### The round FSM (40_common.md R170 to R176) -/

/-- The mode of the command in progress (R170). -/
def latMode {e : EngineId} (x : EngineOf e) : Mode := modeField x.lat.op

/-- The direction of the command in progress (R170). -/
def latDir {e : EngineId} (x : EngineOf e) : Dir := dirField x.lat.op

/-- The padded length of the message op in progress (R163). -/
def latPadded {e : EngineId} (x : EngineOf e) : Nat := paddedLen e (latDir x) x.lat.mlen.toNat

/-- The latch after the `n`-th completion: free values (10_state.md R61, log 7). -/
def latchDiscarded (e : EngineId) (n : Nat) : Latch (KeyT e) (Config.blkBytes e) :=
  { op := BitVec.ofNat 8 (Config.hiddenDraw e n 0 0),
    key := match e with
      | .aes => Vector.ofFn fun i : Fin 16 => BitVec.ofNat 8 (Config.hiddenDraw .aes n 1 i)
      | .des => BitVec.ofNat 64 (Config.hiddenDraw .des n 1 0)
      | .present => BitVec.ofNat 80 (Config.hiddenDraw .present n 1 0),
    din := Vector.ofFn fun i => BitVec.ofNat 8 (Config.hiddenDraw e n 2 i),
    mlen := BitVec.ofNat 16 (Config.hiddenDraw e n 3 0) }

/-- The working registers after the `n`-th completion: free values (R61, log 7). -/
def workDiscarded (e : EngineId) (n : Nat) : Work e :=
  match e with
  | .aes =>
    { st := Vector.ofFn fun r => Vector.ofFn fun c => BitVec.ofNat 8 (Config.hiddenDraw .aes n 6 (4 * r + c)),
      rk := Vector.ofFn fun i => Vector.ofFn fun r => Vector.ofFn fun c =>
        BitVec.ofNat 8 (Config.hiddenDraw .aes n 7 (16 * i + 4 * r + c)),
      w := Vector.ofFn fun i => Vector.ofFn fun k => BitVec.ofNat 8 (Config.hiddenDraw .aes n 8 (4 * i + k)) }
  | .des =>
    { c := BitVec.ofNat 28 (Config.hiddenDraw .des n 6 0), d := BitVec.ofNat 28 (Config.hiddenDraw .des n 7 0),
      k := Vector.ofFn fun i => BitVec.ofNat 48 (Config.hiddenDraw .des n 8 i),
      l := BitVec.ofNat 32 (Config.hiddenDraw .des n 9 0), r := BitVec.ofNat 32 (Config.hiddenDraw .des n 10 0) }
  | .present =>
    { kr := BitVec.ofNat 80 (Config.hiddenDraw .present n 6 0),
      k := Vector.ofFn fun i => BitVec.ofNat 64 (Config.hiddenDraw .present n 7 i),
      s := BitVec.ofNat 64 (Config.hiddenDraw .present n 8 0) }

/-- `complete(E, n)` (R176). The hidden state is discarded: what stands in it until the next command is free (10_state.md
R61, log 7). -/
def completeOn {e : EngineId} (n : Nat) (x : EngineOf e) : EngineOf e :=
  { x with
    outlen := BitVec.ofNat 16 n, status := statusCompleted x.status, fsm := .idle,
    lat := latchDiscarded e x.runs, work := workDiscarded e x.runs,
    j := BitVec.ofNat 16 (Config.hiddenDraw e x.runs 4 0), nblk := BitVec.ofNat 16 (Config.hiddenDraw e x.runs 5 0),
    runs := x.runs + 1 }

/-- The buffer with MSGINIT's padding for a message of `m` bytes (R172): an encrypt writes 0x00 at offsets m to p-1. -/
def padBuf (e : EngineId) (dir : Dir) (m : Nat) (buf : List Host.Cell) : List Host.Cell :=
  match dir with
  | .enc => cellWrites buf (Config.mbase e + m) (List.replicate (paddedLen e .enc m - m) 0)
  | .dec => buf

/-- `msginit(E)` (R172). -/
def msginitOn {e : EngineId} (x : EngineOf e) : Except Fault (EngineOf e) :=
  let n := latPadded x / Config.blkBytes e
  let y := { x with
    msgbuf := padBuf e (latDir x) x.lat.mlen.toNat x.msgbuf, nblk := BitVec.ofNat 16 n, j := 0 }
  if latPadded x ≤ Config.msgBufBytes then .ok (if n = 0 then completeOn 0 y else { y with fsm := .load })
  else .error (.bufferRange e)

/-- Block `E.j` of the buffer lies inside it (R85). -/
abbrev blockInRange {e : EngineId} (x : EngineOf e) : Prop :=
  x.j.toNat * Config.blkBytes e + Config.blkBytes e ≤ Config.msgBufBytes

/-- `block_in(E)` (R173). -/
def blockIn {e : EngineId} (epoch : Nat) (x : EngineOf e) : Except Fault (Vector Byte (Config.blkBytes e)) :=
  match latMode x with
  | .blk => .ok x.lat.din
  | .msg =>
    if blockInRange x then
      .ok (Vector.ofFn fun k : Fin (Config.blkBytes e) =>
        bufRead e epoch x.msgbuf (x.j.toNat * Config.blkBytes e + k.val))
    else .error (.bufferRange e)

/-- `store_out(E, ob)` (R175). -/
def storeOut {e : EngineId} (ob : Vector Byte (Config.blkBytes e)) (x : EngineOf e) : Except Fault (EngineOf e) :=
  match latMode x with
  | .blk => .ok (completeOn (Config.blkBytes e) { x with dout := ob })
  | .msg =>
    if blockInRange x then
      let x := { x with
        msgbuf := cellWrites x.msgbuf (Config.mbase e + x.j.toNat * Config.blkBytes e) ob.toList }
      .ok (if x.j.toNat + 1 < x.nblk.toNat then { x with j := x.j + 1, fsm := .load }
        else completeOn (x.nblk.toNat * Config.blkBytes e) x)
    else .error (.bufferRange e)

/-- The FSM state after round i (R170): RND of the next element of `rnd_E(dir)`, or STORE after the last; none when i is
no element. -/
def afterRound : List Nat → Nat → Option Fsm
  | [], _ => none
  | r :: rest, i =>
    if r = i then
      match rest with
      | [] => some .store
      | n :: _ => some (.rnd n)
    else afterRound rest i

/-- Where KS(i) goes (R170), with j and nblk set for a block op. -/
def afterKs {e : EngineId} (i : Nat) (x : EngineOf e) : EngineOf e :=
  if i < Config.nks e then { x with fsm := .ks (i + 1) }
  else
    match latMode x with
    | .msg => { x with fsm := .msginit }
    | .blk => { x with j := 0, nblk := 1, fsm := .load }

/-- `engine_step(E)` (R170). An idle engine has no step. -/
def engineStep {e : EngineId} (epoch : Nat) (x : EngineOf e) : Except Fault (EngineOf e) :=
  match x.fsm with
  | .idle => .ok x
  | .ks i =>
    if 1 ≤ i ∧ i ≤ Config.nks e then .ok (afterKs i { x with work := ksStep e i x.work })
    else .error (.corruptFsm e)
  | .msginit => msginitOn x
  | .load =>
    match blockIn epoch x with
    | .ok blk =>
      .ok { x with
        work := loadAction e (latDir x) blk x.work, fsm := .rnd ((rounds e (latDir x)).headD 0) }
    | .error f => .error f
  | .rnd i =>
    match afterRound (rounds e (latDir x)) i with
    | some f => .ok { x with work := roundAction e (latDir x) i x.work, fsm := f }
    | none => .error (.corruptFsm e)
  | .store => storeOut (storeAction e x.work) x

/-! ### Host reads and register writes (20_memory.md R83, R90; 10_state.md R33 to R49) -/

/-- A message op runs on the engine: from its accept to its completion (70_reset_and_hazards.md R452). -/
def msgOpRunning {e : EngineId} (x : EngineOf e) : Bool := x.status.busy && decide (latMode x = .msg)

/-- A register of an engine's window as the host reads it (R35 to R41, R88). -/
def regRead {e : EngineId} (x : EngineOf e) : EngReg → Byte
  | .status => statusByte x.status
  | .keylen => x.keylen
  | .msglenHi => x.msglen.extractLsb' 8 8
  | .msglenLo => x.msglen.extractLsb' 0 8
  | .outlenHi => x.outlen.extractLsb' 8 8
  | .outlenLo => x.outlen.extractLsb' 0 8
  | .key i => x.key.getD i 0
  | .din i => x.din.getD i 0
  | .dout i => x.dout.getD i 0

/-- A host write to a register of an engine's window: KEYLEN, MSGLEN, KEY and DIN store the byte, STATUS, OUTLEN and DOUT
ignore it (R35 to R41, R49). -/
def regWrite {e : EngineId} (v : Byte) (x : EngineOf e) : EngReg → EngineOf e
  | .status => x
  | .keylen => { x with keylen := v }
  | .msglenHi => { x with msglen := v ++ x.msglen.extractLsb' 0 8 }
  | .msglenLo => { x with msglen := x.msglen.extractLsb' 8 8 ++ v }
  | .outlenHi => x
  | .outlenLo => x
  | .key i => { x with key := x.key.setIfInBounds i v }
  | .din i => { x with din := x.din.setIfInBounds i v }
  | .dout _ => x

/-- A host write to a byte of E's buffer: ignored while a message op runs on E, else stored (R42, R452). -/
def bufWrite {e : EngineId} (off : Nat) (v : Byte) (x : EngineOf e) : EngineOf e :=
  if msgOpRunning x then x else { x with msgbuf := cellWrite x.msgbuf (Config.mbase e + off) v }

/-- What a host read of a location returns, and the state after it: a read has no side effect (R90) but to consume a free
value when it reads a buffer during a message op (R452, log 6). -/
def locRead (s : State) : Loc → Byte × State
  | .cmd => (0, s)
  | .gstat => (gstatByte s, s)
  | .reg e r => (regRead (s.engine e) r, s)
  | .msgbuf e off =>
    if msgOpRunning (s.engine e) then (Config.busyDraw s.draws, { s with draws := s.draws + 1 })
    else (bufRead e s.epoch (s.engine e).msgbuf off, s)
  | .ua => (s.ua, s)
  | .ub => (s.ub, s)
  | .ur => (s.ur, s)
  | .reserved => (0, s)

/-- `MemRead(a, 1)` by the host (R83). -/
def busRead (s : State) (a : Addr) : Byte × State := locRead s (locate a)

/-! ### Reset and engine turns -/

/-- The reset input (70_reset_and_hazards.md R440, R442): every register at its reset value, a running command abandoned,
every MSGBUF byte a fresh free value. The host and the schedule are outside the core, and the indexes of the free values
never go back (log 9). -/
def resetCore (s : State) : State :=
  { State.reset with
    aes := { Engine.reset .aes with runs := s.aes.runs }, des := { Engine.reset .des with runs := s.des.runs },
    present := { Engine.reset .present with runs := s.present.runs },
    epoch := s.epoch + 1, draws := s.draws, rdata := s.rdata, vars := s.vars, host := s.host, sched := s.sched }

/-- One step of engine E's FSM (10_state.md R30). -/
def engineTurn (e : EngineId) (s : State) : Host.Outcome State Fault Refusal :=
  match engineStep s.epoch (s.engine e) with
  | .ok x => .next (s.setEngine e x)
  | .error f => .fault f

end Sys2Proof.Machine
end

