-- ==== Sys2Proof/Machine/Aes.lean ====
section
/-! DEFINITION. The AES commands at their CMD write (spec/41_aes.md R240 to R243). What follows an accept is the engine's own
steps (Ops.lean, 40_common.md R170). -/

namespace Sys2Proof.Machine

/-- `AES_ENC_BLK` (R240). -/
def execAesEncBlk (s : State) : Host.Outcome State Fault Refusal := acceptCipher .aes 0x10#8 .blk .enc s

/-- `AES_DEC_BLK` (R241). -/
def execAesDecBlk (s : State) : Host.Outcome State Fault Refusal := acceptCipher .aes 0x11#8 .blk .dec s

/-- `AES_ENC_MSG` (R242). -/
def execAesEncMsg (s : State) : Host.Outcome State Fault Refusal := acceptCipher .aes 0x12#8 .msg .enc s

/-- `AES_DEC_MSG` (R243). -/
def execAesDecMsg (s : State) : Host.Outcome State Fault Refusal := acceptCipher .aes 0x13#8 .msg .dec s

end Sys2Proof.Machine
end

