-- ==== Sys2Proof/Machine/Des.lean ====
section
/-! DEFINITION. The DES commands at their CMD write (spec/42_des.md R300 to R303). What follows an accept is the engine's own
steps (Ops.lean, 40_common.md R170). -/

namespace Sys2Proof.Machine

/-- `DES_ENC_BLK` (R300). -/
def execDesEncBlk (s : State) : Host.Outcome State Fault Refusal := acceptCipher .des 0x20#8 .blk .enc s

/-- `DES_DEC_BLK` (R301). -/
def execDesDecBlk (s : State) : Host.Outcome State Fault Refusal := acceptCipher .des 0x21#8 .blk .dec s

/-- `DES_ENC_MSG` (R302). -/
def execDesEncMsg (s : State) : Host.Outcome State Fault Refusal := acceptCipher .des 0x22#8 .msg .enc s

/-- `DES_DEC_MSG` (R303). -/
def execDesDecMsg (s : State) : Host.Outcome State Fault Refusal := acceptCipher .des 0x23#8 .msg .dec s

end Sys2Proof.Machine
end

