-- ==== Sys2Proof/Machine/Present.lean ====
section
/-! DEFINITION. The PRESENT commands at their CMD write (spec/43_present.md R350 to R353). What follows an accept is the
engine's own steps (Ops.lean, 40_common.md R170). -/

namespace Sys2Proof.Machine

/-- `PRESENT_ENC_BLK` (R350). -/
def execPresentEncBlk (s : State) : Host.Outcome State Fault Refusal := acceptCipher .present 0x30#8 .blk .enc s

/-- `PRESENT_DEC_BLK` (R351). -/
def execPresentDecBlk (s : State) : Host.Outcome State Fault Refusal := acceptCipher .present 0x31#8 .blk .dec s

/-- `PRESENT_ENC_MSG` (R352). -/
def execPresentEncMsg (s : State) : Host.Outcome State Fault Refusal := acceptCipher .present 0x32#8 .msg .enc s

/-- `PRESENT_DEC_MSG` (R353). -/
def execPresentDecMsg (s : State) : Host.Outcome State Fault Refusal := acceptCipher .present 0x33#8 .msg .dec s

end Sys2Proof.Machine
end

