-- ==== Sys2Proof/Machine/Util.lean ====
section
/-! DEFINITION. The UTIL commands, each complete in the host step that writes CMD (spec/44_diagnostic.md R370 to R376). -/

namespace Sys2Proof.Machine

/-- `GF_MUL` (R371): `UR <- gfmul(UA, UB)`. -/
def execGfMul (s : State) : Host.Outcome State Fault Refusal := utilResult (gfmul s.ua s.ub) s

/-- `AES_SBOX` (R372): `UR <- SBOX[UA]`. -/
def execAesSbox (s : State) : Host.Outcome State Fault Refusal := utilResult (sbox s.ua) s

/-- `AES_INV_SBOX` (R373): `UR <- INV_SBOX[UA]`. -/
def execAesInvSbox (s : State) : Host.Outcome State Fault Refusal := utilResult (invSbox s.ua) s

/-- `PRESENT_SBOX` (R374): `UR <- zext_8(PSBOX[UA[3:0]])`. -/
def execPresentSbox (s : State) : Host.Outcome State Fault Refusal :=
  utilResult ((psbox (s.ua.extractLsb' 0 4)).setWidth 8) s

/-- `PRESENT_INV_SBOX` (R375): `UR <- zext_8(PSBOX_INV[UA[3:0]])`. -/
def execPresentInvSbox (s : State) : Host.Outcome State Fault Refusal :=
  utilResult ((psboxInv (s.ua.extractLsb' 0 4)).setWidth 8) s

/-- `DES_SBOX` (R376): `UR <- zext_8(SBOX_DES(UB[2:0] + 1, UA[5:0]))`. -/
def execDesSbox (s : State) : Host.Outcome State Fault Refusal :=
  utilResult ((sboxDes ((s.ub.extractLsb' 0 3).toNat + 1) (s.ua.extractLsb' 0 6)).setWidth 8) s

end Sys2Proof.Machine
end

