-- ==== Sys2Proof/Machine/Dispatch.lean ====
section
/-! DEFINITION. exec: the effect of each legal command in the host step that writes its byte to CMD (40_common.md R160). -/

namespace Sys2Proof.Machine

def exec (i : Instr) (s : State) : Host.Outcome State Fault Refusal :=
  match i with
  | .aesEncBlk => Sys2Proof.Machine.execAesEncBlk s
  | .aesDecBlk => Sys2Proof.Machine.execAesDecBlk s
  | .aesEncMsg => Sys2Proof.Machine.execAesEncMsg s
  | .aesDecMsg => Sys2Proof.Machine.execAesDecMsg s
  | .desEncBlk => Sys2Proof.Machine.execDesEncBlk s
  | .desDecBlk => Sys2Proof.Machine.execDesDecBlk s
  | .desEncMsg => Sys2Proof.Machine.execDesEncMsg s
  | .desDecMsg => Sys2Proof.Machine.execDesDecMsg s
  | .presentEncBlk => Sys2Proof.Machine.execPresentEncBlk s
  | .presentDecBlk => Sys2Proof.Machine.execPresentDecBlk s
  | .presentEncMsg => Sys2Proof.Machine.execPresentEncMsg s
  | .presentDecMsg => Sys2Proof.Machine.execPresentDecMsg s
  | .gfMul => Sys2Proof.Machine.execGfMul s
  | .aesSbox => Sys2Proof.Machine.execAesSbox s
  | .aesInvSbox => Sys2Proof.Machine.execAesInvSbox s
  | .presentSbox => Sys2Proof.Machine.execPresentSbox s
  | .presentInvSbox => Sys2Proof.Machine.execPresentInvSbox s
  | .desSbox => Sys2Proof.Machine.execDesSbox s

end Sys2Proof.Machine
end

