-- ==== Sys2Proof/Machine/HostStep.lean ====
section
/-! DEFINITION. The host's step (spec/20_memory.md R83), and whose turn comes next (R91; log 1). -/

namespace Sys2Proof.Machine

/-- The byte that a value of a host program stands for: itself, or the byte its name is bound to (R129). A name that no read
has bound has no value in the spec: a free value (DESIGN CHOICE, log 20). -/
def hostValue (vars : List Host.Cell) : HostVal → Byte
  | .byte v => v
  | .name n => (cellRead vars n).getD (Config.unboundName n)

/-- `accept(v)` (40_common.md R160): a host write of byte `v` to CMD. -/
def cmdWrite (v : Byte) (s : State) : Host.Outcome State Fault Refusal :=
  match decode v with
  | .ok i => exec i s
  | .error _ => .next (setIllegal s)

/-- A host write to a location (10_state.md R33 to R49, 20_memory.md R90). -/
def locWrite (s : State) (v : Byte) : Loc → Host.Outcome State Fault Refusal
  | .cmd => cmdWrite v s
  | .gstat => .next (gstatWrite v s)
  | .reg e r => .next (s.setEngine e (regWrite v (s.engine e) r))
  | .msgbuf e off => .next (s.setEngine e (bufWrite off v (s.engine e)))
  | .ua => .next { s with ua := v }
  | .ub => .next { s with ub := v }
  | .ur => .next s
  | .reserved => .next s

/-- `MemWrite(a, 1, v)` by the host (R83). -/
def busWrite (s : State) (a : Addr) (v : Byte) : Host.Outcome State Fault Refusal := locWrite s v (locate a)

/-- One host step: the next line of its program (30_encoding.md R129). A `poll` stays until its read matches. A host with
nothing left takes no step. -/
def hostTurn (s : State) : Host.Outcome State Fault Refusal :=
  match s.host with
  | [] => .next s
  | .wr8 a v :: rest => busWrite { s with host := rest } a (hostValue s.vars v)
  | .rd8 a name :: rest =>
    let r := busRead { s with host := rest } a
    .next { r.2 with rdata := r.1, vars := cellWrite r.2.vars name r.1 }
  | .poll a mask value :: rest =>
    let r := busRead s a
    .next { r.2 with rdata := r.1, host := if r.1 &&& hostValue s.vars mask = hostValue s.vars value then rest else s.host }

/-- The turn of an agent. -/
def agentTurn (g : Agent) (s : State) : Host.Outcome State Fault Refusal :=
  match g with
  | .host => hostTurn s
  | .engine e => engineTurn e s
  | .reset => .next (resetCore s)

/-- Who moves when the schedule names nobody (log 1): an engine that has a step, then the host. Every engine that has a
step keeps getting turns until it is idle, so this default is weakly fair (40_common.md R171). -/
def defaultAgent (s : State) : Agent :=
  if s.aes.fsm ≠ .idle then .engine .aes
  else if s.des.fsm ≠ .idle then .engine .des
  else if s.present.fsm ≠ .idle then .engine .present
  else .host

/-- Take the next agent off the schedule. -/
def nextAgent (s : State) : Agent × State :=
  match s.sched with
  | g :: rest => (g, { s with sched := rest })
  | [] => (defaultAgent s, s)

/-- A host write of the command byte `w` to CMD as the host's next step, and the next turn the host's (log 3). -/
def placeCommand (s : State) (v : Byte) : State :=
  { s with host := .wr8 0 (.byte v) :: s.host, sched := .host :: s.sched }

end Sys2Proof.Machine
end

