-- ==== Sys2Proof/Machine/Step.lean ====
section
/-! DEFINITION. One step of the machine: the turn of the next agent (spec/10_state.md R30, 20_memory.md R91). -/

namespace Sys2Proof.Machine

/-- One step. -/
def step (s : State) : Host.Outcome State Fault Refusal := agentTurn (nextAgent s).1 (nextAgent s).2

/-- The state in which the very next step is the host's write to CMD of the command in a word numbered as
spec/opcode_table.json numbers it (log 3). -/
def State.withFetchWord (s : State) (nbits w : Nat) : State := placeCommand s (BitVec.ofNat 8 (w % 2 ^ nbits))

end Sys2Proof.Machine
end

