-- ==== Sys2Proof/Machine/Convert.lean ====
section
/-! DEFINITION. The Bit/Byte Conversion Utility as pure functions on lists (spec/40_common.md R150 to R158). None of
them is a command (R159). A text is the list of its characters' ordinals; a bit sequence is a list of Bool, element 0
first. Calls for which the source gives no result are refused by name (93_implementation_defined.md U1 to U3). -/

namespace Sys2Proof.Machine

/-- The bits of a byte, most significant first (20_memory.md R86). -/
def byteBits (b : Byte) : List Bool := (List.range 8).map fun m => b.getLsbD (7 - m)

/-- `BytesToBits(b)` (R150). -/
def bytesToBitList (b : List Byte) : List Bool := b.flatMap byteBits

/-- `StringToBytes(t)` (R151), refused for an ordinal above 255. -/
def stringToBytes (t : List Nat) : Except Refusal (List Byte) :=
  if t.all (· ≤ 255) then .ok (t.map (BitVec.ofNat 8)) else .error .ordinalAbove255

/-- `StringToBits(t)` (R150), refused for an ordinal above 255. -/
def stringToBits (t : List Nat) : Except Refusal (List Bool) := (stringToBytes t).map bytesToBitList

/-- `BitsToInteger(b)` (R156): the sum of `b[i] * 2^(len(b)-1-i)`. -/
def bitsToInteger (b : List Bool) : Nat := b.foldl (fun acc x => 2 * acc + x.toNat) 0

/-- `IntegerToBits(v, len)` (R157), refused for `v ≥ 2^len`. -/
def integerToBits (v len : Nat) : Except Refusal (List Bool) :=
  if v < 2 ^ len then .ok ((List.range len).map fun i => v.testBit (len - 1 - i)) else .error .integerTooWide

/-- `BitsToHex(b)` (R152): left-padded with zero bits to a multiple of 4, one lowercase digit per 4 bits. -/
def bitsToHex (b : List Bool) : List Char :=
  let p := List.replicate ((4 - b.length % 4) % 4) false ++ b
  (List.range (p.length / 4)).map fun k => Nat.digitChar (bitsToInteger ((p.drop (4 * k)).take 4))

/-- `BytesToHex(b)` (R153): two lowercase digits per byte, high nibble first. -/
def bytesToHex (b : List Byte) : List Char :=
  b.flatMap fun x => [Nat.digitChar (x.toNat / 16), Nat.digitChar (x.toNat % 16)]

/-- `XorBits(a, b)` (R154): as long as the shorter input. -/
def xorBits (a b : List Bool) : List Bool := List.zipWith xor a b

/-- `RotateLeft(s, n)` (R155): `r[i] = s[(i + n) mod len(s)]`, refused for negative n. -/
def rotateLeftSeq {α : Type} (s : List α) (n : Int) : Except Refusal (List α) :=
  if 0 ≤ n then .ok (s.rotate n.toNat) else .error .negativeRotation

/-- `BitsToBytes(b)` (R158): byte k is `BitsToInteger(b[8k..8k+8))`. R158 gives it for a whole number of bytes only; for
another length this leaves the last `len(b) mod 8` elements out (DESIGN CHOICE, log 19). -/
def bitListToBytes (b : List Bool) : List Byte :=
  (List.range (b.length / 8)).map fun k => BitVec.ofNat 8 (bitsToInteger ((b.drop (8 * k)).take 8))

/-- The elements of a bit sequence held as a bit vector, element 0 first (log 16). -/
def seqBits {n : Nat} (b : BitVec n) : List Bool := (List.range n).map b.getMsbD

end Sys2Proof.Machine
end

