-- ==== Sys2Proof/Machine/HostProgram.lean ====
section
/-! DEFINITION. The host program notation with its pseudo-instructions and their expansion into bus steps
(spec/30_encoding.md R129, R130). -/

namespace Sys2Proof.Machine

/-- A line of a host program (R129, R130). The name a read binds is a number; `rdbytes a n x` binds `x + i`. The
`V` of `wr16` is 16 bits wide and a name holds one byte, so it is written out (log 20). -/
inductive HostLine where
  | op (o : HostOp)
  | cmd (i : Instr)
  | wr16 (a : Addr) (v : Half)
  | wrbytes (a : Addr) (bytes : List HostVal)
  | rdbytes (a : Addr) (n : Nat) (name : Nat)
  | wait (e : EngineId)
  | setkey (e : EngineId) (bytes : List HostVal)
deriving DecidableEq, Repr

/-- Consecutive byte writes (R130, `wrbytes`). -/
def writeSteps : Nat → List HostVal → List HostOp
  | _, [] => []
  | a, b :: bs => .wr8 (BitVec.ofNat 12 a) b :: writeSteps (a + 1) bs

/-- The expansion of a line (R130). -/
def expandLine : HostLine → List HostOp
  | .op o => [o]
  | .cmd i => [.wr8 0x000 (.byte (encode i))]
  | .wr16 a v => [.wr8 a (.byte (v.extractLsb' 8 8)), .wr8 (a + 1) (.byte (v.extractLsb' 0 8))]
  | .wrbytes a bytes => writeSteps a.toNat bytes
  | .rdbytes a n name => (List.range n).map fun i => .rd8 (BitVec.ofNat 12 (a.toNat + i)) (name + i)
  | .wait e => [.poll (BitVec.ofNat 12 (Config.base e)) (.byte 0x01) (.byte 0x00)]
  | .setkey e bytes =>
    writeSteps (Config.base e + 0x10) (bytes.take (Config.keyBytes e)) ++
      [.wr8 (BitVec.ofNat 12 (Config.base e + 0x01)) (.byte (BitVec.ofNat 8 (min bytes.length 255)))]

/-- A host program's bus steps, in program order (R130). -/
def expandProgram (p : List HostLine) : List HostOp := p.flatMap expandLine

end Sys2Proof.Machine
end

