-- ==== Sys2Proof/Machine/SourceInterface.lean ====
section
/-! DEFINITION. The source's calls `Encrypt(t, k)` and `Decrypt(c, k)` on texts, as 40_common.md R186 makes them out of the
message functions, and a message of any length in pieces. None of them is a command. A text is the list of its characters'
ordinals; an AES ciphertext is a byte sequence, a DES or PRESENT one a bit sequence (R158). -/

namespace Sys2Proof.Machine

/-- The normalised key of a key text (R186, R165 to R167): AES takes 16 characters and fails on any other length (R401; for
an encrypt, U5 and log 21). An ordinal above 255 is refused before a wrong length (DESIGN CHOICE, log 22). -/
def sourceKey : (e : EngineId) → List Nat → Except Refusal (KeyT e)
  | .aes, k => (stringToBytes k).bind fun b => if b.length = 16 then .ok (bytesAt 16 b 0) else .error .invalidKeyLength
  | .des, k => (stringToBytes k).map keyBitsDes
  | .present, k => (stringToBytes k).map keyIntPresent

/-- `MsgEnc_E` of a text under a key text (R186). Where both would be refused, the text's refusal is given (DESIGN CHOICE,
log 22). -/
def sourceEncrypt (e : EngineId) (t k : List Nat) : Except Refusal (List Byte) :=
  (stringToBytes t).bind fun m => (sourceKey e k).map (msgEnc e m)

/-- `MsgDec_E` of the byte form of a ciphertext under a key text (R186). No result is given for a part of a block
(91_not_in_source.md N20). Where both would be refused, the key's refusal is given (DESIGN CHOICE, log 22). -/
def sourceDecrypt (e : EngineId) (c : List Byte) (k : List Nat) : Except Refusal (List Byte) :=
  (sourceKey e k).bind fun key =>
    if c.length % Config.blkBytes e = 0 then .ok (msgDec e c key) else .error .partialBlock

/-- A decrypt call on a bit sequence: its byte form is decrypted, and the result given as bits again (R158, R186; DEDUCED,
log 21). A length that is no whole number of bytes is refused before the key text is read (DESIGN CHOICE, log 22). -/
def sourceDecryptBits (e : EngineId) (c : List Bool) (k : List Nat) : Except Refusal (List Bool) :=
  if c.length % 8 = 0 then (sourceDecrypt e (bitListToBytes c) k).map bytesToBitList else .error .partialBlock

/-- `AES.Encrypt(t, k)` (R186). -/
def aesEncrypt (t k : List Nat) : Except Refusal (List Byte) := sourceEncrypt .aes t k

/-- `AES.Decrypt(c, k)` (R186). -/
def aesDecrypt (c : List Byte) (k : List Nat) : Except Refusal (List Byte) := sourceDecrypt .aes c k

/-- `DES.Encrypt(t, k)`, a bit sequence (R186). -/
def desEncrypt (t k : List Nat) : Except Refusal (List Bool) := (sourceEncrypt .des t k).map bytesToBitList

/-- `DES.Decrypt(c, k)` (R186). -/
def desDecrypt (c : List Bool) (k : List Nat) : Except Refusal (List Bool) := sourceDecryptBits .des c k

/-- `PRESENT.Encrypt(t, k)`, a bit sequence (R186). -/
def presentEncrypt (t k : List Nat) : Except Refusal (List Bool) := (sourceEncrypt .present t k).map bytesToBitList

/-- `PRESENT.Decrypt(c, k)` (R186). -/
def presentDecrypt (c : List Bool) (k : List Nat) : Except Refusal (List Bool) := sourceDecryptBits .present c k

/-- A message cut into pieces of `n` bytes, the last one what is left. -/
def pieces (n : Nat) (m : List Byte) : List (List Byte) :=
  (List.range ((m.length + (n - 1)) / n)).map fun j => (m.drop (n * j)).take n

/-- A message of any length as the host processes it: piece by piece, the results one after another (R186). The core takes
pieces of at most `MSG_BUF_BYTES`. -/
def msgInPieces (e : EngineId) (dir : Dir) (n : Nat) (m : List Byte) (k : KeyT e) : List Byte :=
  (pieces n m).flatMap fun p => msgFn e dir p k

end Sys2Proof.Machine
end

