-- ==== Sys2Proof/Safety.lean ====
section
/-! DEFINITION. What claims are stated in: the invariant that rules out the states no run reaches, an engine's own steps, and
what an engine's command leaves in its registers and buffer. -/

namespace Sys2Proof.Machine

/-- The byte that a host read of an address returns (R83). -/
def State.readAt (s : State) (a : Addr) : Byte := (busRead s a).1

/-- The host address of an offset in E's register window (10_state.md R44). -/
def regAddr (e : EngineId) (off : Nat) : Addr := BitVec.ofNat 12 (Config.base e + off)

/-- The host address of a byte of E's buffer (10_state.md R42). -/
def bufAddr (e : EngineId) (off : Nat) : Addr := BitVec.ofNat 12 (Config.mbase e + off)

/-- The addresses that the register map lists (R44). -/
def listedAddr (a : Nat) : Prop :=
  a ≤ 0x001 ∨
  (0x100 ≤ a ∧ a ≤ 0x105) ∨ (0x110 ≤ a ∧ a ≤ 0x13F) ∨
  (0x200 ≤ a ∧ a ≤ 0x205) ∨ (0x210 ≤ a ∧ a ≤ 0x217) ∨ (0x220 ≤ a ∧ a ≤ 0x227) ∨ (0x230 ≤ a ∧ a ≤ 0x237) ∨
  (0x300 ≤ a ∧ a ≤ 0x305) ∨ (0x310 ≤ a ∧ a ≤ 0x319) ∨ (0x320 ≤ a ∧ a ≤ 0x327) ∨ (0x330 ≤ a ∧ a ≤ 0x337) ∨
  (0x400 ≤ a ∧ a ≤ 0x6FF) ∨ (0x800 ≤ a ∧ a ≤ 0x802)

/-- The addresses of the registers that are read-only as a whole: STATUS, OUTLEN, DOUT, UR (R44, R49). -/
def readOnlyAddr (a : Nat) : Prop :=
  a = 0x100 ∨ a = 0x104 ∨ a = 0x105 ∨ (0x130 ≤ a ∧ a ≤ 0x13F) ∨
  a = 0x200 ∨ a = 0x204 ∨ a = 0x205 ∨ (0x230 ≤ a ∧ a ≤ 0x237) ∨
  a = 0x300 ∨ a = 0x304 ∨ a = 0x305 ∨ (0x330 ≤ a ∧ a ≤ 0x337) ∨ a = 0x802

/-- The addresses of the read/write registers: KEYLEN, MSGLEN, KEY, DIN, UA, UB (R44). -/
def writableAddr (a : Nat) : Prop :=
  (0x101 ≤ a ∧ a ≤ 0x103) ∨ (0x110 ≤ a ∧ a ≤ 0x12F) ∨
  (0x201 ≤ a ∧ a ≤ 0x203) ∨ (0x210 ≤ a ∧ a ≤ 0x217) ∨ (0x220 ≤ a ∧ a ≤ 0x227) ∨
  (0x301 ≤ a ∧ a ≤ 0x303) ∨ (0x310 ≤ a ∧ a ≤ 0x319) ∨ (0x320 ≤ a ∧ a ≤ 0x327) ∨ a = 0x800 ∨ a = 0x801

/-- Everything in the core is the same: registers, buffers, hidden state and the values of unwritten bytes. What may differ is
the host's side of the bus, the schedule and the count of free values drawn. -/
def sameCore (s t : State) : Prop :=
  t.illegal = s.illegal ∧ t.busyrej = s.busyrej ∧ t.ua = s.ua ∧ t.ub = s.ub ∧ t.ur = s.ur ∧
  (∀ e, t.engine e = s.engine e) ∧ t.epoch = s.epoch

/-- The registers that a command latches its inputs from (R162). -/
def EngReg.isInput : EngReg → Bool
  | .keylen | .msglenHi | .msglenLo | .key _ | .din _ => true
  | .status | .outlenHi | .outlenLo | .dout _ => false

/-- Commands one after another. -/
def runCommands : List Instr → State → Host.Outcome State Fault Refusal
  | [], s => .next s
  | i :: rest, s =>
    match exec i s with
    | .next t => runCommands rest t
    | .fault f => .fault f
    | .refused r => .refused r

/-- The conditions under which a cipher command is accepted (R160, R420): the engine is not busy, AES has a key of 16 bytes, a
message op has a legal length. -/
def acceptable (e : EngineId) (mode : Mode) (dir : Dir) (s : State) : Prop :=
  (s.engine e).status.busy = false ∧ (e = .aes → (s.engine e).keylen = 16) ∧
  (mode = .msg → (s.engine e).msglen.toNat ≤ Config.msgBufBytes ∧
    (dir = .dec → (s.engine e).msglen.toNat % Config.blkBytes e = 0))

/-- The FSM state is one that R60 and R170 allow for the command in progress. -/
def fsmLegal {e : EngineId} (x : EngineOf e) : Prop :=
  match x.fsm with
  | .ks i => 1 ≤ i ∧ i ≤ Config.nks e
  | .rnd i => i ∈ rounds e (latDir x)
  | .msginit => latMode x = .msg
  | _ => True

/-- The FSM is working on a block. -/
def inBlock : Fsm → Prop
  | .load => True
  | .rnd _ => True
  | .store => True
  | _ => False

/-- The block counters of the command in progress (R163, R172): a block op has one block; a message op of padded length p has
p / B(E) blocks, and block j is one of them. -/
def countersOk {e : EngineId} (x : EngineOf e) : Prop :=
  match latMode x with
  | .blk => x.j = 0 ∧ x.nblk = 1
  | .msg => x.nblk.toNat * Config.blkBytes e = latPadded x ∧ x.j.toNat < x.nblk.toNat

/-- The invariant of one engine. -/
structure EngineInv {e : EngineId} (x : EngineOf e) : Prop where
  /-- The buffer is in canonical form. -/
  mem_wf : Memory.wf e x.msgbuf
  /-- `E.fsm = IDLE` exactly when BUSY = 0 (R60). -/
  busy_iff : x.status.busy = true ↔ x.fsm ≠ .idle
  /-- At most one of BUSY, DONE and ERR (R35). -/
  one_flag : ¬ (x.status.busy ∧ x.status.done) ∧ ¬ (x.status.busy ∧ x.status.err) ∧ ¬ (x.status.done ∧ x.status.err)
  /-- ERRCODE is 0 when ERR = 0 and an error's code when ERR = 1 (R35). -/
  err_code : x.status.errcode = .none ↔ x.status.err = false
  /-- The FSM state is legal (R60). -/
  fsm_legal : fsmLegal x
  /-- The latched command is one of this engine's (R55, R162). -/
  op_legal : x.fsm ≠ .idle → ∃ m d, x.lat.op = encodeFields (.cipher e m d)
  /-- A message op in progress passed its length check (R168). -/
  msg_len : x.fsm ≠ .idle → latMode x = .msg → lenCheck e (latDir x) x.lat.mlen.toNat = .none
  /-- The block counters are in range while a block is processed. -/
  counters : inBlock x.fsm → countersOk x

/-- The invariant of the machine. -/
structure Inv (s : State) : Prop where
  engines : ∀ e, EngineInv (s.engine e)
  vars : cellsRising s.vars

/-- `k` steps of an engine with nothing between them. -/
def engineSteps {e : EngineId} (epoch : Nat) : Nat → EngineOf e → Except Fault (EngineOf e)
  | 0, x => .ok x
  | k + 1, x =>
    match engineStep epoch x with
    | .ok y => engineSteps epoch k y
    | .error f => .error f

/-- `k` turns of engine E in a row are next on the schedule. -/
def scheduleEngine (e : EngineId) (k : Nat) (s : State) : State :=
  { s with sched := List.replicate k (.engine e) ++ s.sched }

/-- `k` steps of the machine, stopping at the first fault or refusal. -/
def steps : Nat → State → Host.Outcome State Fault Refusal
  | 0, s => .next s
  | k + 1, s =>
    match step s with
    | .next t => steps k t
    | .fault f => .fault f
    | .refused r => .refused r

/-- The number of engine steps of a block op (R178): NKS(E) + 1 + NR(E) + 1. -/
def blockOpSteps (e : EngineId) : Nat := Config.nks e + 1 + (rounds e .enc).length + 1

/-- The number of engine steps of a message op of `n` blocks (R178): NKS(E) + 1 + n * (NR(E) + 2). -/
def msgOpSteps (e : EngineId) (n : Nat) : Nat := Config.nks e + 1 + n * ((rounds e .enc).length + 2)

/-- The engine as a completed block op leaves it (R176, R180), from the engine `x` at its accept: DOUT and OUTLEN written,
DONE, idle, hidden state discarded, every other register as it was. -/
def blockOpDone {e : EngineId} (dir : Dir) (x : EngineOf e) : EngineOf e :=
  completeOn (Config.blkBytes e)
    { x with status := statusAccepted, dout := blockFn e dir x.din (normKey e x.key x.keylen) }

/-- The engine as a completed message op leaves it (R176, R181), from the engine `x` at its accept: MSGBUF[0..p) holds the
message function of MSGBUF[0..m), OUTLEN is p, DONE, idle, hidden state discarded, every other register as it was. -/
def msgOpDone {e : EngineId} (epoch : Nat) (dir : Dir) (x : EngineOf e) : EngineOf e :=
  let m := x.msglen.toNat
  completeOn (paddedLen e dir m)
    { x with
      status := statusAccepted,
      msgbuf := cellWrites x.msgbuf (Config.mbase e)
        (msgFn e dir (bufBytes e epoch x.msgbuf 0 m) (normKey e x.key x.keylen)) }

end Sys2Proof.Machine
end

