-- ==== Sys2Proof/WellFormed.lean ====
section
/-! DEFINITION. Well-formed terms.

A command has no operand field (30_encoding.md R125), so every `Instr` is well formed. What can be ill formed is a line of
the host notation (R130) that runs past the last address: the bus carries 12 bits and no address wraps around
(20_memory.md R81), and a program that uses a name before a read has bound it (R129). -/

namespace Sys2Proof

/-- Every command is well formed: it has no field that could hold an illegal value (R125). -/
def Instr.wellFormed : Instr → Bool
  | .aesEncBlk | .aesDecBlk | .aesEncMsg | .aesDecMsg => true
  | .desEncBlk | .desDecBlk | .desEncMsg | .desDecMsg => true
  | .presentEncBlk | .presentDecBlk | .presentEncMsg | .presentDecMsg => true
  | .gfMul | .aesSbox | .aesInvSbox | .presentSbox | .presentInvSbox | .desSbox => true

/-- A line of the host notation stays inside the address space (R81, R130). -/
def Machine.HostLine.wellFormed : Machine.HostLine → Bool
  | .op _ => true
  | .cmd i => i.wellFormed
  | .wr16 a _ => decide (a.toNat + 1 < 2 ^ 12)
  | .wrbytes a bytes => decide (a.toNat + bytes.length ≤ 2 ^ 12)
  | .rdbytes a n _ => decide (a.toNat + n ≤ 2 ^ 12)
  | .wait _ => true
  | .setkey _ _ => true

/-- A value is written out, or is one of the names bound before. -/
def Machine.HostVal.boundIn (names : List Nat) : Machine.HostVal → Bool
  | .byte _ => true
  | .name n => names.contains n

/-- Bus steps that use a name only after a read of theirs has bound it (R129; log 20). -/
def Machine.namesBound : List Nat → List Machine.HostOp → Bool
  | _, [] => true
  | names, .wr8 _ v :: rest => v.boundIn names && namesBound names rest
  | names, .rd8 _ n :: rest => namesBound (n :: names) rest
  | names, .poll _ m v :: rest => m.boundIn names && v.boundIn names && namesBound names rest

/-- A host program: every line inside the address space, every name bound before its use. -/
def Machine.programWellFormed (p : List Machine.HostLine) : Bool :=
  p.all Machine.HostLine.wellFormed && Machine.namesBound [] (Machine.expandProgram p)

end Sys2Proof
end

