-- ==== Sys2Proof/Certificates/Slice0/Obligations.lean ====
section
/-! DEFINITION. The statements for the provers. A cipher command is written `instrOf (.cipher e m d)`: with e, m, d free it
stands for all twelve cipher constructors of Instr, and `instrOf (.util f)` for the six UTIL constructors. -/

open Sys2Proof Sys2Proof.Machine

/-! ### Encoding -/

/-- R126: exactly these 18 bytes are legal, each with these fields and this command, and the encoder gives the byte back. -/
def Obligations.OpcodeMapIsComplete : Prop :=
  (∀ (v : Byte) (f : Verdict) (i : Instr), (decodeFields v = .ok f ∧ decode v = .ok i) ↔ (v, f, i) ∈
    ([(0x10, .cipher .aes .blk .enc, .aesEncBlk), (0x11, .cipher .aes .blk .dec, .aesDecBlk),
      (0x12, .cipher .aes .msg .enc, .aesEncMsg), (0x13, .cipher .aes .msg .dec, .aesDecMsg),
      (0x20, .cipher .des .blk .enc, .desEncBlk), (0x21, .cipher .des .blk .dec, .desDecBlk),
      (0x22, .cipher .des .msg .enc, .desEncMsg), (0x23, .cipher .des .msg .dec, .desDecMsg),
      (0x30, .cipher .present .blk .enc, .presentEncBlk), (0x31, .cipher .present .blk .dec, .presentDecBlk),
      (0x32, .cipher .present .msg .enc, .presentEncMsg), (0x33, .cipher .present .msg .dec, .presentDecMsg),
      (0x40, .util .gfMul, .gfMul), (0x41, .util .aesSbox, .aesSbox), (0x42, .util .aesInvSbox, .aesInvSbox),
      (0x43, .util .presentSbox, .presentSbox), (0x44, .util .presentInvSbox, .presentInvSbox),
      (0x45, .util .desSbox, .desSbox)] : List (Byte × Verdict × Instr))) ∧
  (∀ i, encode i ∈ ([0x10, 0x11, 0x12, 0x13, 0x20, 0x21, 0x22, 0x23, 0x30, 0x31, 0x32, 0x33,
    0x40, 0x41, 0x42, 0x43, 0x44, 0x45] : List Byte) ∧ decode (encode i) = .ok i)

/-- Decode and encode agree on whole command streams: the bytes of well-formed commands decode to those commands, one byte
each (R120), and a stream that decodes is the encoding of what it decodes to. -/
def Obligations.CommandStreamsRoundTrip : Prop :=
  (∀ is : List Instr, (∀ i ∈ is, i.wellFormed = true) → (is.map encode).mapM decode = Except.ok is) ∧
  (∀ (bs : List Byte) (is : List Instr), bs.mapM decode = Except.ok is → is.map encode = bs) ∧
  (∀ (i : Instr) (rest : List Byte), decodeStream (encode i :: rest) = some (.ok i, rest))

/-- R127: the 238 bytes outside the opcode map are the illegal ones, and writing one to CMD sets ILLEGAL and nothing else. -/
def Obligations.IllegalByteSetsOnlyIllegal : Prop :=
  (∀ v : Byte, (∃ r, decode v = .error r) ↔
    (v.toNat ≤ 0x0F ∨ (0x14 ≤ v.toNat ∧ v.toNat ≤ 0x1F) ∨ (0x24 ≤ v.toNat ∧ v.toNat ≤ 0x2F) ∨
      (0x34 ≤ v.toNat ∧ v.toNat ≤ 0x3F) ∨ (0x46 ≤ v.toNat ∧ v.toNat ≤ 0x4F) ∨ 0x50 ≤ v.toNat)) ∧
  ((List.range 256).filter fun n => !(decode (BitVec.ofNat 8 n)).toBool).length = 238 ∧
  (∀ (v : Byte) (r : Illegal) (s : State), decode v = .error r →
    busWrite s 0x000 v = .next { s with illegal := true })

/-- R122, R123, R124: bits 7:4 select the unit, bits 1 and 0 of a cipher byte are MODE and DIR with bits 3:2 zero, bits 3:0
of a UTIL byte are the function, and every other byte is illegal. -/
def Obligations.CommandFieldsSelectUnitAndFunction : Prop :=
  ∀ v : Byte,
    let unit := v.toNat / 16
    let low := v.toNat % 16
    let mode := if low / 2 % 2 = 1 then Mode.msg else Mode.blk
    let dir := if low % 2 = 1 then Dir.dec else Dir.enc
    (unit = 1 → low < 4 → decodeFields v = .ok (.cipher .aes mode dir)) ∧
    (unit = 2 → low < 4 → decodeFields v = .ok (.cipher .des mode dir)) ∧
    (unit = 3 → low < 4 → decodeFields v = .ok (.cipher .present mode dir)) ∧
    (unit = 1 ∨ unit = 2 ∨ unit = 3 → 4 ≤ low → ∃ r, decodeFields v = .error r) ∧
    (unit = 4 → low = 0 → decodeFields v = .ok (.util .gfMul)) ∧
    (unit = 4 → low = 1 → decodeFields v = .ok (.util .aesSbox)) ∧
    (unit = 4 → low = 2 → decodeFields v = .ok (.util .aesInvSbox)) ∧
    (unit = 4 → low = 3 → decodeFields v = .ok (.util .presentSbox)) ∧
    (unit = 4 → low = 4 → decodeFields v = .ok (.util .presentInvSbox)) ∧
    (unit = 4 → low = 5 → decodeFields v = .ok (.util .desSbox)) ∧
    (unit = 4 → 6 ≤ low → ∃ r, decodeFields v = .error r) ∧
    (unit = 0 ∨ 5 ≤ unit → ∃ r, decodeFields v = .error r)

/-! ### The step, and the host's program -/

/-- One step is one turn of one agent (R30). Whose turn it is, is the model's own data (log 1): the head of the schedule; with
an empty schedule, an engine that has a step, and the host when there is none. -/
def Obligations.StepIsOneTurnOfTheScheduledAgent : Prop :=
  (∀ (s : State) (g : Agent) (rest : List Agent), s.sched = g :: rest → step s = agentTurn g { s with sched := rest }) ∧
  (∀ s : State, s.sched = [] → (∀ e, (s.engine e).fsm = .idle) → step s = agentTurn .host s) ∧
  (∀ s : State, s.sched = [] → (∃ e, (s.engine e).fsm ≠ .idle) →
    ∃ e, (s.engine e).fsm ≠ .idle ∧ step s = agentTurn (.engine e) s)

/-- A step runs the decoded command: when the host's turn writes a legal byte to CMD, the step is exec of that command in the
state with the host moved past its line and the turn taken off the schedule. That the host moves when the schedule is empty and
every engine idle is the model's choice of log 1; that `withFetchWord` makes the host's write of the command the very next step
is the model's choice of log 3. -/
def Obligations.StepRunsTheCommandWrittenToCmd : Prop :=
  (∀ (s : State) (v : HostVal) (i : Instr) (lines : List HostOp) (turns : List Agent),
    s.host = .wr8 0x000 v :: lines → s.sched = .host :: turns → decode (hostValue s.vars v) = .ok i →
    step s = exec i { s with host := lines, sched := turns }) ∧
  (∀ (s : State) (v : HostVal) (i : Instr) (lines : List HostOp),
    s.host = .wr8 0x000 v :: lines → s.sched = [] → (∀ e, (s.engine e).fsm = .idle) →
    decode (hostValue s.vars v) = .ok i →
    step s = exec i { s with host := lines }) ∧
  (∀ (s : State) (i : Instr), i.wellFormed = true → step (s.withFetchWord 8 (encode i).toNat) = exec i s)

/-- R129: `wr8` is one bus write, `rd8` binds the byte one bus read returns, `poll` repeats one bus read per step until the
masked byte matches. Reads leave the core as it is (R90), and the port holds the byte of the last one (R82). That a byte of a line
may be a name that a read has bound, and is then the byte that was read, is the model's choice of log 2. -/
def Obligations.HostLinesAreBusSteps : Prop :=
  (∀ (vars : List Host.Cell) (v : Byte), hostValue vars (.byte v) = v) ∧
  (∀ (vars : List Host.Cell) (name : Nat) (v : Byte), cellRead vars name = some v → hostValue vars (.name name) = v) ∧
  (∀ (s : State) (a : Addr) (v : HostVal) (lines : List HostOp), s.host = .wr8 a v :: lines →
    agentTurn .host s = busWrite { s with host := lines } a (hostValue s.vars v)) ∧
  (∀ (s : State) (a : Addr) (name : Nat) (lines : List HostOp), s.host = .rd8 a name :: lines →
    ∃ t, agentTurn .host s = .next t ∧ cellRead t.vars name = some (s.readAt a) ∧ t.rdata = s.readAt a ∧
      (∀ other, other ≠ name → cellRead t.vars other = cellRead s.vars other) ∧ t.host = lines ∧ sameCore s t) ∧
  (∀ (s : State) (a : Addr) (mask value : HostVal) (lines : List HostOp), s.host = .poll a mask value :: lines →
    ∃ t, agentTurn .host s = .next t ∧ t.rdata = s.readAt a ∧ t.vars = s.vars ∧ sameCore s t ∧
      ((s.readAt a &&& hostValue s.vars mask) = hostValue s.vars value → t.host = lines) ∧
      ((s.readAt a &&& hostValue s.vars mask) ≠ hostValue s.vars value → t.host = s.host))

/-- A host program of `cmd` lines runs its commands in program order (R91, R129, R130): one host turn each, each with exec's
effect on the state before it. -/
def Obligations.CommandProgramRunsInOrder : Prop :=
  ∀ (is : List Instr) (s : State),
    steps is.length
      { s with
        host := expandProgram (is.map .cmd) ++ s.host, sched := List.replicate is.length .host ++ s.sched } =
      runCommands is s

/-- R130: what each pseudo-instruction stands for, and a host program as the ordered list of its bus steps. The
lines are those that stay inside the address space. That names are numbers, so that `name[i]` of `rdbytes` is the number name + i and
a byte of `wrbytes` and `setkey` may be a name, is the model's choice of log 2; that the V of `wr16` is written out is that of
log 20. -/
def Obligations.PseudoInstructionsExpand : Prop :=
  expandProgram [] = [] ∧ (∀ line rest, expandProgram (line :: rest) = expandLine line ++ expandProgram rest) ∧
  (∀ o, expandLine (.op o) = [o]) ∧
  (∀ i, expandLine (.cmd i) = [.wr8 0x000 (.byte (encode i))]) ∧
  (∀ (a : Addr) (v : Half), a.toNat + 1 < 4096 →
    expandLine (.wr16 a v) = [.wr8 a (.byte (v.extractLsb' 8 8)), .wr8 (a + 1) (.byte (v.extractLsb' 0 8))]) ∧
  (∀ (a : Addr) (bytes : List HostVal), a.toNat + bytes.length ≤ 4096 →
    (expandLine (.wrbytes a bytes)).length = bytes.length ∧
    ∀ i b, bytes[i]? = some b → (expandLine (.wrbytes a bytes))[i]? = some (HostOp.wr8 (a + BitVec.ofNat 12 i) b)) ∧
  (∀ (a : Addr) (n name : Nat), a.toNat + n ≤ 4096 → (expandLine (.rdbytes a n name)).length = n ∧
    ∀ i, i < n → (expandLine (.rdbytes a n name))[i]? = some (HostOp.rd8 (a + BitVec.ofNat 12 i) (name + i))) ∧
  expandLine (.wait .aes) = [.poll 0x100 (.byte 0x01) (.byte 0x00)] ∧
  expandLine (.wait .des) = [.poll 0x200 (.byte 0x01) (.byte 0x00)] ∧
  expandLine (.wait .present) = [.poll 0x300 (.byte 0x01) (.byte 0x00)] ∧
  (∀ bytes : List HostVal, expandLine (.setkey .aes bytes) =
    expandLine (.wrbytes 0x110 (bytes.take 16)) ++ [.wr8 0x101 (.byte (BitVec.ofNat 8 (min bytes.length 255)))]) ∧
  (∀ bytes : List HostVal, expandLine (.setkey .des bytes) =
    expandLine (.wrbytes 0x210 (bytes.take 8)) ++ [.wr8 0x201 (.byte (BitVec.ofNat 8 (min bytes.length 255)))]) ∧
  (∀ bytes : List HostVal, expandLine (.setkey .present bytes) =
    expandLine (.wrbytes 0x310 (bytes.take 10)) ++ [.wr8 0x301 (.byte (BitVec.ofNat 8 (min bytes.length 255)))])

/-- Running `setkey E, bytes` leaves the first KEY_BYTES(E) bytes in KEY, the rest of KEY as it was, min(length, 255) in
KEYLEN, and nothing else changed (R36, R39, R130). A byte may be a name bound before. -/
def Obligations.SetkeyLoadsTheKeyRegisters : Prop :=
  ∀ (s : State) (e : EngineId) (bytes : List HostVal),
    let lines := expandLine (.setkey e bytes)
    steps lines.length { s with host := lines ++ s.host, sched := List.replicate lines.length .host ++ s.sched } =
      .next (s.setEngine e
        { s.engine e with
          keylen := BitVec.ofNat 8 (min bytes.length 255),
          key := Vector.ofFn fun i : Fin (Config.keyBytes e) =>
            (bytes.map (hostValue s.vars)).getD i ((s.engine e).key[i]) })

/-! ### Reset -/

/-- R440: from any state, the reset input leaves every register reading 0, every engine idle and every buffer byte
unspecified, with fresh draws (R442): the free value of a new epoch, whatever was written before. The state a run starts from is
such a state. How an unwritten byte reads is the model's own (log 5), and so is reset as one turn of the schedule (log 9). -/
def Obligations.ResetLeavesTheCleanEntryState : Prop :=
  let clean (t : State) : Prop :=
    (∀ a : Addr, a.toNat < 0x400 ∨ 0x700 ≤ a.toNat → t.readAt a = 0) ∧
    (∀ e, (t.engine e).fsm = .idle ∧ (t.engine e).status = ⟨false, false, false, .none⟩) ∧
    (∀ e off, off < 256 → t.readAt (bufAddr e off) = Config.msgbufDraw t.epoch (Config.mbase e + off))
  clean State.reset ∧
  ∀ s : State, ∃ t, agentTurn .reset s = .next t ∧ clean t ∧ t.epoch = s.epoch + 1

/-! ### The bus -/

/-- R33: a write to CMD is the acceptance of that byte in the same step, CMD reads 0 whatever was written, and reading it has
no effect. -/
def Obligations.CmdIsWriteOnly : Prop :=
  (∀ (s : State) (v : Byte), busWrite s 0x000 v = cmdWrite v s) ∧
  (∀ s : State, busRead s 0x000 = (0, s)) ∧
  (∀ (s t : State) (v : Byte), busWrite s 0x000 v = .next t → t.readAt 0x000 = 0)

/-- R34, R413: GSTAT's bits; a write clears the bits written as 1 and changes nothing else; ILLEGAL and BUSYREJ are set by
their events, and from then on only a write of 1 to the bit, or reset, brings the bit back to 0. -/
def Obligations.GstatBitsAreStickyUntilWrittenOne : Prop :=
  (∀ s : State,
    let g := s.readAt 0x001
    g.getLsbD 0 = s.illegal ∧ g.getLsbD 1 = s.busyrej ∧ g.getLsbD 2 = false ∧ g.getLsbD 3 = false ∧
    g.getLsbD 4 = s.aes.status.busy ∧ g.getLsbD 5 = s.des.status.busy ∧ g.getLsbD 6 = s.present.status.busy ∧
    g.getLsbD 7 = false) ∧
  (∀ (s : State) (v : Byte), busWrite s 0x001 v =
    .next { s with illegal := s.illegal && !v.getLsbD 0, busyrej := s.busyrej && !v.getLsbD 1 }) ∧
  (∀ (s : State) (v : Byte) (r : Illegal), decode v = .error r →
    ∃ t, busWrite s 0x000 v = .next t ∧ t.illegal = true) ∧
  (∀ (s : State) (e : EngineId) (m : Mode) (d : Dir), (s.engine e).status.busy = true →
    ∃ t, busWrite s 0x000 (encodeFields (.cipher e m d)) = .next t ∧ t.busyrej = true) ∧
  (∀ (s t : State) (g : Agent), agentTurn g s = .next t → s.illegal = true → t.illegal = false →
    g = .reset ∨ (g = .host ∧ ∃ v lines, s.host = .wr8 0x001 v :: lines ∧ (hostValue s.vars v).getLsbD 0 = true)) ∧
  (∀ (s t : State) (g : Agent), agentTurn g s = .next t → s.busyrej = true → t.busyrej = false →
    g = .reset ∨ (g = .host ∧ ∃ v lines, s.host = .wr8 0x001 v :: lines ∧ (hostValue s.vars v).getLsbD 1 = true)) ∧
  (∀ s : State, ∃ t, agentTurn .reset s = .next t ∧ t.illegal = false ∧ t.busyrej = false) ∧
  State.reset.readAt 0x001 = 0

/-- R35 and R60: the bits of STATUS. In every state of the invariant at most one of BUSY, DONE and ERR is 1, ERRCODE is 0
exactly when ERR is 0, and BUSY is 1 exactly when the FSM is not idle. -/
def Obligations.StatusBitsAreExclusive : Prop :=
  ∀ (s : State) (e : EngineId), Machine.Inv s →
    let st := s.readAt (regAddr e 0x00)
    st.getLsbD 0 = (s.engine e).status.busy ∧ st.getLsbD 1 = (s.engine e).status.done ∧
    st.getLsbD 2 = (s.engine e).status.err ∧ st.getLsbD 3 = false ∧
    (st &&& 0x07 = 0 ∨ st &&& 0x07 = 1 ∨ st &&& 0x07 = 2 ∨ st &&& 0x07 = 4) ∧
    (st.getLsbD 2 = false → st.extractLsb' 4 4 = 0) ∧
    (st.getLsbD 2 = true → st.extractLsb' 4 4 = 1 ∨ st.extractLsb' 4 4 = 2) ∧
    (st.getLsbD 0 = true ↔ (s.engine e).fsm ≠ .idle)

/-- R49: an address outside the register map reads 0 and ignores writes, a read-only register ignores writes, a write to GSTAT
leaves its read-only bits, reserved bits read 0, and none of these accesses sets an error flag (nothing changes at all). -/
def Obligations.ReservedAndReadOnlyAccessesDoNothing : Prop :=
  (∀ (s : State) (a : Addr), ¬ listedAddr a.toNat → busRead s a = (0, s) ∧ ∀ v, busWrite s a v = .next s) ∧
  (∀ (s : State) (a : Addr), readOnlyAddr a.toNat → ∀ v, busWrite s a v = .next s) ∧
  (∀ (s : State) (v : Byte), ∃ t, busWrite s 0x001 v = .next t ∧
    t.readAt 0x001 &&& 0xFC = s.readAt 0x001 &&& 0xFC ∧ t.illegal = (s.illegal && !v.getLsbD 0) ∧
    t.busyrej = (s.busyrej && !v.getLsbD 1)) ∧
  (∀ s : State, s.readAt 0x001 &&& 0x8C = 0) ∧
  (∀ (s : State) (e : EngineId), s.readAt (regAddr e 0x00) &&& 0x08 = 0)

/-- A write to a read/write register (KEYLEN, MSGLEN, KEY, DIN, UA, UB) always completes, busy engine or not, and only stores
the byte: it reads back, every other address of the map reads as before, and no status, result, buffer or hidden state changes
(R36, R37, R39, R40, R43, R90, R451). -/
def Obligations.WritableRegistersOnlyStoreTheByte : Prop :=
  ∀ (s : State) (a : Addr) (v : Byte), writableAddr a.toNat →
    ∃ t, busWrite s a v = .next t ∧ t.readAt a = v ∧ (∀ b, b ≠ a → t.readAt b = s.readAt b) ∧
      t.illegal = s.illegal ∧ t.busyrej = s.busyrej ∧ t.ur = s.ur ∧ t.epoch = s.epoch ∧ t.draws = s.draws ∧
      t.host = s.host ∧ t.sched = s.sched ∧ t.vars = s.vars ∧ t.rdata = s.rdata ∧
      ∀ e, (t.engine e).status = (s.engine e).status ∧ (t.engine e).outlen = (s.engine e).outlen ∧
        (t.engine e).dout = (s.engine e).dout ∧ (t.engine e).msgbuf = (s.engine e).msgbuf ∧
        (t.engine e).fsm = (s.engine e).fsm ∧ (t.engine e).lat = (s.engine e).lat ∧
        (t.engine e).work = (s.engine e).work ∧ (t.engine e).j = (s.engine e).j ∧ (t.engine e).nblk = (s.engine e).nblk

/-- R452: while a message op runs on E, a host read of a byte of E's buffer returns a free value, and a host write is ignored;
that each such read takes a fresh free value, by a counter, is the model's own (log 6). Otherwise (E idle, or running a block op) the buffer is plain memory: a read returns the byte and has no
effect, and a write changes that byte only. The other engines do not matter. -/
def Obligations.MessageBufferWindow : Prop :=
  ∀ (s : State) (e : EngineId) (off : Nat), off < 256 →
    ((s.engine e).status.busy = true ∧ modeField (s.engine e).lat.op = .msg →
      busRead s (bufAddr e off) = (Config.busyDraw s.draws, { s with draws := s.draws + 1 }) ∧
      ∀ v, busWrite s (bufAddr e off) v = .next s) ∧
    ((s.engine e).status.busy = false ∨ modeField (s.engine e).lat.op = .blk →
      (busRead s (bufAddr e off)).2 = s ∧
      ∀ v, ∃ buf, busWrite s (bufAddr e off) v = .next (s.setEngine e { s.engine e with msgbuf := buf }) ∧
        (s.setEngine e { s.engine e with msgbuf := buf }).readAt (bufAddr e off) = v ∧
        ∀ b, b ≠ bufAddr e off → (s.setEngine e { s.engine e with msgbuf := buf }).readAt b = s.readAt b)

/-- R90: no read has a side effect, and a second read returns the same byte, except for a buffer byte during a message op on its
engine, which may read differently. -/
def Obligations.ReadsAreIdempotent : Prop :=
  ∀ (s : State) (a : Addr),
    sameCore s (busRead s a).2 ∧
    ((∀ e, a.toNat / 256 = Config.mbase e / 256 →
        ¬ ((s.engine e).status.busy = true ∧ modeField (s.engine e).lat.op = .msg)) →
      (busRead s a).2 = s ∧ (busRead (busRead s a).2 a).1 = (busRead s a).1)

/-- R88: MSGLEN and OUTLEN are big-endian, bits 15:8 at the lower address, and each access moves one byte of one register. -/
def Obligations.SixteenBitRegistersAreBigEndian : Prop :=
  ∀ (s : State) (e : EngineId),
    s.readAt (regAddr e 0x02) ++ s.readAt (regAddr e 0x03) = (s.engine e).msglen ∧
    s.readAt (regAddr e 0x04) ++ s.readAt (regAddr e 0x05) = (s.engine e).outlen ∧
    (∀ hi, busWrite s (regAddr e 0x02) hi =
      .next (s.setEngine e { s.engine e with msglen := hi ++ (s.engine e).msglen.extractLsb' 0 8 })) ∧
    (∀ lo, busWrite s (regAddr e 0x03) lo =
      .next (s.setEngine e { s.engine e with msglen := (s.engine e).msglen.extractLsb' 8 8 ++ lo }))

/-- R86: reading bytes as bits, byte k gives elements 8k to 8k+7, most significant bit first; on the data path's fixed-width
sequences and on the utility's lists alike. -/
def Obligations.BytesReadMostSignificantBitFirst : Prop :=
  (∀ (n : Nat) (b : Vector Byte n) (k m : Nat) (hk : k < n), m ≤ 7 →
    (bytesToBits b).getMsbD (8 * k + m) = (b[k]).getLsbD (7 - m)) ∧
  (∀ (b : List Byte) (k m : Nat) (hk : k < b.length), m ≤ 7 →
    (bytesToBitList b)[8 * k + m]? = some ((b[k]).getLsbD (7 - m)))

/-! ### UTIL commands -/

/-- R370: a UTIL command writes UR in the same step, with its function's value of UA and UB, and changes nothing else. It
completes in every state: never refused, never disturbed by an engine. A read of UR returns the result, and goes on to return it
until another UTIL command or reset. -/
def Obligations.UtilCommandsWriteOnlyUr : Prop :=
  let result (f : UtilFn) (ua ub : Byte) : Byte :=
    match f with
    | .gfMul => gfmul ua ub
    | .aesSbox => sbox ua
    | .aesInvSbox => invSbox ua
    | .presentSbox => 0#4 ++ psbox (ua.extractLsb' 0 4)
    | .presentInvSbox => 0#4 ++ psboxInv (ua.extractLsb' 0 4)
    | .desSbox => 0#4 ++
      (((desBox (ub.toNat % 8 + 1)).getD (2 * (ua.toNat / 32 % 2) + ua.toNat % 2) []).getD (ua.toNat / 2 % 16) 0)
  (∀ (f : UtilFn) (s : State),
    exec (instrOf (.util f)) s = .next { s with ur := result f s.ua s.ub } ∧
    busWrite s 0x000 (encodeFields (.util f)) = .next { s with ur := result f s.ua s.ub } ∧
    ({ s with ur := result f s.ua s.ub } : State).readAt 0x802 = result f s.ua s.ub) ∧
  (∀ (s t : State) (g : Agent), agentTurn g s = .next t → t.readAt 0x802 ≠ s.readAt 0x802 →
    g = .reset ∨ (g = .host ∧ ∃ v f lines, s.host = .wr8 0x000 v :: lines ∧ hostValue s.vars v = encodeFields (.util f)))

/-- R371, R204: GF_MUL leaves in UR the product of UA and UB, computed by the eight iterations of R204 written out here, and
changes nothing else; with R371's corner cases and examples. -/
def Obligations.GfMulCommandMultiplies : Prop :=
  (∀ s : State, exec .gfMul s = .next { s with ur := gfmul s.ua s.ub }) ∧
  (∀ a b : Byte, gfmul a b =
    ((List.range 8).foldl
      (fun (x : Byte × Byte × Byte) _ =>
        (if x.2.2.getLsbD 0 then x.1 ^^^ x.2.1 else x.1,
          if x.2.1.getLsbD 7 then (x.2.1 <<< 1) ^^^ 0x1B else x.2.1 <<< 1, x.2.2 >>> 1))
      (0, a, b)).1) ∧
  gfmul 0x80 0x02 = 0x1b ∧ gfmul 0x57 0x83 = 0xc1 ∧ gfmul 0x57 0x13 = 0xfe ∧ gfmul 0xff 0xff = 0x13

/-- R205: multiplying by 1 gives the operand, by 0 gives 0, and 02 times 87 is 15, as the command leaves them in UR. -/
def Obligations.GfMulSourceProperties : Prop :=
  (∀ s : State, s.ub = 1 → exec .gfMul s = .next { s with ur := s.ua }) ∧
  (∀ s : State, s.ub = 0 → exec .gfMul s = .next { s with ur := 0 }) ∧
  (∀ s : State, s.ua = 0x02 → s.ub = 0x87 → exec .gfMul s = .next { s with ur := 0x15 })

/-- R204: gfmul is the multiplication of a field whose addition is XOR: commutative, associative, distributive, and every
nonzero byte has an inverse. -/
def Obligations.GfmulIsFieldMultiplication : Prop :=
  (∀ a b : Byte, gfmul a b = gfmul b a) ∧
  (∀ a b c : Byte, gfmul (gfmul a b) c = gfmul a (gfmul b c)) ∧
  (∀ a b c : Byte, gfmul a (b ^^^ c) = gfmul a b ^^^ gfmul a c) ∧
  (∀ a : Byte, a ≠ 0 → ∃ b, gfmul a b = 1)

/-- R372, R373, R202: AES_SBOX and AES_INV_SBOX leave SBOX[UA] and INV_SBOX[UA] in UR and change nothing else; the inverse
lookup of the S-box's value gives the byte back; SBOX is the affine image of the inverse in GF(2^8). -/
def Obligations.AesSboxCommandsLookUp : Prop :=
  (∀ s : State, exec .aesSbox s = .next { s with ur := sbox s.ua }) ∧
  (∀ s : State, exec .aesInvSbox s = .next { s with ur := invSbox s.ua }) ∧
  (∀ x : Byte, invSbox (sbox x) = x ∧ sbox (invSbox x) = x) ∧
  (∀ x b : Byte, (x = 0 ∧ b = 0) ∨ gfmul x b = 1 →
    sbox x = b ^^^ b.rotateLeft 1 ^^^ b.rotateLeft 2 ^^^ b.rotateLeft 3 ^^^ b.rotateLeft 4 ^^^ 0x63) ∧
  sbox 0x00 = 0x63 ∧ sbox 0x53 = 0xed ∧ sbox 0xff = 0x16

/-- R374, R375, R322: PRESENT_SBOX and PRESENT_INV_SBOX put the box of UA's low nibble in UR with a zero high nibble, read nothing
else and change nothing else; the tables are inverse to each other; the rules' examples. -/
def Obligations.PresentSboxCommandsLookUp : Prop :=
  (∀ s : State, exec .presentSbox s = .next { s with ur := 0#4 ++ psbox (s.ua.extractLsb' 0 4) }) ∧
  (∀ s : State, exec .presentInvSbox s = .next { s with ur := 0#4 ++ psboxInv (s.ua.extractLsb' 0 4) }) ∧
  (∀ x : BitVec 4, psboxInv (psbox x) = x ∧ psbox (psboxInv x) = x) ∧
  (∀ s : State, s.ua = 0x00 → exec .presentSbox s = .next { s with ur := 0x0c }) ∧
  (∀ s : State, s.ua = 0x0f → exec .presentSbox s = .next { s with ur := 0x02 }) ∧
  (∀ s : State, s.ua = 0xf1 → exec .presentSbox s = .next { s with ur := 0x05 }) ∧
  (∀ s : State, s.ua = 0x0c → exec .presentInvSbox s = .next { s with ur := 0x00 }) ∧
  (∀ s : State, s.ua = 0x00 → exec .presentInvSbox s = .next { s with ur := 0x05 }) ∧
  (∀ s : State, s.ua = 0x02 → exec .presentInvSbox s = .next { s with ur := 0x0f })

/-- R376, R286, R268: DES_SBOX leaves in UR the entry of box UB[2:0]+1 at row 2*UA[5]+UA[0] and column UA[4:1], with a zero
high nibble, and changes nothing else; each row of each box is a permutation; R376's examples. -/
def Obligations.DesSboxCommandLooksUp : Prop :=
  (∀ s : State, exec .desSbox s =
    .next { s with ur := 0#4 ++
      (((desBox (s.ub.toNat % 8 + 1)).getD (2 * (s.ua.toNat / 32 % 2) + s.ua.toNat % 2) []).getD
        (s.ua.toNat / 2 % 16) 0) }) ∧
  (∀ j, j < 8 → ∀ row, row < 4 → ∀ y : BitVec 4, ∃ col, col < 16 ∧ ((desBox (j + 1)).getD row []).getD col 0 = y) ∧
  (∀ s : State, s.ub = 0x00 → s.ua = 0x00 → exec .desSbox s = .next { s with ur := 0x0e }) ∧
  (∀ s : State, s.ub = 0x00 → s.ua = 0x1b → exec .desSbox s = .next { s with ur := 0x05 }) ∧
  (∀ s : State, s.ub = 0x07 → s.ua = 0x3f → exec .desSbox s = .next { s with ur := 0x0b }) ∧
  (∀ s : State, s.ub = 0x04 → s.ua = 0x20 → exec .desSbox s = .next { s with ur := 0x04 })

/-! ### Accepting a cipher command -/

/-- R160, R420: the outcome of a byte written to CMD, by the first check that applies: illegal byte, UTIL function, busy
engine, key error, length error; and only then the accept, which latches the byte. -/
def Obligations.AcceptanceTakesTheFirstFailingCheck : Prop :=
  ∀ (s : State) (v : Byte),
    (∀ r, decodeFields v = .error r → busWrite s 0x000 v = .next { s with illegal := true }) ∧
    (∀ f, decodeFields v = .ok (.util f) → busWrite s 0x000 v = exec (instrOf (.util f)) s) ∧
    (∀ e m d, decodeFields v = .ok (.cipher e m d) →
      let x := s.engine e
      let keyErr := keyCheck e x.keylen
      let lenErr := if m = .msg then lenCheck e d x.msglen.toNat else .none
      let failed (c : ErrCode) := s.setEngine e { x with status := { x.status with err := true, errcode := c, done := false } }
      (x.status.busy = true → busWrite s 0x000 v = .next { s with busyrej := true }) ∧
      (x.status.busy = false → keyErr ≠ .none → busWrite s 0x000 v = .next (failed keyErr)) ∧
      (x.status.busy = false → keyErr = .none → lenErr ≠ .none → busWrite s 0x000 v = .next (failed lenErr)) ∧
      (x.status.busy = false → keyErr = .none → lenErr = .none →
        busWrite s 0x000 v = .next (s.setEngine e (startOn (latchOn v x)))))

/-- R161: each of the twelve cipher commands on its busy engine sets BUSYREJ and changes nothing else; a command on another
engine, or a UTIL command, has the same effect whatever the busy engine holds. -/
def Obligations.BusyEngineRefusesItsCommands : Prop :=
  (∀ (s : State) (e : EngineId) (m : Mode) (d : Dir), (s.engine e).status.busy = true →
    exec (instrOf (.cipher e m d)) s = .next { s with busyrej := true }) ∧
  (∀ (s : State) (e e' : EngineId) (m : Mode) (d : Dir) (x : EngineOf e), e' ≠ e →
    ∃ t, exec (instrOf (.cipher e' m d)) s = .next t ∧
      exec (instrOf (.cipher e' m d)) (s.setEngine e x) = .next (t.setEngine e x)) ∧
  (∀ (s : State) (e : EngineId) (f : UtilFn) (x : EngineOf e),
    ∃ t, exec (instrOf (.util f)) s = .next t ∧ exec (instrOf (.util f)) (s.setEngine e x) = .next (t.setEngine e x))

/-- R162, R164: an accepted cipher command (each of the twelve, where R160's checks pass) completes its host step with its
inputs latched, BUSY set, DONE, ERR and ERRCODE cleared, the key schedule started and everything else as it was. From then on
no engine step reads KEY, KEYLEN, DIN or MSGLEN: writing them commutes with it. -/
def Obligations.AcceptLatchesTheInputsAndStarts : Prop :=
  (∀ (s : State) (e : EngineId) (m : Mode) (d : Dir), acceptable e m d s →
    let x := s.engine e
    exec (instrOf (.cipher e m d)) s = .next (s.setEngine e
      { x with
        status := ⟨true, false, false, .none⟩, fsm := .ks 1,
        lat := { op := encodeFields (.cipher e m d), key := normKey e x.key x.keylen, din := x.din, mlen := x.msglen },
        work := ksInit e (normKey e x.key x.keylen) x.work })) ∧
  (∀ (e : EngineId) (epoch : Nat) (x y : EngineOf e) (r : EngReg) (v : Byte), r.isInput = true →
    engineStep epoch x = .ok y → engineStep epoch (regWrite v x r) = .ok (regWrite v y r))

/-- R410: a command error writes ERR, ERRCODE and DONE of its engine's STATUS and nothing else: code 1 for each AES command with
KEYLEN ≠ 16 (whatever MSGLEN is), code 2 for each message op whose length is above 256 or, decrypting, no whole number of
blocks. -/
def Obligations.CommandErrorChangesOnlyStatus : Prop :=
  (∀ (s : State) (m : Mode) (d : Dir), s.aes.status.busy = false → s.aes.keylen ≠ 16 →
    exec (instrOf (.cipher .aes m d)) s =
      .next { s with aes := { s.aes with status := ⟨false, false, true, .invalidKeyLength⟩ } }) ∧
  (∀ (s : State) (e : EngineId) (d : Dir), (s.engine e).status.busy = false → (e = .aes → (s.engine e).keylen = 16) →
    (256 < (s.engine e).msglen.toNat ∨ (d = .dec ∧ (s.engine e).msglen.toNat % Config.blkBytes e ≠ 0)) →
    exec (instrOf (.cipher e .msg d)) s =
      .next (s.setEngine e { s.engine e with status := ⟨false, false, true, .badMsgLength⟩ }))

/-- R165, R166, R167: the key check and the key normalisation of each engine. -/
def Obligations.KeysAreNormalised : Prop :=
  (∀ n : Byte, (n ≠ 16 → keyCheck .aes n = .invalidKeyLength) ∧ (n = 16 → keyCheck .aes n = .none) ∧
    keyCheck .des n = .none ∧ keyCheck .present n = .none) ∧
  (∀ key : Vector Byte 16, normKey .aes key 16 = key) ∧
  (∀ (k : List Byte) (i m : Nat), i < 8 → m ≤ 7 →
    (keyBitsDes k).getMsbD (8 * i + m) = (if h : i < k.length then (k[i]).getLsbD (7 - m) else false)) ∧
  (∀ (key : Vector Byte 8) (n : Byte), normKey .des key n = keyBitsDes (key.toList.take (min n.toNat 8))) ∧
  (∀ (k : List Byte) (i : Nat), i < 10 →
    (keyIntPresent k).extractLsb' (72 - 8 * i) 8 = (if h : i < k.length then k[i] else 0)) ∧
  (∀ (key : Vector Byte 10) (n : Byte), normKey .present key n = keyIntPresent (key.toList.take (min n.toNat 10)))

/-- R168, R163: the length check of a message op, which block ops do not make; the padded length is the message rounded up to
whole blocks when encrypting and the length itself when decrypting; a block op has one block, a message op padded length / B, and
the empty message none. -/
def Obligations.MessageLengthsAreCheckedAndPadded : Prop :=
  (∀ (e : EngineId) (d : Dir) (m : Nat),
    (256 < m ∨ (d = .dec ∧ m % Config.blkBytes e ≠ 0) → lenCheck e d m = .badMsgLength) ∧
    (m ≤ 256 → (d = .dec → m % Config.blkBytes e = 0) → lenCheck e d m = .none)) ∧
  (∀ (e : EngineId) (d : Dir) (x : EngineOf e), acceptCheck e .blk d x = keyCheck e x.keylen) ∧
  (∀ (e : EngineId) (m : Nat), paddedLen e .dec m = m) ∧
  (∀ (e : EngineId) (m : Nat), Config.blkBytes e ∣ paddedLen e .enc m ∧ m ≤ paddedLen e .enc m ∧
    paddedLen e .enc m < m + Config.blkBytes e) ∧
  (∀ (e : EngineId) (epoch : Nat) (x : EngineOf e), x.fsm = .ks (Config.nks e) → modeField x.lat.op = .blk →
    ∃ y, engineStep epoch x = .ok y ∧ y.fsm = .load ∧ y.nblk = 1 ∧ y.j = 0) ∧
  (∀ (e : EngineId) (epoch : Nat) (x : EngineOf e), x.fsm = .msginit →
    lenCheck e (dirField x.lat.op) x.lat.mlen.toNat = .none → paddedLen e (dirField x.lat.op) x.lat.mlen.toNat ≠ 0 →
    ∃ y, engineStep epoch x = .ok y ∧
      y.nblk.toNat = paddedLen e (dirField x.lat.op) x.lat.mlen.toNat / Config.blkBytes e) ∧
  (∀ (e : EngineId) (d : Dir), paddedLen e d 0 = 0 ∧ paddedLen e d 0 / Config.blkBytes e = 0)

/-! ### The round FSM -/

/-- R170, R173: the transitions of an engine's FSM that lead to another state than MSGINIT's and STORE's, which have statements
of their own: the key-schedule steps in order, then MSGINIT or LOAD; LOAD with the latched block or the buffer's; the rounds in
the order of `rnd_E(dir)`, then STORE. An idle engine takes no step. -/
def Obligations.EngineStepFollowsTheTransitions : Prop :=
  ∀ (e : EngineId) (epoch : Nat) (x : EngineOf e),
    let mode := modeField x.lat.op
    let dir := dirField x.lat.op
    (x.fsm = .idle → engineStep epoch x = .ok x) ∧
    (∀ i, x.fsm = .ks i → 1 ≤ i → i < Config.nks e →
      engineStep epoch x = .ok { x with work := ksStep e i x.work, fsm := .ks (i + 1) }) ∧
    (∀ i, x.fsm = .ks i → i = Config.nks e → mode = .msg →
      engineStep epoch x = .ok { x with work := ksStep e i x.work, fsm := .msginit }) ∧
    (∀ i, x.fsm = .ks i → i = Config.nks e → mode = .blk →
      engineStep epoch x = .ok { x with work := ksStep e i x.work, j := 0, nblk := 1, fsm := .load }) ∧
    (∀ first rest, x.fsm = .load → mode = .blk → rounds e dir = first :: rest →
      engineStep epoch x = .ok { x with work := loadAction e dir x.lat.din x.work, fsm := .rnd first }) ∧
    (∀ first rest, x.fsm = .load → mode = .msg → rounds e dir = first :: rest →
      x.j.toNat * Config.blkBytes e + Config.blkBytes e ≤ 256 →
      engineStep epoch x = .ok
        { x with
          work := loadAction e dir
            (Vector.ofFn fun k : Fin (Config.blkBytes e) =>
              bufRead e epoch x.msgbuf (x.j.toNat * Config.blkBytes e + k.val)) x.work,
          fsm := .rnd first }) ∧
    (∀ before i next after, x.fsm = .rnd i → rounds e dir = before ++ i :: next :: after →
      engineStep epoch x = .ok { x with work := roundAction e dir i x.work, fsm := .rnd next }) ∧
    (∀ before last, x.fsm = .rnd last → rounds e dir = before ++ [last] →
      engineStep epoch x = .ok { x with work := roundAction e dir last x.work, fsm := .store })

/-- R172: MSGINIT writes 0x00 at offsets m to p-1 when encrypting and nothing when decrypting, every other byte of the buffer
reading as before; it sets nblk and j and goes on to LOAD, or completes with OUTLEN 0 when there is no block. No other register
changes. -/
def Obligations.MsginitWritesOnlyThePadding : Prop :=
  ∀ (e : EngineId) (epoch : Nat) (x : EngineOf e), x.fsm = .msginit →
    let m := x.lat.mlen.toNat
    let dir := dirField x.lat.op
    let p := paddedLen e dir m
    lenCheck e dir m = .none →
    ∃ y, engineStep epoch x = .ok y ∧
      (∀ off, bufRead e epoch y.msgbuf off =
        if dir = .enc ∧ m ≤ off ∧ off < p then 0x00 else bufRead e epoch x.msgbuf off) ∧
      y.keylen = x.keylen ∧ y.msglen = x.msglen ∧ y.key = x.key ∧ y.din = x.din ∧ y.dout = x.dout ∧
      (p = 0 → y.fsm = .idle ∧ y.outlen = 0 ∧ y.status = { x.status with busy := false, done := true }) ∧
      (p ≠ 0 → y.fsm = .load ∧ y.j = 0 ∧ y.nblk.toNat * Config.blkBytes e = p ∧ y.outlen = x.outlen ∧
        y.status = x.status ∧ y.lat = x.lat ∧ y.work = x.work)

/-- R175, R176: STORE of a block op writes DOUT and completes, the buffer unchanged. STORE of a message op writes block j in
place, at offsets j*B to j*B+B-1, every other byte of the buffer reading as before, and goes on with block j+1 or completes with
OUTLEN nblk*B. Completion sets OUTLEN, clears BUSY, sets DONE and makes the FSM idle in that same step; KEY, KEYLEN, DIN and
MSGLEN never change. -/
def Obligations.StoreWritesTheBlockInPlace : Prop :=
  ∀ (e : EngineId) (epoch : Nat) (x : EngineOf e), x.fsm = .store →
    let ob := storeAction e x.work
    let B := Config.blkBytes e
    let inputsKept (y : EngineOf e) : Prop :=
      y.keylen = x.keylen ∧ y.msglen = x.msglen ∧ y.key = x.key ∧ y.din = x.din
    let completed (y : EngineOf e) (n : Nat) : Prop :=
      y.outlen = BitVec.ofNat 16 n ∧ y.status = { x.status with busy := false, done := true } ∧ y.fsm = .idle
    (modeField x.lat.op = .blk → ∃ y, engineStep epoch x = .ok y ∧
      y.dout = ob ∧ y.msgbuf = x.msgbuf ∧ inputsKept y ∧ completed y B) ∧
    (modeField x.lat.op = .msg → x.j.toNat * B + B ≤ 256 → ∃ y, engineStep epoch x = .ok y ∧
      (∀ k (hk : k < B), bufRead e epoch y.msgbuf (x.j.toNat * B + k) = ob[k]) ∧
      (∀ off, off < x.j.toNat * B ∨ x.j.toNat * B + B ≤ off →
        bufRead e epoch y.msgbuf off = bufRead e epoch x.msgbuf off) ∧
      y.dout = x.dout ∧ inputsKept y ∧
      (x.j.toNat + 1 < x.nblk.toNat → y.j = x.j + 1 ∧ y.fsm = .load ∧ y.nblk = x.nblk ∧ y.lat = x.lat ∧
        y.work = x.work ∧ y.status = x.status ∧ y.outlen = x.outlen) ∧
      (x.nblk.toNat ≤ x.j.toNat + 1 → completed y (x.nblk.toNat * B)))

/-- The frame of every engine step (R85, R95, R177): whatever step a running engine takes, KEY, KEYLEN, DIN and MSGLEN stay; a
step that does not complete the command leaves STATUS, OUTLEN, DOUT and the latch; a block op never changes the buffer, a message
op never DOUT, nor a buffer byte at or above the padded length. -/
def Obligations.EngineStepFrame : Prop :=
  ∀ (e : EngineId) (epoch : Nat) (x y : EngineOf e), EngineInv x → engineStep epoch x = .ok y →
    y.keylen = x.keylen ∧ y.msglen = x.msglen ∧ y.key = x.key ∧ y.din = x.din ∧
    (y.fsm ≠ .idle → y.status = x.status ∧ y.outlen = x.outlen ∧ y.dout = x.dout ∧ y.lat = x.lat) ∧
    (modeField x.lat.op = .blk → y.msgbuf = x.msgbuf) ∧
    (modeField x.lat.op = .msg → y.dout = x.dout ∧
      ∀ off, paddedLen e (dirField x.lat.op) x.lat.mlen.toNat ≤ off →
        bufRead e epoch y.msgbuf off = bufRead e epoch x.msgbuf off)

/-! ### Commands from accept to completion -/

/-- R240, R241, R178: AES_ENC_BLK and AES_DEC_BLK on an idle engine with KEYLEN 16 complete in 22 engine steps, with DOUT the
block function of DIN under KEY as they stood at accept, OUTLEN 16, STATUS DONE and every other register and buffer as it was
(the hidden registers, free from then on by R61, are left out). -/
def Obligations.AesBlockCommandsComplete : Prop :=
  ∀ s : State, s.aes.status.busy = false → s.aes.keylen = 16 →
    let done (out : Vector Byte 16) (u : State) : State :=
      { s with aes :=
        { s.aes with
          dout := out, outlen := 16, status := ⟨false, true, false, .none⟩, fsm := .idle,
          lat := u.aes.lat, work := u.aes.work, j := u.aes.j, nblk := u.aes.nblk, runs := u.aes.runs } }
    (∃ t u, exec .aesEncBlk s = .next t ∧ steps 22 (scheduleEngine .aes 22 t) = .next u ∧
      u = done (blockEncAes s.aes.din s.aes.key) u) ∧
    (∃ t u, exec .aesDecBlk s = .next t ∧ steps 22 (scheduleEngine .aes 22 t) = .next u ∧
      u = done (blockDecAes s.aes.din s.aes.key) u)

/-- R300, R301, R178: DES_ENC_BLK and DES_DEC_BLK on an idle engine, whatever KEYLEN is, complete in 34 engine steps, with DOUT
the block function of DIN under the normalised key, OUTLEN 8, STATUS DONE and every other register and buffer as it was (the
hidden registers, free from then on by R61, are left out). -/
def Obligations.DesBlockCommandsComplete : Prop :=
  ∀ s : State, s.des.status.busy = false →
    let key := keyBitsDes (s.des.key.toList.take s.des.keylen.toNat)
    let done (out : Vector Byte 8) (u : State) : State :=
      { s with des :=
        { s.des with
          dout := out, outlen := 8, status := ⟨false, true, false, .none⟩, fsm := .idle,
          lat := u.des.lat, work := u.des.work, j := u.des.j, nblk := u.des.nblk, runs := u.des.runs } }
    (∃ t u, exec .desEncBlk s = .next t ∧ steps 34 (scheduleEngine .des 34 t) = .next u ∧
      u = done (blockEncDes s.des.din key) u) ∧
    (∃ t u, exec .desDecBlk s = .next t ∧ steps 34 (scheduleEngine .des 34 t) = .next u ∧
      u = done (blockDecDes s.des.din key) u)

/-- R350, R351, R178: PRESENT_ENC_BLK and PRESENT_DEC_BLK on an idle engine, whatever KEYLEN is, complete in 65 engine steps,
with DOUT the block function of DIN under the normalised key, OUTLEN 8, STATUS DONE and every other register and buffer as it
was (the hidden registers, free from then on by R61, are left out). -/
def Obligations.PresentBlockCommandsComplete : Prop :=
  ∀ s : State, s.present.status.busy = false →
    let key := keyIntPresent (s.present.key.toList.take s.present.keylen.toNat)
    let done (out : Vector Byte 8) (u : State) : State :=
      { s with present :=
        { s.present with
          dout := out, outlen := 8, status := ⟨false, true, false, .none⟩, fsm := .idle,
          lat := u.present.lat, work := u.present.work, j := u.present.j, nblk := u.present.nblk, runs := u.present.runs } }
    (∃ t u, exec .presentEncBlk s = .next t ∧ steps 65 (scheduleEngine .present 65 t) = .next u ∧
      u = done (blockEncPresent s.present.din key) u) ∧
    (∃ t u, exec .presentDecBlk s = .next t ∧ steps 65 (scheduleEngine .present 65 t) = .next u ∧
      u = done (blockDecPresent s.present.din key) u)

/-- R242, R243, R178, R181: AES_ENC_MSG and AES_DEC_MSG of a legal length complete in 11 + 12 * nblk engine steps. Read from the
bus, buffer bytes 0 to p-1 are then the message function of bytes 0 to m-1 before, every other address but STATUS and OUTLEN reads
as before, OUTLEN is p and STATUS is DONE. The other engines, the host's side and the free values' indexes are as before. -/
def Obligations.AesMessageCommandsComplete : Prop :=
  ∀ s : State, Machine.Inv s → s.aes.status.busy = false → s.aes.keylen = 16 → s.aes.msglen.toNat ≤ 256 →
    let m := s.aes.msglen.toNat
    let message := (List.range m).map fun k => s.readAt (bufAddr .aes k)
    let finished (u : State) (out : List Byte) : Prop :=
      (∀ k b, out[k]? = some b → u.readAt (bufAddr .aes k) = b) ∧
      (∀ a : Addr, a.toNat ∉ [0x100, 0x104, 0x105] → ¬ (0x400 ≤ a.toNat ∧ a.toNat < 0x400 + out.length) →
        u.readAt a = s.readAt a) ∧
      u.aes.outlen = BitVec.ofNat 16 out.length ∧ u.aes.status = ⟨false, true, false, .none⟩ ∧ u.aes.fsm = .idle ∧
      (∀ e, e ≠ .aes → u.engine e = s.engine e) ∧
      u.host = s.host ∧ u.vars = s.vars ∧ u.rdata = s.rdata ∧ u.sched = s.sched ∧ u.epoch = s.epoch ∧ u.draws = s.draws
    (∃ t u, exec .aesEncMsg s = .next t ∧
      steps (11 + 12 * ((m + 15) / 16)) (scheduleEngine .aes (11 + 12 * ((m + 15) / 16)) t) = .next u ∧
      (msgEnc .aes message s.aes.key).length = (m + 15) / 16 * 16 ∧ finished u (msgEnc .aes message s.aes.key)) ∧
    (m % 16 = 0 → ∃ t u, exec .aesDecMsg s = .next t ∧
      steps (11 + 12 * (m / 16)) (scheduleEngine .aes (11 + 12 * (m / 16)) t) = .next u ∧
      (msgDec .aes message s.aes.key).length = m ∧ finished u (msgDec .aes message s.aes.key))

/-- R302, R303, R178, R181: the same for DES_ENC_MSG and DES_DEC_MSG, in 17 + 18 * nblk engine steps, for every KEYLEN. -/
def Obligations.DesMessageCommandsComplete : Prop :=
  ∀ s : State, Machine.Inv s → s.des.status.busy = false → s.des.msglen.toNat ≤ 256 →
    let m := s.des.msglen.toNat
    let key := keyBitsDes (s.des.key.toList.take s.des.keylen.toNat)
    let message := (List.range m).map fun k => s.readAt (bufAddr .des k)
    let finished (u : State) (out : List Byte) : Prop :=
      (∀ k b, out[k]? = some b → u.readAt (bufAddr .des k) = b) ∧
      (∀ a : Addr, a.toNat ∉ [0x200, 0x204, 0x205] → ¬ (0x500 ≤ a.toNat ∧ a.toNat < 0x500 + out.length) →
        u.readAt a = s.readAt a) ∧
      u.des.outlen = BitVec.ofNat 16 out.length ∧ u.des.status = ⟨false, true, false, .none⟩ ∧ u.des.fsm = .idle ∧
      (∀ e, e ≠ .des → u.engine e = s.engine e) ∧
      u.host = s.host ∧ u.vars = s.vars ∧ u.rdata = s.rdata ∧ u.sched = s.sched ∧ u.epoch = s.epoch ∧ u.draws = s.draws
    (∃ t u, exec .desEncMsg s = .next t ∧
      steps (17 + 18 * ((m + 7) / 8)) (scheduleEngine .des (17 + 18 * ((m + 7) / 8)) t) = .next u ∧
      (msgEnc .des message key).length = (m + 7) / 8 * 8 ∧ finished u (msgEnc .des message key)) ∧
    (m % 8 = 0 → ∃ t u, exec .desDecMsg s = .next t ∧
      steps (17 + 18 * (m / 8)) (scheduleEngine .des (17 + 18 * (m / 8)) t) = .next u ∧
      (msgDec .des message key).length = m ∧ finished u (msgDec .des message key))

/-- R352, R353, R178, R181: the same for PRESENT_ENC_MSG and PRESENT_DEC_MSG, in 33 + 33 * nblk engine steps, for every
KEYLEN. -/
def Obligations.PresentMessageCommandsComplete : Prop :=
  ∀ s : State, Machine.Inv s → s.present.status.busy = false → s.present.msglen.toNat ≤ 256 →
    let m := s.present.msglen.toNat
    let key := keyIntPresent (s.present.key.toList.take s.present.keylen.toNat)
    let message := (List.range m).map fun k => s.readAt (bufAddr .present k)
    let finished (u : State) (out : List Byte) : Prop :=
      (∀ k b, out[k]? = some b → u.readAt (bufAddr .present k) = b) ∧
      (∀ a : Addr, a.toNat ∉ [0x300, 0x304, 0x305] → ¬ (0x600 ≤ a.toNat ∧ a.toNat < 0x600 + out.length) →
        u.readAt a = s.readAt a) ∧
      u.present.outlen = BitVec.ofNat 16 out.length ∧ u.present.status = ⟨false, true, false, .none⟩ ∧
      u.present.fsm = .idle ∧ (∀ e, e ≠ .present → u.engine e = s.engine e) ∧
      u.host = s.host ∧ u.vars = s.vars ∧ u.rdata = s.rdata ∧ u.sched = s.sched ∧ u.epoch = s.epoch ∧ u.draws = s.draws
    (∃ t u, exec .presentEncMsg s = .next t ∧
      steps (33 + 33 * ((m + 7) / 8)) (scheduleEngine .present (33 + 33 * ((m + 7) / 8)) t) = .next u ∧
      (msgEnc .present message key).length = (m + 7) / 8 * 8 ∧ finished u (msgEnc .present message key)) ∧
    (m % 8 = 0 → ∃ t u, exec .presentDecMsg s = .next t ∧
      steps (33 + 33 * (m / 8)) (scheduleEngine .present (33 + 33 * (m / 8)) t) = .next u ∧
      (msgDec .present message key).length = m ∧ finished u (msgDec .present message key))

/-- The frame of the twelve cipher commands at their CMD write, read from the bus (R160 to R164, R410): whatever the outcome
(accepted, refused as busy, refused with an error), it is a next state in which every address but GSTAT and the engine's own
STATUS reads as before, the twelve store no byte of memory, and no other engine, nor UA, UB, UR, changes. During an accepted
message op the engine's own buffer is left out of the reading, since R452 makes it a draw; its bytes are unchanged. -/
def Obligations.CipherCommandFrame : Prop :=
  ∀ (s : State) (e : EngineId) (m : Mode) (d : Dir),
    ∃ t, exec (instrOf (.cipher e m d)) s = .next t ∧
      (∀ a : Addr, a ≠ 0x001 → a ≠ regAddr e 0x00 → a.toNat / 256 ≠ Config.mbase e / 256 → t.readAt a = s.readAt a) ∧
      (t.engine e).msgbuf = (s.engine e).msgbuf ∧ t.epoch = s.epoch ∧
      (m = .blk → (s.engine e).status.busy = false → ∀ off, off < 256 → t.readAt (bufAddr e off) = s.readAt (bufAddr e off)) ∧
      (∀ e', e' ≠ e → t.engine e' = s.engine e') ∧
      ((s.engine e).status.busy = false → t.busyrej = s.busyrej) ∧
      t.illegal = s.illegal ∧ t.ua = s.ua ∧ t.ub = s.ub ∧ t.ur = s.ur ∧
      t.host = s.host ∧ t.vars = s.vars ∧ t.rdata = s.rdata

/-! ### Interleaving, completion and isolation -/

/-- R91, R96, R161, R180: a block op gives the same DOUT under every interleaving. Whatever the host and the other engines do
between its steps (writes to its KEY, KEYLEN, DIN, MSGLEN, MSGBUF or CMD among them), after the engine's N-th turn DOUT is the
block function of the inputs at accept, OUTLEN is B and STATUS is DONE, as long as no reset comes. -/
def Obligations.BlockResultUnderEveryInterleaving : Prop :=
  ∀ (s t : State) (e : EngineId) (d : Dir) (turns rest : List Agent), Machine.Inv s → acceptable e .blk d s →
    exec (instrOf (.cipher e .blk d)) s = .next t →
    Agent.reset ∉ turns → turns.count (.engine e) + 1 = blockOpSteps e →
    ∃ u, steps (turns.length + 1) { t with sched := turns ++ .engine e :: rest } = .next u ∧
      (u.engine e).dout = blockFn e d (s.engine e).din (normKey e (s.engine e).key (s.engine e).keylen) ∧
      (u.engine e).outlen = BitVec.ofNat 16 (Config.blkBytes e) ∧
      (u.engine e).status = ⟨false, true, false, .none⟩ ∧ (u.engine e).fsm = .idle ∧ u.sched = rest

/-- R91, R96, R161, R181, R452: a message op gives the same buffer under every interleaving: after the engine's N-th turn its
buffer holds the message function of the message at accept, every byte above the padded length is as it was, OUTLEN is the padded
length and STATUS is DONE, whatever the host and the other engines do in between, as long as no reset comes. -/
def Obligations.MessageResultUnderEveryInterleaving : Prop :=
  ∀ (s t : State) (e : EngineId) (d : Dir) (turns rest : List Agent), Machine.Inv s → acceptable e .msg d s →
    exec (instrOf (.cipher e .msg d)) s = .next t →
    let m := (s.engine e).msglen.toNat
    let p := paddedLen e d m
    Agent.reset ∉ turns → turns.count (.engine e) + 1 = msgOpSteps e (p / Config.blkBytes e) →
    ∃ u, steps (turns.length + 1) { t with sched := turns ++ .engine e :: rest } = .next u ∧
      bufBytes e u.epoch (u.engine e).msgbuf 0 p =
        msgFn e d (bufBytes e s.epoch (s.engine e).msgbuf 0 m) (normKey e (s.engine e).key (s.engine e).keylen) ∧
      (∀ off, p ≤ off → bufRead e u.epoch (u.engine e).msgbuf off = bufRead e s.epoch (s.engine e).msgbuf off) ∧
      (u.engine e).outlen = BitVec.ofNat 16 p ∧
      (u.engine e).status = ⟨false, true, false, .none⟩ ∧ (u.engine e).fsm = .idle ∧ u.sched = rest

/-- R171, R178, R461: from every state of the invariant, a running engine completes within a bound that depends on the engine
only: given enough turns it becomes idle with DONE, after no more than the steps of a message op of 256 bytes, and it is busy
until then. -/
def Obligations.RunningCommandCompletesWithinBound : Prop :=
  ∀ (s : State) (e : EngineId), Machine.Inv s → (s.engine e).fsm ≠ .idle →
    ∃ k, 1 ≤ k ∧ k ≤ msgOpSteps e (256 / Config.blkBytes e) ∧
      (∃ t, steps k (scheduleEngine e k s) = .next t ∧ (t.engine e).fsm = .idle ∧
        (t.engine e).status = ⟨false, true, false, .none⟩) ∧
      ∀ j, j < k → ∃ t, steps j (scheduleEngine e j s) = .next t ∧ (t.engine e).status.busy = true

/-- R95: an engine's step depends on its own state only and touches nothing outside its engine, so the steps of two engines
commute. -/
def Obligations.EngineTurnsAreIsolatedAndCommute : Prop :=
  (∀ (s s' t : State) (e : EngineId), s'.engine e = s.engine e → s'.epoch = s.epoch →
    agentTurn (.engine e) s = .next t →
    agentTurn (.engine e) s' = .next (s'.setEngine e (t.engine e)) ∧ t = s.setEngine e (t.engine e)) ∧
  (∀ (s t u : State) (e e' : EngineId), e ≠ e' → agentTurn (.engine e) s = .next t →
    agentTurn (.engine e') t = .next u →
    ∃ t', agentTurn (.engine e') s = .next t' ∧ agentTurn (.engine e) t' = .next u)

/-- R45, R46, R47, R412: STATUS of E changes in a step only if the step is an accept of a command on E (then BUSY alone is set),
a refusal with an error (then ERR and its code), the completion of E's command (BUSY to 0, DONE to 1) or reset. -/
def Obligations.OnlyTheseEventsWriteStatus : Prop :=
  ∀ (s t : State) (g : Agent) (e : EngineId), agentTurn g s = .next t → (t.engine e).status ≠ (s.engine e).status →
    let st := (s.engine e).status
    let st' := (t.engine e).status
    (g = .host ∧ ∃ v m d lines, s.host = .wr8 0x000 v :: lines ∧ hostValue s.vars v = encodeFields (.cipher e m d) ∧
      st.busy = false ∧
      (st' = ⟨true, false, false, .none⟩ ∨
        ∃ c, c ≠ .none ∧ st' = { st with err := true, errcode := c, done := false })) ∨
    (g = .engine e ∧ (s.engine e).fsm ≠ .idle ∧ (t.engine e).fsm = .idle ∧
      st' = { st with busy := false, done := true }) ∨
    (g = .reset ∧ st' = ⟨false, false, false, .none⟩)

/-- R38, R41, R43: DOUT changes only in the completing step of a block op on its engine, OUTLEN only in a completing step, UR only
in the host step of a UTIL command; or at reset. -/
def Obligations.ResultRegistersChangeOnlyAtCompletion : Prop :=
  ∀ (s t : State) (g : Agent), agentTurn g s = .next t → g ≠ .reset →
    (∀ e, (t.engine e).dout ≠ (s.engine e).dout →
      g = .engine e ∧ (s.engine e).fsm = .store ∧ modeField (s.engine e).lat.op = .blk ∧ (t.engine e).fsm = .idle) ∧
    (∀ e, (t.engine e).outlen ≠ (s.engine e).outlen →
      g = .engine e ∧ ((s.engine e).fsm = .store ∨ (s.engine e).fsm = .msginit) ∧ (t.engine e).fsm = .idle) ∧
    (t.ur ≠ s.ur → g = .host ∧
      ∃ v f lines, s.host = .wr8 0x000 v :: lines ∧ hostValue s.vars v = encodeFields (.util f))

/-- The invariant holds right after reset. -/
def Obligations.InvariantHoldsAtReset : Prop := Machine.Inv State.reset

/-- R437: from every state of the invariant, whoever's turn it is, the step answers a next state, never a fault or a refusal, and
that state has the invariant again: buffers canonical, STATUS flags exclusive and in agreement with the FSM, FSM states legal,
counters inside the buffer. -/
def Obligations.EveryStepAnswersNextAndKeepsTheInvariant : Prop :=
  ∀ s : State, Machine.Inv s → ∃ t, step s = .next t ∧ Machine.Inv t

/-! ### Keys and ciphers -/

/-- R221, R281, R331: after the key-schedule steps of an accepted command the engine's round keys are the pure key schedule of
the key it latched. -/
def Obligations.KeyScheduleStepsComputeTheSchedule : Prop :=
  (∀ (epoch : Nat) (x : EngineOf .aes) (v : Byte), ∃ y, engineSteps epoch 10 (acceptOn v x) = .ok y ∧
    y.work.rk = keyExpand (normKey .aes x.key x.keylen)) ∧
  (∀ (epoch : Nat) (x : EngineOf .des) (v : Byte), ∃ y, engineSteps epoch 16 (acceptOn v x) = .ok y ∧
    y.work.k = keySchedDes (normKey .des x.key x.keylen)) ∧
  (∀ (epoch : Nat) (x : EngineOf .present) (v : Byte), ∃ y, engineSteps epoch 32 (acceptOn v x) = .ok y ∧
    y.work.k = keySchedPresent (normKey .present x.key x.keylen))

/-- R237, R215: the AES block functions are inverse to each other for every block and key, and so are the round functions. -/
def Obligations.AesBlockFunctionsAreInverse : Prop :=
  (∀ s : Matrix, invSubBytes (subBytes s) = s ∧ invShiftRows (shiftRows s) = s ∧ invMixColumns (mixColumns s) = s) ∧
  (∀ s k : Matrix, addRoundKey (addRoundKey s k) k = s) ∧
  (∀ x k : Vector Byte 16, blockDecAes (blockEncAes x k) k = x ∧ blockEncAes (blockDecAes x k) k = x)

/-- R297, R265: the DES block functions are inverse to each other for every block and key, and FP undoes IP. -/
def Obligations.DesBlockFunctionsAreInverse : Prop :=
  (∀ b : BitVec 64, perm 64 (perm 64 b ipTable) fpTable = b) ∧
  (∀ (x : Vector Byte 8) (k : BitVec 64), blockDecDes (blockEncDes x k) k = x ∧ blockEncDes (blockDecDes x k) k = x)

/-- R347, R326, R327, R323: the PRESENT block functions are inverse to each other for every block and key; the permutation layer moves
bit i to bit PP(i) and its inverse moves it back; the substitution layer maps each nibble in its place. -/
def Obligations.PresentBlockFunctionsAreInverse : Prop :=
  (∀ (s : BitVec 64) (i : Nat), i < 64 → (pLayer s).getLsbD (16 * (i % 4) + i / 4) = s.getLsbD i ∧
    (invPLayer s).getLsbD i = s.getLsbD (16 * (i % 4) + i / 4)) ∧
  (∀ (s : BitVec 64) (n : Nat), n < 16 → (sLayer s).extractLsb' (4 * n) 4 = psbox (s.extractLsb' (4 * n) 4) ∧
    (invSLayer s).extractLsb' (4 * n) 4 = psboxInv (s.extractLsb' (4 * n) 4)) ∧
  (∀ (x : Vector Byte 8) (k : BitVec 80),
    blockDecPresent (blockEncPresent x k) k = x ∧ blockEncPresent (blockDecPresent x k) k = x)

/-- R271: no DES subkey depends on bits 8, 16, ..., 64 of the key: keys whose bytes differ only in bit 0 give equal subkeys and
equal ciphertexts. -/
def Obligations.DesIgnoresParityBits : Prop :=
  ∀ k k' : BitVec 64, (∀ i, i < 64 → i % 8 ≠ 7 → k.getMsbD i = k'.getMsbD i) →
    keySchedDes k = keySchedDes k' ∧
    ∀ x : Vector Byte 8, blockEncDes x k = blockEncDes x k' ∧ blockDecDes x k = blockDecDes x k'

/-- R182, R184, R186: a message decrypt after a message encrypt with the same key gives the message with its zero padding, never
stripped: the message itself when it is whole blocks. The source's calls on texts are these message functions: AES on bytes, with a
key of 16 characters, DES and PRESENT with bit sequences; and the source's round trip holds of them, with the padding. That the
decrypt calls of DES and PRESENT give bits is the model's reading (log 21). With a key text of another length the AES decrypt call
fails with InvalidKeyLength (R401); that the encrypt call then gives the same refusal is the model's reading of U5 (log 21), and that
the decrypt call gives it whatever the ciphertext is, is the model's choice (log 22). -/
def Obligations.MessageRoundTripKeepsPadding : Prop :=
  (∀ (e : EngineId) (k : KeyT e) (m : List Byte),
    msgDec e (msgEnc e m k) k = m ++ List.replicate (paddedLen e .enc m.length - m.length) 0 ∧
    (m.length % Config.blkBytes e = 0 → msgDec e (msgEnc e m k) k = m)) ∧
  (∀ t k : List Nat, (∀ c ∈ t, c ≤ 255) → (∀ c ∈ k, c ≤ 255) →
    let text := t.map (BitVec.ofNat 8)
    let key := k.map (BitVec.ofNat 8)
    let padded (e : EngineId) := text ++ List.replicate (paddedLen e .enc t.length - t.length) 0
    (∀ hk : k.length = 16,
      let aesKey : Vector Byte 16 := Vector.ofFn fun i : Fin 16 => BitVec.ofNat 8 (k[i.val]'(by omega))
      aesEncrypt t k = .ok (msgEnc .aes text aesKey) ∧
      (∀ c : List Byte, c.length % 16 = 0 → aesDecrypt c k = .ok (msgDec .aes c aesKey)) ∧
      aesDecrypt (msgEnc .aes text aesKey) k = .ok (padded .aes)) ∧
    (k.length ≠ 16 → aesEncrypt t k = .error .invalidKeyLength ∧ ∀ c, aesDecrypt c k = .error .invalidKeyLength) ∧
    (∃ c, desEncrypt t k = .ok c ∧ c = bytesToBitList (msgEnc .des text (keyBitsDes key)) ∧
      desDecrypt c k = .ok (bytesToBitList (padded .des))) ∧
    (∀ c : List Byte, c.length % 8 = 0 →
      desDecrypt (bytesToBitList c) k = .ok (bytesToBitList (msgDec .des c (keyBitsDes key)))) ∧
    (∃ c, presentEncrypt t k = .ok c ∧ c = bytesToBitList (msgEnc .present text (keyIntPresent key)) ∧
      presentDecrypt c k = .ok (bytesToBitList (padded .present))) ∧
    (∀ c : List Byte, c.length % 8 = 0 →
      presentDecrypt (bytesToBitList c) k = .ok (bytesToBitList (msgDec .present c (keyIntPresent key)))))

/-- R183, R186: block independence. A message encrypt of whole blocks is the concatenation of its block encrypts, and a decrypt of
its block decrypts. So a message of any length, processed in pieces of whole blocks of any one size, gives what the message function
gives for all of it (a decrypt: of whole blocks). -/
def Obligations.BlocksAreIndependent : Prop :=
  (∀ (e : EngineId) (k : KeyT e) (blocks : List (Vector Byte (Config.blkBytes e))),
    msgEnc e (blocks.flatMap fun b => b.toList) k = blocks.flatMap fun b => (blockEnc e b k).toList) ∧
  (∀ (e : EngineId) (k : KeyT e) (blocks : List (Vector Byte (Config.blkBytes e))),
    msgDec e (blocks.flatMap fun b => b.toList) k = blocks.flatMap fun b => (blockDec e b k).toList) ∧
  (∀ (e : EngineId) (k : KeyT e) (dir : Dir) (n : Nat) (m : List Byte), 0 < n → Config.blkBytes e ∣ n →
    (dir = .dec → Config.blkBytes e ∣ m.length) → msgInPieces e dir n m k = msgFn e dir m k) ∧
  (∀ (n : Nat) (m : List Byte), 0 < n → (pieces n m).flatten = m ∧ ∀ p ∈ pieces n m, p ≠ [] ∧ p.length ≤ n)

/-- R154, R155, R156, R157, R158, R150, R151: the laws of the conversion utility, and the calls a model refuses. -/
def Obligations.ConversionUtilityLaws : Prop :=
  (∀ (a b : List Bool) (i : Nat), i < a.length → i < b.length →
    (xorBits a b)[i]? = some (xor (a.getD i false) (b.getD i false))) ∧
  (∀ a b : List Bool, (xorBits a b).length = min a.length b.length) ∧
  (∀ (s : List Bool) (n : Nat), ∃ r, rotateLeftSeq s n = .ok r ∧ r.length = s.length ∧
    ∀ i, i < s.length → r[i]? = s[(i + n) % s.length]?) ∧
  (∀ (s : List Bool) (n : Int), n < 0 → rotateLeftSeq s n = .error .negativeRotation) ∧
  (∀ b : List Bool, bitsToInteger b = ∑ i : Fin b.length, (b[i]).toNat * 2 ^ (b.length - 1 - i.val)) ∧
  (∀ v len : Nat, v < 2 ^ len → ∃ r, integerToBits v len = .ok r ∧ r.length = len ∧ bitsToInteger r = v) ∧
  (∀ v len : Nat, 2 ^ len ≤ v → integerToBits v len = .error .integerTooWide) ∧
  (∀ b : List Byte, bitListToBytes (bytesToBitList b) = b) ∧
  (∀ b : List Bool, b.length % 8 = 0 → bytesToBitList (bitListToBytes b) = b) ∧
  (∀ t : List Nat, (∃ c ∈ t, 255 < c) →
    stringToBytes t = .error .ordinalAbove255 ∧ stringToBits t = .error .ordinalAbove255) ∧
  (∀ t : List Nat, (∀ c ∈ t, c ≤ 255) →
    stringToBytes t = .ok (t.map (BitVec.ofNat 8)) ∧ stringToBits t = .ok (bytesToBitList (t.map (BitVec.ofNat 8))))
end

