-- ==== Sys2Proof/Laws/Bits.lean ====
section
/-! SUPPORT. Which bit of its input each bit of a permutation, a slice, a packing or a layer is. -/

namespace Sys2Proof.Machine

/-- Element k of `Perm(b, T)` is `b[T[k]-1]` (R15). -/
theorem getMsbD_perm {n : Nat} (b : BitVec n) (t : List Nat) {k : Nat} (h : k < t.length) :
    (perm t.length b t).getMsbD k = b.getMsbD (t[k] - 1) := by
  rw [perm, BitVec.getMsbD_setWidth]
  simp [h, BitVec.getMsbD_ofBoolListBE, List.getD]

/-- Element k of `b[i..i+len)` is element i + k. -/
theorem getMsbD_slice {n : Nat} (b : BitVec n) {i len k : Nat} (h : i + len ≤ n) (hk : k < len) :
    (slice b i len).getMsbD k = b.getMsbD (i + k) := by
  rw [slice]
  simp only [BitVec.getMsbD_eq_getLsbD, BitVec.getLsbD_extractLsb']
  have h1 : len - 1 - k < len := by omega
  have h2 : i + k < n := by omega
  have h3 : n - i - len + (len - 1 - k) = n - 1 - (i + k) := by omega
  simp [hk, h1, h2, h3]

/-- Bit b of an OR-sum: some term has it. -/
theorem getLsbD_orSum (k : Nat) (f : Nat → BitVec 64) (b : Nat) :
    (orSum k f).getLsbD b = (List.range k).any fun n => (f n).getLsbD b := by
  have h : ∀ (l : List Nat) (a : BitVec 64), (l.foldl (fun acc n => acc ||| f n) a).getLsbD b =
      (a.getLsbD b || l.any fun n => (f n).getLsbD b) := by
    intro l
    induction l with
    | nil => simp
    | cons n l ih => intro a; simp [ih, Bool.or_assoc]
  simp [orSum, h]

end Sys2Proof.Machine
end

