-- ==== Sys2Proof/Laws/Codec.lean ====
section
/-! SUPPORT. The command byte: fields read back from an encoding, and decoding against encoding. -/

namespace Sys2Proof

@[simp] theorem modeField_encodeFields (e : EngineId) (m : Mode) (d : Dir) :
    modeField (encodeFields (.cipher e m d)) = m := by cases e <;> cases m <;> cases d <;> rfl

@[simp] theorem dirField_encodeFields (e : EngineId) (m : Mode) (d : Dir) :
    dirField (encodeFields (.cipher e m d)) = d := by cases e <;> cases m <;> cases d <;> rfl

theorem instrOf_verdictOf (i : Instr) : instrOf (verdictOf i) = i := by cases i <;> rfl

theorem verdictOf_instrOf (v : Verdict) : verdictOf (instrOf v) = v := by
  cases v with
  | cipher e m d => cases e <;> cases m <;> cases d <;> rfl
  | util f => cases f <;> rfl

theorem decodeFields_encodeFields (v : Verdict) : decodeFields (encodeFields v) = .ok v := by
  cases v with
  | cipher e m d => cases e <;> cases m <;> cases d <;> rfl
  | util f => cases f <;> rfl

/-- A byte that decodes is the encoding of what it decodes to: each legal byte has one meaning. -/
theorem encodeFields_of_decodeFields {b : Byte} {v : Verdict} (h : decodeFields b = .ok v) : encodeFields v = b := by
  have key : ∀ b : Byte, (match decodeFields b with | .ok v => decide (encodeFields v = b) | .error _ => true) = true := by
    decide +kernel
  have := key b
  rw [h] at this
  simpa using this

theorem encode_instrOf (v : Verdict) : encode (instrOf v) = encodeFields v := by
  rw [encode, verdictOf_instrOf]

/-- A cipher command of engine E is `instrOf` of its fields, or the command is a UTIL one. -/
theorem verdictOf_cases (i : Instr) :
    (∃ e m d, verdictOf i = .cipher e m d ∧ i = instrOf (.cipher e m d)) ∨ ∃ f, verdictOf i = .util f := by
  cases i <;> first | exact .inl ⟨_, _, _, rfl, rfl⟩ | exact .inr ⟨_, rfl⟩

end Sys2Proof
end

