-- ==== Sys2Proof/Laws/Keys.lean ====
section
/-! SUPPORT. The FSM's key-schedule steps compute the pure key schedules (spec R221, R281, R331), whatever stood in the
working registers before. -/

namespace Sys2Proof.Machine

/-! ### Vectors read and written by number -/

theorem vector_getD_set_same {α : Type} {n i : Nat} (v : Vector α n) (x d : α) (h : i < n) :
    (v.setIfInBounds i x).getD i d = x := by
  simp [Vector.getD, h]

theorem vector_getD_set_other {α : Type} {n i j : Nat} (v : Vector α n) (x d : α) (h : j ≠ i) :
    (v.setIfInBounds i x).getD j d = v.getD j d := by
  by_cases hj : j < n
  · simp [Vector.getD, hj, Ne.symm h]
  · simp [Vector.getD, hj]

theorem vector_getD_of_lt {α : Type} {n i : Nat} (v : Vector α n) (d : α) (h : i < n) : v.getD i d = v[i] := by
  simp [Vector.getD, h]

theorem vector_ext_getD {α : Type} {n : Nat} {v w : Vector α n} (d : α) (h : ∀ i < n, v.getD i d = w.getD i d) : v = w := by
  ext i hi
  simpa [Vector.getD, hi] using h i hi

theorem vector_getD_ofFn {α : Type} {n i : Nat} (f : Fin n → α) (d : α) (h : i < n) :
    (Vector.ofFn f).getD i d = f ⟨i, h⟩ := by simp [Vector.getD, h]

/-! ### AES -/

/-- The words of a key satisfy the recurrence of R216 and R217 up to word n. -/
def WordsUpTo (k : Vector Byte 16) (n : Nat) (w : Vector Word4 44) : Prop :=
  ∀ i < n, wordAt w i =
    if i < 4 then keyWord k i else xorWord (wordAt w (i - 4)) (keyTransform i (wordAt w (i - 1)))

theorem wordAt_expandWord_other (w : Vector Word4 44) {i j : Nat} (h : j ≠ i) :
    wordAt (expandWord w i) j = wordAt w j := vector_getD_set_other _ _ _ h

theorem wordAt_expandWord_same (w : Vector Word4 44) {i : Nat} (h : i < 44) :
    wordAt (expandWord w i) i = xorWord (wordAt w (i - 4)) (keyTransform i (wordAt w (i - 1))) :=
  vector_getD_set_same _ _ _ h

theorem wordsUpTo_init (k : Vector Byte 16) (w : Vector Word4 44) : WordsUpTo k 4 (initWords k w) := by
  intro i hi
  rw [if_pos hi]
  simp only [initWords, List.range, List.range.loop, List.foldl]
  have h : i = 0 ∨ i = 1 ∨ i = 2 ∨ i = 3 := by omega
  rcases h with rfl | rfl | rfl | rfl <;>
    simp [wordAt, vector_getD_set_same, vector_getD_set_other]

theorem wordsUpTo_expand {k : Vector Byte 16} {n : Nat} {w : Vector Word4 44} (h : WordsUpTo k n w) (h4 : 4 ≤ n)
    (hn : n < 44) : WordsUpTo k (n + 1) (expandWord w n) := by
  intro i hi
  rcases Nat.lt_succ_iff_lt_or_eq.1 hi with hlt | rfl
  · rw [wordAt_expandWord_other _ (by omega), h i hlt]
    by_cases h4' : i < 4
    · simp [h4']
    · rw [if_neg h4', if_neg h4', wordAt_expandWord_other _ (by omega), wordAt_expandWord_other _ (by omega)]
  · rw [wordAt_expandWord_same _ hn, if_neg (by omega), wordAt_expandWord_other _ (by omega),
      wordAt_expandWord_other _ (by omega)]

theorem wordsUpTo_foldl {k : Vector Byte 16} (c : Nat) : ∀ {n : Nat} {w : Vector Word4 44}, WordsUpTo k n w → 4 ≤ n →
    n + c ≤ 44 → WordsUpTo k (n + c) ((List.range' n c).foldl expandWord w) := by
  induction c with
  | zero => intro n w h _ _; simpa using h
  | succ c ih =>
    intro n w h h4 hn
    rw [List.range'_succ, List.foldl_cons, show n + (c + 1) = n + 1 + c by omega]
    exact ih (wordsUpTo_expand h h4 (by omega)) (by omega) (by omega)

theorem wordsUpTo_keyWords (k : Vector Byte 16) : WordsUpTo k 44 (keyWords k) :=
  wordsUpTo_foldl 40 (wordsUpTo_init k _) (by omega) (by omega)

/-- The recurrence fixes the words. -/
theorem wordsUpTo_unique {k : Vector Byte 16} {n : Nat} {v w : Vector Word4 44} (hv : WordsUpTo k n v)
    (hw : WordsUpTo k n w) : ∀ i < n, wordAt v i = wordAt w i := by
  intro i
  induction i using Nat.strong_induction_on with
  | _ i ih =>
    intro hi
    rw [hv i hi, hw i hi]
    by_cases h4 : i < 4
    · simp [h4]
    · rw [if_neg h4, if_neg h4, ih (i - 4) (by omega) (by omega), ih (i - 1) (by omega) (by omega)]

theorem roundKey_congr {v w : Vector Word4 44} {n : Nat} (h : ∀ c < 4, wordAt v (4 * n + c) = wordAt w (4 * n + c)) :
    roundKey v n = roundKey w n := by
  unfold roundKey
  congr 1
  funext r c
  rw [h c.val c.isLt]

theorem roundKey_zero (k : Vector Byte 16) (w : Vector Word4 44) (h : WordsUpTo k 4 w) : roundKey w 0 = toState k := by
  unfold roundKey toState
  congr 1
  funext r c
  have := h c.val c.isLt
  rw [if_pos c.isLt] at this
  simp only [Nat.mul_zero, Nat.zero_add, this, keyWord, Fin.getElem_fin, Vector.getElem_ofFn]
  rw [vector_getD_of_lt _ _ (by omega)]
  exact getElem_congr_idx (by omega)

/-- After KS(1) to KS(n) the words up to 4n+3 and the round keys up to n stand. -/
theorem ksFold_aes (k : Vector Byte 16) (x : AesWork) (n : Nat) (hn : n ≤ 10) :
    let y := (List.range' 1 n).foldl (fun w i => ksStepAes i w) (ksInitAes k x)
    WordsUpTo k (4 * n + 4) y.w ∧ ∀ i ≤ n, rkAt y.rk i = roundKey (keyWords k) i := by
  induction n with
  | zero =>
    refine ⟨wordsUpTo_init k _, fun i hi => ?_⟩
    obtain rfl : i = 0 := by omega
    have h0 : roundKey (keyWords k) 0 = toState k :=
      roundKey_zero k _ fun i hi => wordsUpTo_keyWords k i (by omega)
    rw [h0]
    exact vector_getD_set_same _ _ _ (by omega)
  | succ n ih =>
    obtain ⟨hw, hr⟩ := ih (by omega)
    simp only [List.range'_concat, List.foldl_append, List.foldl_cons, List.foldl_nil, Nat.one_mul] at *
    set y := (List.range' 1 n).foldl (fun w i => ksStepAes i w) (ksInitAes k x)
    have hw' : WordsUpTo k (4 * (n + 1) + 4) ((List.range' (4 * (1 + n)) 4).foldl expandWord y.w) := by
      have := wordsUpTo_foldl 4 hw (by omega) (by omega)
      rwa [show 4 * n + 4 + 4 = 4 * (n + 1) + 4 by omega, show 4 * n + 4 = 4 * (1 + n) by omega] at this
    refine ⟨hw', fun i hi => ?_⟩
    by_cases hi' : i = 1 + n
    · subst hi'
      rw [show rkAt (ksStepAes (1 + n) y).rk (1 + n) =
        roundKey ((List.range' (4 * (1 + n)) 4).foldl expandWord y.w) (1 + n) from
          vector_getD_set_same _ _ _ (by omega)]
      refine roundKey_congr fun c hc => ?_
      refine wordsUpTo_unique hw' (fun i hi => wordsUpTo_keyWords k i (by omega)) _ (by omega)
    · rw [show rkAt (ksStepAes (1 + n) y).rk i = rkAt y.rk i from vector_getD_set_other _ _ _ hi']
      exact hr i (by omega)

/-! ### DES -/

/-- After KS(1) to KS(n) the halves and the subkeys up to n stand. -/
theorem ksFold_des (k : BitVec 64) (x : DesWork) (n : Nat) (hn : n ≤ 16) :
    let y := (List.range' 1 n).foldl (fun w i => ksStepDes i w) (ksInitDes k x)
    (y.c, y.d) = desHalves k n ∧
      ∀ i < n, y.k.getD i 0 = desSubkey (desHalves k (i + 1)).1 (desHalves k (i + 1)).2 := by
  induction n with
  | zero => exact ⟨rfl, fun i hi => absurd hi (by omega)⟩
  | succ n ih =>
    obtain ⟨hcd, hk⟩ := ih (by omega)
    simp only [List.range'_concat, List.foldl_append, List.foldl_cons, List.foldl_nil, Nat.one_mul] at *
    set y := (List.range' 1 n).foldl (fun w i => ksStepDes i w) (ksInitDes k x)
    have hc : y.c = (desHalves k n).1 := congrArg Prod.fst hcd
    have hd : y.d = (desHalves k n).2 := congrArg Prod.snd hcd
    refine ⟨by simp [ksStepDes, desHalves, hc, hd, Nat.add_comm], fun i hi => ?_⟩
    by_cases hi' : i = n
    · subst hi'
      simp only [ksStepDes, Nat.add_sub_cancel_left]
      rw [vector_getD_set_same _ _ _ (by omega)]
      simp [desHalves, hc, hd, Nat.add_comm]
    · simp only [ksStepDes, Nat.add_sub_cancel_left]
      rw [vector_getD_set_other _ _ _ hi']
      exact hk i (by omega)

/-! ### PRESENT -/

/-- After KS(1) to KS(n), n < 32, the register and the round keys up to n stand. -/
theorem ksFold_present (k : BitVec 80) (x : PresentWork) (n : Nat) (hn : n ≤ 32) :
    let y := (List.range' 1 n).foldl (fun w i => ksStepPresent i w) (ksInitPresent k x)
    (n < 32 → y.kr = krAfter k n) ∧ ∀ i < n, y.k.getD i 0 = topBits (krAfter k i) := by
  induction n with
  | zero => exact ⟨fun _ => rfl, fun i hi => absurd hi (by omega)⟩
  | succ n ih =>
    obtain ⟨hkr, hk⟩ := ih (by omega)
    simp only [List.range'_concat, List.foldl_append, List.foldl_cons, List.foldl_nil, Nat.one_mul] at *
    set y := (List.range' 1 n).foldl (fun w i => ksStepPresent i w) (ksInitPresent k x)
    have hkr' := hkr (by omega)
    refine ⟨fun hlt => ?_, fun i hi => ?_⟩
    · simp only [ksStepPresent]
      rw [if_pos (by omega), hkr', krAfter, Nat.add_comm 1 n]
    · simp only [ksStepPresent, Nat.add_sub_cancel_left]
      by_cases hi' : i = n
      · subst hi'
        rw [vector_getD_set_same _ _ _ (by omega), hkr']
      · rw [vector_getD_set_other _ _ _ hi']
        exact hk i (by omega)

/-! ### All engines -/

/-- The round keys of a key stand in the working state. -/
def Keyed : (e : EngineId) → KeyT e → Work e → Prop
  | .aes, k, x => x.rk = keyExpand k
  | .des, k, x => x.k = keySchedDes k
  | .present, k, x => x.k = keySchedPresent k

/-- After the last key-schedule step the round keys of the latched key stand (R221, R281, R331). -/
theorem keyed_ksFold (e : EngineId) (k : KeyT e) (x : Work e) :
    Keyed e k ((List.range' 1 (Config.nks e)).foldl (fun w i => ksStep e i w) (ksInit e k x)) := by
  cases e with
  | aes =>
    refine vector_ext_getD zeroMatrix fun i hi => ?_
    rw [show (keyExpand k).getD i zeroMatrix = roundKey (keyWords k) i from vector_getD_ofFn _ _ hi]
    exact (ksFold_aes k x 10 le_rfl).2 i (by omega)
  | des =>
    refine vector_ext_getD 0 fun i hi => ?_
    rw [show (keySchedDes k).getD i 0 = desSubkey (desHalves k (i + 1)).1 (desHalves k (i + 1)).2 from
      vector_getD_ofFn _ _ hi]
    exact (ksFold_des k x 16 le_rfl).2 i hi
  | present =>
    refine vector_ext_getD 0 fun i hi => ?_
    rw [show (keySchedPresent k).getD i 0 = topBits (krAfter k i) from vector_getD_ofFn _ _ hi]
    exact (ksFold_present k x 32 le_rfl).2 i hi

end Sys2Proof.Machine
end

