-- ==== Sys2Proof/Laws/Compute.lean ====
section
/-! SUPPORT. With the round keys in place, LOAD, the rounds and STORE compute the pure block function, and leave the round keys
in place (spec R236, R296, R346 against R231 to R234, R291 to R293, R341 to R344). -/

namespace Sys2Proof.Machine

/-! ### AES -/

theorem roundAes_foldl (d : Dir) (l : List Nat) (x : AesWork) :
    l.foldl (fun w i => roundAes d i w) x =
      { x with st := l.foldl (fun s i => match d with
          | .enc => encRoundAes i (rkAt x.rk i) s
          | .dec => decRoundAes i (rkAt x.rk i) s) x.st } := by
  induction l generalizing x with
  | nil => rfl
  | cons i l ih =>
    rw [List.foldl_cons, ih]
    cases d <;> rfl

theorem compute_aes (d : Dir) (blk k : Vector Byte 16) (x : AesWork) (hx : x.rk = keyExpand k) :
    storeAes ((rounds .aes d).foldl (fun w i => roundAes d i w) (loadAes d blk x)) = blockFn .aes d blk k := by
  rw [roundAes_foldl]
  cases d with
  | enc =>
    simp only [loadAes, hx, storeAes, blockFn, blockEnc, blockEncAes, rounds, List.range'_succ, List.range'_zero,
      List.foldl_cons, List.foldl_nil, encRoundAes, Nat.reduceAdd, Nat.reduceEqDiff, if_true, if_false]
  | dec =>
    have hr : rounds .aes .dec = (List.range' 1 9).reverse ++ [0] := by decide
    rw [hr]
    simp only [loadAes, hx, storeAes, blockFn, blockDec, blockDecAes, List.range'_succ, List.range'_zero,
      List.reverse_cons, List.reverse_nil, List.nil_append, List.cons_append,
      List.foldl_cons, List.foldl_nil, decRoundAes, Nat.reduceAdd, Nat.reduceEqDiff, if_true, if_false]

/-! ### DES -/

theorem roundDes_foldl (d : Dir) (l : List Nat) (x : DesWork) :
    l.foldl (fun w i => roundDes d i w) x =
      { x with
        l := (l.foldl (fun lr i => desRound (desKeyAt x.k (desSigma d i)) lr) (x.l, x.r)).1,
        r := (l.foldl (fun lr i => desRound (desKeyAt x.k (desSigma d i)) lr) (x.l, x.r)).2 } := by
  induction l generalizing x with
  | nil => rfl
  | cons i l ih =>
    rw [List.foldl_cons, ih]
    rfl

/-- The subkeys in the order the rounds of a direction use them (R290). -/
theorem desKeys_in_use (d : Dir) (ks : Vector (BitVec 48) 16) :
    (List.range' 1 16).map (fun i => desKeyAt ks (desSigma d i)) =
      match d with
      | .enc => ks.toList
      | .dec => ks.toList.reverse := by
  have hl : ks.toList = (List.range' 0 16).map fun i => ks.getD i 0 := by
    apply List.ext_getElem
    · simp
    · intro i h1 h2
      have hi : i < 16 := by simpa using h1
      simp [vector_getD_of_lt _ _ hi]
  cases d <;> rw [hl] <;> simp [List.range', desKeyAt, desSigma]

theorem compute_des (d : Dir) (blk : Vector Byte 8) (k : BitVec 64) (x : DesWork) (hx : x.k = keySchedDes k) :
    storeDes ((rounds .des d).foldl (fun w i => roundDes d i w) (loadDes blk x)) = blockFn .des d blk k := by
  rw [roundDes_foldl]
  have hfold : ∀ lr, (List.range' 1 16).foldl (fun lr i => desRound (desKeyAt x.k (desSigma d i)) lr) lr =
      ((List.range' 1 16).map (fun i => desKeyAt x.k (desSigma d i))).foldl (fun lr kr => desRound kr lr) lr := by
    intro lr
    rw [List.foldl_map]
  have hk := desKeys_in_use d x.k
  cases d with
  | enc =>
    simp only [rounds, loadDes, storeDes, blockFn, blockEnc, blockEncDes, transformDes] at *
    rw [hfold, hk, hx]
  | dec =>
    simp only [rounds, loadDes, storeDes, blockFn, blockDec, blockDecDes, transformDes] at *
    rw [hfold, hk, hx]

/-! ### PRESENT -/

theorem roundPresent_foldl (d : Dir) (l : List Nat) (x : PresentWork) :
    l.foldl (fun w i => roundPresent d i w) x =
      { x with s := l.foldl (fun s i => match d with
          | .enc => if i = 31 then encRoundPresent (presentKeyAt x.k i) s ^^^ presentKeyAt x.k 32
            else encRoundPresent (presentKeyAt x.k i) s
          | .dec => decRoundPresent (presentKeyAt x.k i) s) x.s } := by
  induction l generalizing x with
  | nil => rfl
  | cons i l ih =>
    rw [List.foldl_cons, ih]
    cases d <;> rfl

theorem compute_present (d : Dir) (blk : Vector Byte 8) (k : BitVec 80) (x : PresentWork) (hx : x.k = keySchedPresent k) :
    storePresent ((rounds .present d).foldl (fun w i => roundPresent d i w) (loadPresent d blk x)) =
      blockFn .present d blk k := by
  rw [roundPresent_foldl]
  cases d with
  | enc =>
    have hr : rounds .present .enc = List.range' 1 30 ++ [31] := by decide
    have hr' : List.range' 1 31 = List.range' 1 30 ++ [31] := by decide
    have hcongr : ∀ s : BitVec 64, (List.range' 1 30).foldl (fun s i =>
        if i = 31 then encRoundPresent (presentKeyAt x.k i) s ^^^ presentKeyAt x.k 32
        else encRoundPresent (presentKeyAt x.k i) s) s =
        (List.range' 1 30).foldl (fun s i => encRoundPresent (presentKeyAt x.k i) s) s := by
      intro s
      refine List.foldl_ext _ _ _ fun a i hi => ?_
      rw [if_neg]
      simp [List.mem_range'_1] at hi
      omega
    simp only [loadPresent, storePresent, blockFn, blockEnc, blockEncPresent, hr, hr', List.foldl_append,
      List.foldl_cons, List.foldl_nil, if_true, hcongr]
    rw [hx]
  | dec =>
    simp only [loadPresent, storePresent, blockFn, blockDec, blockDecPresent, rounds, hx]

/-! ### All engines -/

/-- LOAD, the rounds and STORE of a direction compute its block function. -/
theorem compute_block (e : EngineId) (d : Dir) (blk : Vector Byte (Config.blkBytes e)) (k : KeyT e) (x : Work e)
    (hx : Keyed e k x) :
    storeAction e ((rounds e d).foldl (fun w i => roundAction e d i w) (loadAction e d blk x)) = blockFn e d blk k := by
  cases e with
  | aes => exact compute_aes d blk k x hx
  | des => exact compute_des d blk k x hx
  | present => exact compute_present d blk k x hx

/-- LOAD and the rounds leave the round keys alone, so the next block finds them. -/
theorem keyed_block (e : EngineId) (d : Dir) (blk : Vector Byte (Config.blkBytes e)) (k : KeyT e) (x : Work e)
    (hx : Keyed e k x) : Keyed e k ((rounds e d).foldl (fun w i => roundAction e d i w) (loadAction e d blk x)) := by
  cases e with
  | aes =>
    show ((rounds .aes d).foldl (fun w i => roundAes d i w) (loadAes d blk x)).rk = _
    rw [roundAes_foldl]
    cases d <;> exact hx
  | des =>
    show ((rounds .des d).foldl (fun w i => roundDes d i w) (loadDes blk x)).k = _
    rw [roundDes_foldl]
    exact hx
  | present =>
    show ((rounds .present d).foldl (fun w i => roundPresent d i w) (loadPresent d blk x)).k = _
    rw [roundPresent_foldl]
    cases d <;> exact hx

end Sys2Proof.Machine
end

