-- ==== Sys2Proof/Laws/Memory.lean ====
section
/-! SUPPORT. The laws of a message buffer's cells: read after write, other addresses alone, the canonical form kept, and
equal reads give equal lists. -/

namespace Sys2Proof.Machine

/-! ### One write -/

theorem cellRead_cellWrite_same (m : List Host.Cell) (a : Nat) (v : Byte) : cellRead (cellWrite m a v) a = some v := by
  induction m with
  | nil => simp [cellWrite, cellRead]
  | cons c rest ih =>
    obtain ⟨k, w⟩ := c
    simp only [cellWrite]
    split_ifs with h1 h2
    · simp [cellRead]
    · simp [cellRead]
    · simp [cellRead, Ne.symm h2, ih]

theorem cellRead_cellWrite_other (m : List Host.Cell) {a b : Nat} (v : Byte) (h : b ≠ a) :
    cellRead (cellWrite m a v) b = cellRead m b := by
  induction m with
  | nil => simp [cellWrite, cellRead, h.symm]
  | cons c rest ih =>
    obtain ⟨k, w⟩ := c
    simp only [cellWrite]
    split_ifs with h1 h2
    · simp [cellRead, h.symm]
    · subst h2; simp [cellRead, h.symm]
    · simp [cellRead, ih]

/-- Every cell after a write is the written one or was there. -/
theorem mem_cellWrite {m : List Host.Cell} {a : Nat} {v : Byte} {c : Host.Cell} (h : c ∈ cellWrite m a v) :
    c = (a, v) ∨ c ∈ m := by
  induction m with
  | nil => simpa [cellWrite] using h
  | cons d rest ih =>
    obtain ⟨k, w⟩ := d
    simp only [cellWrite] at h
    split_ifs at h with h1 h2
    · simpa using h
    · rcases List.mem_cons.1 h with h | h
      · exact .inl h
      · exact .inr (List.mem_cons_of_mem _ h)
    · rcases List.mem_cons.1 h with h | h
      · exact .inr (h ▸ List.mem_cons_self)
      · exact (ih h).imp id (List.mem_cons_of_mem _)

theorem cellsRising_cellWrite {m : List Host.Cell} (h : cellsRising m) (a : Nat) (v : Byte) :
    cellsRising (cellWrite m a v) := by
  induction m with
  | nil => simp [cellWrite]
  | cons d rest ih =>
    obtain ⟨k, w⟩ := d
    have hr := List.pairwise_cons.1 h
    simp only [cellWrite]
    split_ifs with h1 h2
    · refine List.pairwise_cons.2 ⟨fun c hc => ?_, h⟩
      rcases List.mem_cons.1 hc with rfl | hc
      · exact h1
      · exact lt_trans h1 (hr.1 c hc)
    · subst h2
      exact List.pairwise_cons.2 ⟨fun c hc => hr.1 c hc, hr.2⟩
    · refine List.pairwise_cons.2 ⟨fun c hc => ?_, ih hr.2⟩
      rcases mem_cellWrite hc with rfl | hc
      · simp; omega
      · exact hr.1 c hc

theorem Memory.wf_cellWrite {e : EngineId} {m : List Host.Cell} (h : Memory.wf e m) {off : Nat}
    (ho : off < Config.msgBufBytes) (v : Byte) : Memory.wf e (cellWrite m (Config.mbase e + off) v) := by
  refine ⟨cellsRising_cellWrite h.1 _ _, fun c hc => ?_⟩
  rcases mem_cellWrite hc with rfl | hc
  · simp; omega
  · exact h.2 c hc

/-! ### Consecutive writes -/

theorem cellRead_cellWrites_outside (m : List Host.Cell) (a : Nat) (bs : List Byte) {b : Nat}
    (h : b < a ∨ a + bs.length ≤ b) : cellRead (cellWrites m a bs) b = cellRead m b := by
  induction bs generalizing m a with
  | nil => rfl
  | cons x xs ih =>
    simp only [cellWrites, List.length_cons] at *
    rw [ih _ _ (by omega), cellRead_cellWrite_other _ _ (by omega)]

theorem cellRead_cellWrites_inside (m : List Host.Cell) (a : Nat) (bs : List Byte) {i : Nat} (h : i < bs.length) :
    cellRead (cellWrites m a bs) (a + i) = some bs[i] := by
  induction bs generalizing m a i with
  | nil => simp at h
  | cons x xs ih =>
    cases i with
    | zero =>
      simp only [cellWrites, Nat.add_zero, List.getElem_cons_zero]
      rw [cellRead_cellWrites_outside _ _ _ (by omega), cellRead_cellWrite_same]
    | succ i =>
      simp only [cellWrites, List.getElem_cons_succ]
      have := ih (cellWrite m a x) (a + 1) (i := i) (by simpa using h)
      rwa [show a + (i + 1) = a + 1 + i by omega]

theorem cellsRising_cellWrites {m : List Host.Cell} (h : cellsRising m) (a : Nat) (bs : List Byte) :
    cellsRising (cellWrites m a bs) := by
  induction bs generalizing m a with
  | nil => exact h
  | cons x xs ih => exact ih (cellsRising_cellWrite h _ _) _

theorem Memory.wf_cellWrites {e : EngineId} {m : List Host.Cell} (h : Memory.wf e m) {off : Nat} {bs : List Byte}
    (ho : off + bs.length ≤ Config.msgBufBytes) : Memory.wf e (cellWrites m (Config.mbase e + off) bs) := by
  induction bs generalizing m off with
  | nil => exact h
  | cons x xs ih =>
    simp only [List.length_cons] at ho
    have := ih (Memory.wf_cellWrite h (off := off) (by omega) x) (off := off + 1) (by omega)
    simpa [cellWrites, Nat.add_assoc] using this

theorem cellWrites_append (m : List Host.Cell) (a : Nat) (xs ys : List Byte) :
    cellWrites m a (xs ++ ys) = cellWrites (cellWrites m a xs) (a + xs.length) ys := by
  induction xs generalizing m a with
  | nil => rfl
  | cons x xs ih =>
    simp only [List.cons_append, cellWrites, List.length_cons, ih]
    congr 1
    omega

/-! ### Equal reads, equal lists -/

theorem cellRead_none_of_lt {m : List Host.Cell} {a : Nat} (h : ∀ c ∈ m, a < c.1) : cellRead m a = none := by
  induction m with
  | nil => rfl
  | cons d rest ih =>
    obtain ⟨k, w⟩ := d
    have hk := h (k, w) List.mem_cons_self
    simp only [cellRead]
    rw [if_neg (by simp at hk; omega)]
    exact ih fun c hc => h c (List.mem_cons_of_mem _ hc)

/-- Two canonical lists that read the same at every address are equal. -/
theorem cells_ext {m n : List Host.Cell} (hm : cellsRising m) (hn : cellsRising n)
    (h : ∀ a, cellRead m a = cellRead n a) : m = n := by
  induction m generalizing n with
  | nil =>
    cases n with
    | nil => rfl
    | cons d _ => simpa [cellRead] using h d.1
  | cons c m ih =>
    cases n with
    | nil => simpa [cellRead] using h c.1
    | cons d n =>
      obtain ⟨k, v⟩ := c
      obtain ⟨l, w⟩ := d
      have hm' := List.pairwise_cons.1 hm
      have hn' := List.pairwise_cons.1 hn
      have hkl : k = l := by
        rcases lt_trichotomy k l with hlt | heq | hgt
        · have := h k
          rw [show cellRead ((l, w) :: n) k = none from cellRead_none_of_lt (by
            intro c hc
            rcases List.mem_cons.1 hc with rfl | hc
            · exact hlt
            · exact lt_trans hlt (hn'.1 c hc))] at this
          simp [cellRead] at this
        · exact heq
        · have := h l
          rw [show cellRead ((k, v) :: m) l = none from cellRead_none_of_lt (by
            intro c hc
            rcases List.mem_cons.1 hc with rfl | hc
            · exact hgt
            · exact lt_trans hgt (hm'.1 c hc))] at this
          simp [cellRead] at this
      subst hkl
      have hvw : v = w := by simpa [cellRead] using h k
      subst hvw
      congr 1
      refine ih hm'.2 hn'.2 fun a => ?_
      by_cases hak : k = a
      · subst hak
        rw [cellRead_none_of_lt fun c hc => hm'.1 c hc, cellRead_none_of_lt fun c hc => hn'.1 c hc]
      · simpa [cellRead, hak] using h a

/-! ### Through the buffer's read -/

theorem bufRead_cellWrite_same (e : EngineId) (ep : Nat) (m : List Host.Cell) (off : Nat) (v : Byte) :
    bufRead e ep (cellWrite m (Config.mbase e + off) v) off = v := by
  simp [bufRead, cellRead_cellWrite_same]

theorem bufRead_cellWrite_other (e : EngineId) (ep : Nat) (m : List Host.Cell) {off off' : Nat} (v : Byte) (h : off' ≠ off) :
    bufRead e ep (cellWrite m (Config.mbase e + off) v) off' = bufRead e ep m off' := by
  simp [bufRead, cellRead_cellWrite_other _ _ (show Config.mbase e + off' ≠ Config.mbase e + off by omega)]

theorem bufRead_cellWrites_outside (e : EngineId) (ep : Nat) (m : List Host.Cell) (off : Nat) (bs : List Byte) {o : Nat}
    (h : o < off ∨ off + bs.length ≤ o) :
    bufRead e ep (cellWrites m (Config.mbase e + off) bs) o = bufRead e ep m o := by
  simp only [bufRead]
  rw [cellRead_cellWrites_outside _ _ _ (by omega)]

theorem bufRead_cellWrites_inside (e : EngineId) (ep : Nat) (m : List Host.Cell) (off : Nat) (bs : List Byte) {i : Nat}
    (h : i < bs.length) : bufRead e ep (cellWrites m (Config.mbase e + off) bs) (off + i) = bs[i] := by
  simp only [bufRead, ← Nat.add_assoc]
  rw [cellRead_cellWrites_inside _ _ _ h]
  rfl

/-- Writes that a later run of writes covers are lost. -/
theorem cellWrites_covered {m : List Host.Cell} (hm : cellsRising m) {a b : Nat} {xs ys : List Byte} (h1 : b ≤ a)
    (h2 : a + xs.length ≤ b + ys.length) : cellWrites (cellWrites m a xs) b ys = cellWrites m b ys := by
  refine cells_ext (cellsRising_cellWrites (cellsRising_cellWrites hm _ _) _ _) (cellsRising_cellWrites hm _ _) fun c => ?_
  by_cases hc : b ≤ c ∧ c < b + ys.length
  · obtain ⟨i, rfl⟩ := Nat.exists_eq_add_of_le hc.1
    rw [cellRead_cellWrites_inside _ _ _ (by omega), cellRead_cellWrites_inside _ _ _ (by omega)]
  · rw [cellRead_cellWrites_outside _ _ _ (by omega), cellRead_cellWrites_outside _ _ _ (by omega),
      cellRead_cellWrites_outside _ _ _ (by omega)]

end Sys2Proof.Machine
end

