-- ==== Sys2Proof/Laws/State.lean ====
section
/-! SUPPORT. One lemma per field per named update of State, so that no later proof unfolds a record update. -/

namespace Sys2Proof.Machine

/-! ### Reading an engine -/

@[simp] theorem engine_aes (s : State) : s.engine .aes = s.aes := rfl
@[simp] theorem engine_des (s : State) : s.engine .des = s.des := rfl
@[simp] theorem engine_present (s : State) : s.engine .present = s.present := rfl

/-! ### setEngine -/

@[simp] theorem setEngine_engine_same (s : State) (e : EngineId) (x : EngineOf e) : (s.setEngine e x).engine e = x := by
  cases e <;> rfl

theorem setEngine_engine_other (s : State) {e f : EngineId} (x : EngineOf e) (h : f ≠ e) :
    (s.setEngine e x).engine f = s.engine f := by
  cases e <;> cases f <;> first | rfl | exact absurd rfl h

@[simp] theorem setEngine_same_engine (s : State) (e : EngineId) : s.setEngine e (s.engine e) = s := by cases e <;> rfl

@[simp] theorem setEngine_setEngine (s : State) (e : EngineId) (x y : EngineOf e) :
    (s.setEngine e x).setEngine e y = s.setEngine e y := by cases e <;> rfl

theorem setEngine_comm (s : State) {e f : EngineId} (h : e ≠ f) (x : EngineOf e) (y : EngineOf f) :
    (s.setEngine e x).setEngine f y = (s.setEngine f y).setEngine e x := by
  cases e <;> cases f <;> first | rfl | exact absurd rfl h

@[simp] theorem setEngine_illegal (s : State) (e) (x : EngineOf e) : (s.setEngine e x).illegal = s.illegal := by cases e <;> rfl
@[simp] theorem setEngine_busyrej (s : State) (e) (x : EngineOf e) : (s.setEngine e x).busyrej = s.busyrej := by cases e <;> rfl
@[simp] theorem setEngine_ua (s : State) (e) (x : EngineOf e) : (s.setEngine e x).ua = s.ua := by cases e <;> rfl
@[simp] theorem setEngine_ub (s : State) (e) (x : EngineOf e) : (s.setEngine e x).ub = s.ub := by cases e <;> rfl
@[simp] theorem setEngine_ur (s : State) (e) (x : EngineOf e) : (s.setEngine e x).ur = s.ur := by cases e <;> rfl
@[simp] theorem setEngine_epoch (s : State) (e) (x : EngineOf e) : (s.setEngine e x).epoch = s.epoch := by cases e <;> rfl
@[simp] theorem setEngine_draws (s : State) (e) (x : EngineOf e) : (s.setEngine e x).draws = s.draws := by cases e <;> rfl
@[simp] theorem setEngine_rdata (s : State) (e) (x : EngineOf e) : (s.setEngine e x).rdata = s.rdata := by cases e <;> rfl
@[simp] theorem setEngine_vars (s : State) (e) (x : EngineOf e) : (s.setEngine e x).vars = s.vars := by cases e <;> rfl
@[simp] theorem setEngine_host (s : State) (e) (x : EngineOf e) : (s.setEngine e x).host = s.host := by cases e <;> rfl
@[simp] theorem setEngine_sched (s : State) (e) (x : EngineOf e) : (s.setEngine e x).sched = s.sched := by cases e <;> rfl

/-! ### Updates of other fields leave every engine alone -/

@[simp] theorem engine_with_ur (s : State) (v : Byte) (e) : State.engine { s with ur := v } e = s.engine e := by cases e <;> rfl
@[simp] theorem engine_with_ua (s : State) (v : Byte) (e) : State.engine { s with ua := v } e = s.engine e := by cases e <;> rfl
@[simp] theorem engine_with_ub (s : State) (v : Byte) (e) : State.engine { s with ub := v } e = s.engine e := by cases e <;> rfl
@[simp] theorem engine_with_host (s : State) (h : List HostOp) (e) : State.engine { s with host := h } e = s.engine e := by
  cases e <;> rfl
@[simp] theorem engine_with_sched (s : State) (h : List Agent) (e) : State.engine { s with sched := h } e = s.engine e := by
  cases e <;> rfl
@[simp] theorem engine_with_draws (s : State) (n : Nat) (e) : State.engine { s with draws := n } e = s.engine e := by
  cases e <;> rfl
@[simp] theorem engine_with_rdata_vars (s : State) (r : Byte) (v : List Host.Cell) (e) :
    State.engine { s with rdata := r, vars := v } e = s.engine e := by cases e <;> rfl
@[simp] theorem engine_with_rdata_host (s : State) (r : Byte) (h : List HostOp) (e) :
    State.engine { s with rdata := r, host := h } e = s.engine e := by cases e <;> rfl
@[simp] theorem setIllegal_engine (s : State) (e) : (setIllegal s).engine e = s.engine e := by cases e <;> rfl
@[simp] theorem setBusyrej_engine (s : State) (e) : (setBusyrej s).engine e = s.engine e := by cases e <;> rfl
@[simp] theorem gstatWrite_engine (v : Byte) (s : State) (e) : (gstatWrite v s).engine e = s.engine e := by cases e <;> rfl

/-! ### Updates inside setEngine's host and schedule fields commute with it -/

theorem setEngine_with_sched (s : State) (e) (x : EngineOf e) (g : List Agent) :
    { s.setEngine e x with sched := g } = State.setEngine { s with sched := g } e x := by cases e <;> rfl

theorem setEngine_with_host (s : State) (e) (x : EngineOf e) (g : List HostOp) :
    { s.setEngine e x with host := g } = State.setEngine { s with host := g } e x := by cases e <;> rfl

/-! ### GSTAT writes -/

@[simp] theorem setIllegal_illegal (s : State) : (setIllegal s).illegal = true := rfl
@[simp] theorem setIllegal_busyrej (s : State) : (setIllegal s).busyrej = s.busyrej := rfl
@[simp] theorem setBusyrej_illegal (s : State) : (setBusyrej s).illegal = s.illegal := rfl
@[simp] theorem setBusyrej_busyrej (s : State) : (setBusyrej s).busyrej = true := rfl
@[simp] theorem gstatWrite_illegal (v : Byte) (s : State) : (gstatWrite v s).illegal = (s.illegal && !v.getLsbD 0) := rfl
@[simp] theorem gstatWrite_busyrej (v : Byte) (s : State) : (gstatWrite v s).busyrej = (s.busyrej && !v.getLsbD 1) := rfl
@[simp] theorem setIllegal_vars (s : State) : (setIllegal s).vars = s.vars := rfl
@[simp] theorem setBusyrej_vars (s : State) : (setBusyrej s).vars = s.vars := rfl
@[simp] theorem gstatWrite_vars (v : Byte) (s : State) : (gstatWrite v s).vars = s.vars := rfl

/-! ### Reset -/

@[simp] theorem resetCore_engine (s : State) (e) :
    (resetCore s).engine e = { Engine.reset e with runs := (s.engine e).runs } := by cases e <;> rfl
@[simp] theorem resetCore_vars (s : State) : (resetCore s).vars = s.vars := rfl
@[simp] theorem reset_engine (e) : State.reset.engine e = Engine.reset e := by cases e <;> rfl

/-! ### A command error touches STATUS only -/

section raiseOn
variable {e : EngineId} (c : ErrCode) (x : EngineOf e)
@[simp] theorem raiseOn_status : (raiseOn c x).status = statusRefused c x.status := rfl
@[simp] theorem raiseOn_keylen : (raiseOn c x).keylen = x.keylen := rfl
@[simp] theorem raiseOn_msglen : (raiseOn c x).msglen = x.msglen := rfl
@[simp] theorem raiseOn_outlen : (raiseOn c x).outlen = x.outlen := rfl
@[simp] theorem raiseOn_key : (raiseOn c x).key = x.key := rfl
@[simp] theorem raiseOn_din : (raiseOn c x).din = x.din := rfl
@[simp] theorem raiseOn_dout : (raiseOn c x).dout = x.dout := rfl
@[simp] theorem raiseOn_msgbuf : (raiseOn c x).msgbuf = x.msgbuf := rfl
@[simp] theorem raiseOn_fsm : (raiseOn c x).fsm = x.fsm := rfl
@[simp] theorem raiseOn_lat : (raiseOn c x).lat = x.lat := rfl
@[simp] theorem raiseOn_work : (raiseOn c x).work = x.work := rfl
@[simp] theorem raiseOn_j : (raiseOn c x).j = x.j := rfl
@[simp] theorem raiseOn_nblk : (raiseOn c x).nblk = x.nblk := rfl
@[simp] theorem raiseOn_runs : (raiseOn c x).runs = x.runs := rfl
end raiseOn

/-! ### An accept writes STATUS, the latch, the working state and the FSM -/

section acceptOn
variable {e : EngineId} (v : Byte) (x : EngineOf e)
@[simp] theorem acceptOn_status : (acceptOn v x).status = statusAccepted := rfl
@[simp] theorem acceptOn_keylen : (acceptOn v x).keylen = x.keylen := rfl
@[simp] theorem acceptOn_msglen : (acceptOn v x).msglen = x.msglen := rfl
@[simp] theorem acceptOn_outlen : (acceptOn v x).outlen = x.outlen := rfl
@[simp] theorem acceptOn_key : (acceptOn v x).key = x.key := rfl
@[simp] theorem acceptOn_din : (acceptOn v x).din = x.din := rfl
@[simp] theorem acceptOn_dout : (acceptOn v x).dout = x.dout := rfl
@[simp] theorem acceptOn_msgbuf : (acceptOn v x).msgbuf = x.msgbuf := rfl
@[simp] theorem acceptOn_fsm : (acceptOn v x).fsm = .ks 1 := rfl
@[simp] theorem acceptOn_lat :
    (acceptOn v x).lat = { op := v, key := normKey e x.key x.keylen, din := x.din, mlen := x.msglen } := rfl
@[simp] theorem acceptOn_work : (acceptOn v x).work = ksInit e (normKey e x.key x.keylen) x.work := rfl
@[simp] theorem acceptOn_j : (acceptOn v x).j = x.j := rfl
@[simp] theorem acceptOn_nblk : (acceptOn v x).nblk = x.nblk := rfl
@[simp] theorem acceptOn_runs : (acceptOn v x).runs = x.runs := rfl
end acceptOn

/-! ### A completion writes OUTLEN, STATUS, the FSM and discards the hidden state -/

section completeOn
variable {e : EngineId} (n : Nat) (x : EngineOf e)
@[simp] theorem completeOn_status : (completeOn n x).status = statusCompleted x.status := rfl
@[simp] theorem completeOn_keylen : (completeOn n x).keylen = x.keylen := rfl
@[simp] theorem completeOn_msglen : (completeOn n x).msglen = x.msglen := rfl
@[simp] theorem completeOn_outlen : (completeOn n x).outlen = BitVec.ofNat 16 n := rfl
@[simp] theorem completeOn_key : (completeOn n x).key = x.key := rfl
@[simp] theorem completeOn_din : (completeOn n x).din = x.din := rfl
@[simp] theorem completeOn_dout : (completeOn n x).dout = x.dout := rfl
@[simp] theorem completeOn_msgbuf : (completeOn n x).msgbuf = x.msgbuf := rfl
@[simp] theorem completeOn_fsm : (completeOn n x).fsm = .idle := rfl
@[simp] theorem completeOn_lat : (completeOn n x).lat = latchDiscarded e x.runs := rfl
@[simp] theorem completeOn_work : (completeOn n x).work = workDiscarded e x.runs := rfl
@[simp] theorem completeOn_runs : (completeOn n x).runs = x.runs + 1 := rfl
end completeOn

end Sys2Proof.Machine
end

