-- ==== Sys2Proof/Laws/Fsm.lean ====
section
/-! SUPPORT. What accepting a command and one FSM step can do, said once, and runs of an engine's own steps. -/

namespace Sys2Proof.Machine

/-! ### Outcomes -/

@[simp] theorem outcome_next_inj {s t : State} :
    (Host.Outcome.next s : Host.Outcome State Fault Refusal) = .next t ↔ s = t := by
  constructor
  · intro h; injection h
  · rintro rfl; rfl

/-! ### Accepting a cipher command -/

/-- Acceptance of a cipher command always answers a next state, and does one of three things. -/
theorem acceptCipher_cases (e : EngineId) (v : Byte) (m : Mode) (d : Dir) (s : State) :
    ((s.engine e).status.busy = true ∧ acceptCipher e v m d s = .next (setBusyrej s)) ∨
    ((s.engine e).status.busy = false ∧ acceptCheck e m d (s.engine e) = .none ∧
      acceptCipher e v m d s = .next (s.setEngine e (acceptOn v (s.engine e)))) ∨
    ((s.engine e).status.busy = false ∧ acceptCheck e m d (s.engine e) ≠ .none ∧
      acceptCipher e v m d s = .next (raiseCmdError e (acceptCheck e m d (s.engine e)) s)) := by
  unfold acceptCipher
  cases hb : (s.engine e).status.busy with
  | true => simp
  | false =>
    cases hc : acceptCheck e m d (s.engine e) <;> simp

theorem acceptCipher_busy {e : EngineId} {s : State} (v : Byte) (m : Mode) (d : Dir)
    (hb : (s.engine e).status.busy = true) : acceptCipher e v m d s = .next (setBusyrej s) := by
  simp [acceptCipher, hb]

theorem acceptCipher_ok {e : EngineId} {s : State} (v : Byte) {m : Mode} {d : Dir}
    (hb : (s.engine e).status.busy = false) (hc : acceptCheck e m d (s.engine e) = .none) :
    acceptCipher e v m d s = .next (s.setEngine e (acceptOn v (s.engine e))) := by
  simp [acceptCipher, hb, hc]

theorem acceptCipher_error {e : EngineId} {s : State} (v : Byte) {m : Mode} {d : Dir}
    (hb : (s.engine e).status.busy = false) (hc : acceptCheck e m d (s.engine e) ≠ .none) :
    acceptCipher e v m d s = .next (raiseCmdError e (acceptCheck e m d (s.engine e)) s) := by
  unfold acceptCipher
  rw [hb]
  cases h : acceptCheck e m d (s.engine e) <;> simp_all

/-- Every cipher command is an acceptance with its own byte and fields. -/
theorem exec_cipher (e : EngineId) (m : Mode) (d : Dir) (s : State) :
    exec (instrOf (.cipher e m d)) s = acceptCipher e (encodeFields (.cipher e m d)) m d s := by
  cases e <;> cases m <;> cases d <;> rfl

/-- Every UTIL command writes UR and nothing else. -/
theorem exec_util (f : UtilFn) (s : State) : ∃ v, exec (instrOf (.util f)) s = .next { s with ur := v } := by
  cases f <;> exact ⟨_, rfl⟩

/-- Every command answers a next state. -/
theorem exec_next (i : Instr) (s : State) : ∃ t, exec i s = .next t := by
  rcases verdictOf_cases i with ⟨e, m, d, -, rfl⟩ | ⟨f, hf⟩
  · rw [exec_cipher]
    rcases acceptCipher_cases e (encodeFields (.cipher e m d)) m d s with ⟨-, h⟩ | ⟨-, -, h⟩ | ⟨-, -, h⟩ <;> exact ⟨_, h⟩
  · rw [← instrOf_verdictOf i, hf]
    obtain ⟨v, h⟩ := exec_util f s
    exact ⟨_, h⟩

/-! ### One FSM step -/

section engineStep
variable {e : EngineId} {ep : Nat} {x y : EngineOf e}

theorem engineStep_idle (h : x.fsm = .idle) : engineStep ep x = .ok x := by simp [engineStep, h]

theorem engineStep_ks {i : Nat} (h : x.fsm = .ks i) (hi : 1 ≤ i ∧ i ≤ Config.nks e) :
    engineStep ep x = .ok (afterKs i { x with work := ksStep e i x.work }) := by simp [engineStep, h, hi]

theorem engineStep_msginit (h : x.fsm = .msginit) : engineStep ep x = msginitOn x := by simp [engineStep, h]

theorem engineStep_load {blk : Vector Byte (Config.blkBytes e)} (h : x.fsm = .load) (hb : blockIn ep x = .ok blk) :
    engineStep ep x = .ok { x with
      work := loadAction e (latDir x) blk x.work, fsm := .rnd ((rounds e (latDir x)).headD 0) } := by
  simp [engineStep, h, hb]

theorem engineStep_rnd {i : Nat} {f : Fsm} (h : x.fsm = .rnd i) (hf : afterRound (rounds e (latDir x)) i = some f) :
    engineStep ep x = .ok { x with work := roundAction e (latDir x) i x.work, fsm := f } := by
  simp [engineStep, h, hf]

theorem engineStep_store (h : x.fsm = .store) : engineStep ep x = storeOut (storeAction e x.work) x := by
  simp [engineStep, h]

end engineStep

/-! ### The order of the rounds -/

theorem rounds_ne_nil (e : EngineId) (d : Dir) : rounds e d ≠ [] := by cases e <;> cases d <;> decide

theorem rounds_nodup (e : EngineId) (d : Dir) : (rounds e d).Nodup := by cases e <;> cases d <;> decide

theorem rounds_length (e : EngineId) (d : Dir) : (rounds e d).length = (rounds e .enc).length := by
  cases e <;> cases d <;> rfl

theorem afterRound_split (pre : List Nat) (i : Nat) (rest : List Nat) (h : i ∉ pre) :
    afterRound (pre ++ i :: rest) i = some (match rest with | [] => .store | n :: _ => .rnd n) := by
  induction pre with
  | nil => cases rest <;> simp [afterRound]
  | cons p pre ih =>
    simp only [List.mem_cons, not_or] at h
    simp [afterRound, Ne.symm h.1, ih h.2]

/-- After a round of the list comes STORE or another round of the list. -/
theorem afterRound_of_mem {l : List Nat} {i : Nat} (h : i ∈ l) :
    ∃ f, afterRound l i = some f ∧ (f = .store ∨ ∃ n ∈ l, f = .rnd n) := by
  induction l with
  | nil => simp at h
  | cons r rest ih =>
    by_cases hr : r = i
    · cases rest with
      | nil => exact ⟨_, by simp [afterRound, hr], .inl rfl⟩
      | cons n rest => exact ⟨_, by simp [afterRound, hr], .inr ⟨n, by simp, rfl⟩⟩
    · obtain ⟨f, hf, hc⟩ := ih (by simpa [Ne.symm hr] using h)
      refine ⟨f, by simpa [afterRound, hr] using hf, hc.imp id ?_⟩
      rintro ⟨n, hn, rfl⟩
      exact ⟨n, List.mem_cons_of_mem _ hn, rfl⟩

/-! ### Runs -/

section runs
variable {e : EngineId} {ep : Nat}

theorem engineSteps_succ {x y : EngineOf e} (k : Nat) (h : engineStep ep x = .ok y) :
    engineSteps ep (k + 1) x = engineSteps ep k y := by simp [engineSteps, h]

theorem engineSteps_add {x y : EngineOf e} {k : Nat} (l : Nat) (h : engineSteps ep k x = .ok y) :
    engineSteps ep (k + l) x = engineSteps ep l y := by
  induction k generalizing x with
  | zero => simp only [engineSteps, Except.ok.injEq] at h; subst h; simp
  | succ k ih =>
    rw [Nat.succ_add]
    simp only [engineSteps] at h ⊢
    split at h
    · next z hz => exact ih h
    · cases h

/-- The key-schedule steps, from KS(i) on. -/
theorem engineSteps_ks (n : Nat) : ∀ (i : Nat) (x : EngineOf e), x.fsm = .ks i → 1 ≤ i → i + n = Config.nks e →
    engineSteps ep (n + 1) x = .ok (afterKs (Config.nks e)
      { x with work := (List.range' i (n + 1)).foldl (fun w k => ksStep e k w) x.work, fsm := .ks (Config.nks e) }) := by
  induction n with
  | zero =>
    intro i x hx h1 hn
    rw [engineSteps_succ 0 (engineStep_ks hx ⟨h1, by omega⟩)]
    simp only [engineSteps, Nat.add_zero] at *
    subst hn
    simp [afterKs, List.range', latMode]
  | succ n ih =>
    intro i x hx h1 hn
    rw [engineSteps_succ (n + 1) (engineStep_ks hx ⟨h1, by omega⟩)]
    have hlt : i < Config.nks e := by omega
    simp only [afterKs, hlt, if_true]
    rw [ih (i + 1) _ rfl (by omega) (by omega)]
    simp [List.range'_succ, afterKs, latMode]

/-- The round steps, from the first element of a suffix of the round list on. -/
theorem engineSteps_rounds (rest : List Nat) : ∀ (pre : List Nat) (i : Nat) (x : EngineOf e), x.fsm = .rnd i →
    rounds e (latDir x) = pre ++ i :: rest →
    engineSteps ep (rest.length + 1) x = .ok
      { x with work := (i :: rest).foldl (fun w k => roundAction e (latDir x) k w) x.work, fsm := .store } := by
  induction rest with
  | nil =>
    intro pre i x hx hr
    have hni : i ∉ pre := fun h => by
      have := rounds_nodup e (latDir x)
      rw [hr] at this
      exact (List.nodup_append.1 this).2.2 i h i (by simp) rfl
    have ha := afterRound_split pre i [] hni
    rw [← hr] at ha
    rw [show ([] : List Nat).length + 1 = 0 + 1 from rfl, engineSteps_succ 0 (engineStep_rnd hx ha)]
    simp [engineSteps]
  | cons n rest ih =>
    intro pre i x hx hr
    have hni : i ∉ pre := fun h => by
      have := rounds_nodup e (latDir x)
      rw [hr] at this
      exact (List.nodup_append.1 this).2.2 i h i (by simp) rfl
    have ha := afterRound_split pre i (n :: rest) hni
    rw [← hr] at ha
    rw [List.length_cons, engineSteps_succ _ (engineStep_rnd hx ha)]
    rw [ih (pre ++ [i]) n _ rfl (by simp [latDir] at hr ⊢; exact hr)]
    simp [latDir]

/-- One block: LOAD and all rounds, up to STORE. -/
theorem engineSteps_block {x : EngineOf e} {blk : Vector Byte (Config.blkBytes e)} (h : x.fsm = .load)
    (hb : blockIn ep x = .ok blk) :
    engineSteps ep (1 + (rounds e .enc).length) x = .ok
      { x with
        work := (rounds e (latDir x)).foldl (fun w k => roundAction e (latDir x) k w) (loadAction e (latDir x) blk x.work),
        fsm := .store } := by
  rw [Nat.add_comm, engineSteps_succ _ (engineStep_load h hb), ← rounds_length e (latDir x)]
  obtain ⟨i, rest, hr⟩ := List.exists_cons_of_ne_nil (rounds_ne_nil e (latDir x))
  simp only [hr, List.length_cons, List.headD_cons]
  rw [engineSteps_rounds rest [] i _ rfl (by simpa [latDir] using hr)]
  simp [latDir]

end runs

end Sys2Proof.Machine
end

