-- ==== Sys2Proof/Laws/Runs.lean ====
section
/-! SUPPORT. Whole commands on one engine: from the accept of a block op or of a message op, the engine's own steps end in
`blockOpDone` and `msgOpDone` after the step counts of R178 (spec R180, R181). -/

namespace Sys2Proof.Machine

variable {e : EngineId} {ep : Nat}

/-! ### Lengths -/

theorem blkBytes_pos (e : EngineId) : 0 < Config.blkBytes e := by cases e <;> decide

theorem nks_pos (e : EngineId) : 1 ≤ Config.nks e := by cases e <;> decide

theorem lenCheck_none {d : Dir} {m : Nat} :
    lenCheck e d m = .none ↔ m ≤ Config.msgBufBytes ∧ (d = .dec → m % Config.blkBytes e = 0) := by
  unfold lenCheck
  by_cases h1 : Config.msgBufBytes < m
  · simp [h1]
  · cases d <;> simp [h1]
    · omega
    · by_cases h2 : m % Config.blkBytes e = 0 <;> simp [h2]
      omega

/-- A legal message length has whole padded blocks that fit the buffer and cover the message (R163, R168). -/
theorem paddedLen_legal {d : Dir} {m : Nat} (h : lenCheck e d m = .none) :
    m ≤ paddedLen e d m ∧ paddedLen e d m ≤ Config.msgBufBytes ∧
      paddedLen e d m / Config.blkBytes e * Config.blkBytes e = paddedLen e d m := by
  obtain ⟨h1, h2⟩ := lenCheck_none.1 h
  simp only [Config.msgBufBytes] at *
  cases d with
  | enc => cases e <;> simp only [paddedLen, Config.blkBytes] at * <;> omega
  | dec =>
    have := h2 rfl
    cases e <;> simp only [paddedLen, Config.blkBytes] at * <;> omega

theorem half_toNat_ofNat {n : Nat} (h : n ≤ 256) : (BitVec.ofNat 16 n).toNat = n := by
  simp; omega

/-! ### Blocks of a byte sequence -/

theorem length_mapBlocks (f : Vector Byte (Config.blkBytes e) → Vector Byte (Config.blkBytes e)) (m : List Byte) (n : Nat) :
    (mapBlocks e f m n).length = n * Config.blkBytes e := by
  induction n with
  | zero => simp [mapBlocks]
  | succ n ih =>
    simp only [mapBlocks, List.range_succ, List.flatMap_append, List.length_append] at *
    rw [ih]
    simp [Nat.succ_mul]

theorem mapBlocks_succ (f : Vector Byte (Config.blkBytes e) → Vector Byte (Config.blkBytes e)) (m : List Byte) (n : Nat) :
    mapBlocks e f m (n + 1) =
      mapBlocks e f m n ++ (f (bytesAt (Config.blkBytes e) m (n * Config.blkBytes e))).toList := by
  simp [mapBlocks, List.range_succ]

theorem getElem_bufBytes (m : List Host.Cell) (off n i : Nat) (h : i < (bufBytes e ep m off n).length) :
    (bufBytes e ep m off n)[i] = bufRead e ep m (off + i) := by simp [bufBytes]

theorem length_bufBytes (m : List Host.Cell) (off n : Nat) : (bufBytes e ep m off n).length = n := by simp [bufBytes]

/-- The padded buffer reads as the message with zeros behind it. -/
theorem bufRead_padded (m : List Host.Cell) {len p o : Nat} (hl : len ≤ p) (ho : o < p) :
    bufRead e ep (cellWrites m (Config.mbase e + len) (List.replicate (p - len) 0)) o =
      byteAt (bufBytes e ep m 0 len ++ List.replicate (p - len) 0) o := by
  by_cases h : o < len
  · rw [bufRead_cellWrites_outside _ _ _ _ _ (.inl h)]
    simp [byteAt, List.getD, List.getElem?_append_left, h, bufBytes]
  · obtain ⟨i, rfl⟩ := Nat.exists_eq_add_of_le (Nat.le_of_not_lt h)
    rw [bufRead_cellWrites_inside _ _ _ _ _ (by simp; omega)]
    simp [byteAt, List.getD, List.getElem?_append_right, length_bufBytes]

/-! ### STORE, one case at a time -/

theorem storeOut_msg_next {x : EngineOf e} {ob : Vector Byte (Config.blkBytes e)} (hm : latMode x = .msg)
    (hr : blockInRange x) (hn : x.j.toNat + 1 < x.nblk.toNat) :
    storeOut ob x = .ok { x with
      msgbuf := cellWrites x.msgbuf (Config.mbase e + x.j.toNat * Config.blkBytes e) ob.toList,
      j := x.j + 1, fsm := .load } := by
  simp only [storeOut, hm, hr, hn, if_true]

theorem storeOut_msg_last {x : EngineOf e} {ob : Vector Byte (Config.blkBytes e)} (hm : latMode x = .msg)
    (hr : blockInRange x) (hn : ¬ x.j.toNat + 1 < x.nblk.toNat) :
    storeOut ob x = .ok (completeOn (x.nblk.toNat * Config.blkBytes e) { x with
      msgbuf := cellWrites x.msgbuf (Config.mbase e + x.j.toNat * Config.blkBytes e) ob.toList }) := by
  simp only [storeOut, hm, hr, hn, if_true, if_false]

/-! ### One block -/

theorem engineSteps_one (x : EngineOf e) : engineSteps ep 1 x = engineStep ep x := by
  simp only [engineSteps]
  split <;> simp_all

/-- The working state after the rounds of one block. -/
def afterRounds (e : EngineId) (d : Dir) (blk : Vector Byte (Config.blkBytes e)) (w : Work e) : Work e :=
  (rounds e d).foldl (fun w k => roundAction e d k w) (loadAction e d blk w)

/-- From LOAD to STORE: the block function's result goes out (R173, R175). -/
theorem engineSteps_wholeBlock {x : EngineOf e} {blk : Vector Byte (Config.blkBytes e)} {k : KeyT e} (h : x.fsm = .load)
    (hb : blockIn ep x = .ok blk) (hk : Keyed e k x.work) :
    engineSteps ep ((rounds e .enc).length + 2) x =
      storeOut (blockFn e (latDir x) blk k) { x with work := afterRounds e (latDir x) blk x.work, fsm := .store } := by
  rw [show (rounds e .enc).length + 2 = 1 + (rounds e .enc).length + 1 by omega,
    engineSteps_add 1 (engineSteps_block h hb), engineSteps_one, engineStep_store rfl]
  simp only [afterRounds]
  rw [compute_block e (latDir x) blk k x.work hk]

/-- The working state after the key schedule. -/
def afterKeys (e : EngineId) (k : KeyT e) (w : Work e) : Work e :=
  (List.range' 1 (Config.nks e)).foldl (fun w i => ksStep e i w) (ksInit e k w)

/-- The key-schedule steps of an accepted command. -/
theorem engineSteps_keys (x : EngineOf e) (v : Byte) :
    engineSteps ep (Config.nks e) (acceptOn v x) = .ok (afterKs (Config.nks e)
      { acceptOn v x with work := afterKeys e (normKey e x.key x.keylen) x.work, fsm := .ks (Config.nks e) }) := by
  obtain ⟨n, hn⟩ : ∃ n, Config.nks e = 1 + n := Nat.exists_eq_add_of_le (nks_pos e)
  have hks := engineSteps_ks (ep := ep) n 1 (acceptOn v x) rfl le_rfl (by omega)
  rwa [show n + 1 = Config.nks e by omega] at hks

/-! ### A block op -/

/-- From the accept of a block op, its steps end in `blockOpDone`. -/
theorem engineSteps_blockOp (x : EngineOf e) (d : Dir) :
    engineSteps ep (blockOpSteps e) (acceptOn (encodeFields (.cipher e .blk d)) x) = .ok (blockOpDone d x) := by
  rw [show blockOpSteps e = Config.nks e + ((rounds e .enc).length + 2) by unfold blockOpSteps; omega,
    engineSteps_add _ (engineSteps_keys x _)]
  simp only [afterKs, lt_irrefl, if_false, latMode, acceptOn_lat, modeField_encodeFields]
  rw [engineSteps_wholeBlock (blk := x.din) (k := normKey e x.key x.keylen) rfl (by simp [blockIn, latMode])
    (keyed_ksFold e _ _)]
  simp only [storeOut, latMode, latDir, modeField_encodeFields, dirField_encodeFields]
  rfl

/-! ### A message op -/

/-- The message padded with zeros to whole blocks (R172). -/
def paddedMsg (e : EngineId) (ep : Nat) (buf : List Host.Cell) (m p : Nat) : List Byte :=
  bufBytes e ep buf 0 m ++ List.replicate (p - m) 0

/-- The buffer when block j of a message op is next: blocks before j hold their results. -/
def bufAtBlock (e : EngineId) (ep : Nat) (d : Dir) (k : KeyT e) (buf : List Host.Cell) (m p j : Nat) : List Host.Cell :=
  cellWrites (cellWrites buf (Config.mbase e + m) (List.replicate (p - m) 0)) (Config.mbase e)
    (mapBlocks e (fun b => blockFn e d b k) (paddedMsg e ep buf m p) j)

/-- Block j reads the padded message, whatever was stored before it. -/
theorem bufRead_bufAtBlock (d : Dir) (k : KeyT e) (buf : List Host.Cell) {m p j o : Nat} (hm : m ≤ p)
    (hj : j * Config.blkBytes e ≤ o) (ho : o < p) :
    bufRead e ep (bufAtBlock e ep d k buf m p j) o = byteAt (paddedMsg e ep buf m p) o := by
  have := bufRead_cellWrites_outside e ep (cellWrites buf (Config.mbase e + m) (List.replicate (p - m) 0)) 0
    (mapBlocks e (fun b => blockFn e d b k) (paddedMsg e ep buf m p) j) (o := o)
    (.inr (by rw [length_mapBlocks]; omega))
  rw [Nat.add_zero] at this
  rw [bufAtBlock, this]
  exact bufRead_padded buf hm ho

/-- Storing block j's result gives the buffer of block j + 1. -/
theorem bufAtBlock_succ (d : Dir) (k : KeyT e) (buf : List Host.Cell) (m p j : Nat) :
    cellWrites (bufAtBlock e ep d k buf m p j) (Config.mbase e + j * Config.blkBytes e)
      (blockFn e d (bytesAt (Config.blkBytes e) (paddedMsg e ep buf m p) (j * Config.blkBytes e)) k).toList =
    bufAtBlock e ep d k buf m p (j + 1) := by
  rw [bufAtBlock, bufAtBlock, mapBlocks_succ, cellWrites_append, length_mapBlocks]

/-- The blocks from j on. -/
theorem engineSteps_blocks {d : Dir} {k : KeyT e} {buf : List Host.Cell} {m p n : Nat} (hm : m ≤ p)
    (hp : n * Config.blkBytes e = p) (hp256 : p ≤ Config.msgBufBytes) (r : Nat) :
    ∀ (j : Nat) (x : EngineOf e), j + (r + 1) = n → x.fsm = .load → Keyed e k x.work → latMode x = .msg →
      latDir x = d → x.j = BitVec.ofNat 16 j → x.nblk = BitVec.ofNat 16 n →
      x.msgbuf = bufAtBlock e ep d k buf m p j →
      engineSteps ep ((r + 1) * ((rounds e .enc).length + 2)) x =
        .ok (completeOn p { x with msgbuf := bufAtBlock e ep d k buf m p n }) := by
  have hB := blkBytes_pos e
  have hn : n ≤ 256 := by
    have : n ≤ n * Config.blkBytes e := Nat.le_mul_of_pos_right n hB
    simp only [Config.msgBufBytes] at hp256
    omega
  induction r with
  | zero =>
    intro j x hj hf hk hmd hd hxj hxn hbuf
    have hjn : j < n := by omega
    have hjB : j * Config.blkBytes e + Config.blkBytes e ≤ p := by
      rw [← hp, ← Nat.succ_mul]; exact Nat.mul_le_mul_right _ hjn
    have hjt : x.j.toNat = j := by rw [hxj, half_toNat_ofNat (by omega)]
    have hnt : x.nblk.toNat = n := by rw [hxn, half_toNat_ofNat hn]
    have hrange : blockInRange x := by rw [blockInRange, hjt]; exact le_trans hjB hp256
    have hin : blockIn ep x = .ok (bytesAt (Config.blkBytes e) (paddedMsg e ep buf m p) (j * Config.blkBytes e)) := by
      simp only [blockIn, hmd]
      rw [if_pos hrange]
      congr 1
      apply Vector.ext
      intro i hi
      simp only [bytesAt, Vector.getElem_ofFn, hbuf, hjt]
      exact bufRead_bufAtBlock d k buf hm (by omega) (by omega)
    have hstep := engineSteps_wholeBlock hf hin hk
    rw [storeOut_msg_last (x := { x with work := _, fsm := .store }) hmd hrange (by simp only [hjt, hnt]; omega)] at hstep
    simp only [hjt, hnt, hd, hbuf, bufAtBlock_succ, hp] at hstep
    obtain rfl : n = j + 1 := by omega
    rw [Nat.zero_add, Nat.one_mul, hstep]
    rfl
  | succ r ih =>
    intro j x hj hf hk hmd hd hxj hxn hbuf
    have hjn : j + 1 < n := by omega
    have hjB : j * Config.blkBytes e + Config.blkBytes e ≤ p := by
      rw [← hp, ← Nat.succ_mul]; exact Nat.mul_le_mul_right _ (by omega)
    have hjt : x.j.toNat = j := by rw [hxj, half_toNat_ofNat (by omega)]
    have hnt : x.nblk.toNat = n := by rw [hxn, half_toNat_ofNat hn]
    have hrange : blockInRange x := by rw [blockInRange, hjt]; exact le_trans hjB hp256
    have hin : blockIn ep x = .ok (bytesAt (Config.blkBytes e) (paddedMsg e ep buf m p) (j * Config.blkBytes e)) := by
      simp only [blockIn, hmd]
      rw [if_pos hrange]
      congr 1
      apply Vector.ext
      intro i hi
      simp only [bytesAt, Vector.getElem_ofFn, hbuf, hjt]
      exact bufRead_bufAtBlock d k buf hm (by omega) (by omega)
    have hstep := engineSteps_wholeBlock hf hin hk
    rw [storeOut_msg_next (x := { x with work := _, fsm := .store }) hmd hrange (by simpa only [hjt, hnt] using hjn)] at hstep
    simp only [hjt, hd, hbuf, bufAtBlock_succ] at hstep
    rw [show (r + 1 + 1) * ((rounds e .enc).length + 2) =
      ((rounds e .enc).length + 2) + (r + 1) * ((rounds e .enc).length + 2) by ring, engineSteps_add _ hstep]
    rw [ih (j + 1) { x with
        msgbuf := bufAtBlock e ep d k buf m p (j + 1), j := x.j + 1, fsm := .load,
        work := afterRounds e d (bytesAt (Config.blkBytes e) (paddedMsg e ep buf m p) (j * Config.blkBytes e)) x.work }
      (by omega) rfl (keyed_block e d _ k x.work hk) hmd hd
      (show x.j + 1 = BitVec.ofNat 16 (j + 1) by rw [hxj]; simp [BitVec.ofNat_add]) hxn rfl]
    rfl

/-- From the accept of a message op with a legal length, its steps end in `msgOpDone`. -/
theorem engineSteps_msgOp (x : EngineOf e) (d : Dir) (hwf : cellsRising x.msgbuf)
    (hl : lenCheck e d x.msglen.toNat = .none) :
    engineSteps ep (msgOpSteps e (paddedLen e d x.msglen.toNat / Config.blkBytes e))
      (acceptOn (encodeFields (.cipher e .msg d)) x) = .ok (msgOpDone ep d x) := by
  obtain ⟨hm, hp256, hp⟩ := paddedLen_legal hl
  set m := x.msglen.toNat with hmdef
  set p := paddedLen e d m with hpdef
  set n := p / Config.blkBytes e with hndef
  set k := normKey e x.key x.keylen with hkdef
  have hmsg : mapBlocks e (fun b => blockFn e d b k) (paddedMsg e ep x.msgbuf m p) n =
      msgFn e d (bufBytes e ep x.msgbuf 0 m) k := by
    cases d with
    | enc => simp [msgFn, msgEnc, paddedMsg, length_bufBytes, blockFn, hndef, hpdef]
    | dec => simp [msgFn, msgDec, paddedMsg, length_bufBytes, blockFn, hndef, hpdef, paddedLen]
  have hfinal : bufAtBlock e ep d k x.msgbuf m p n =
      cellWrites x.msgbuf (Config.mbase e) (msgFn e d (bufBytes e ep x.msgbuf 0 m) k) := by
    rw [bufAtBlock, hmsg]
    refine cellWrites_covered hwf (by omega) ?_
    rw [← hmsg, length_mapBlocks, hp]
    simp; omega
  have hpad : padBuf e d m x.msgbuf = bufAtBlock e ep d k x.msgbuf m p 0 := by
    cases d with
    | enc => simp [bufAtBlock, mapBlocks, cellWrites, padBuf, hpdef]
    | dec => simp [bufAtBlock, mapBlocks, cellWrites, padBuf, hpdef, paddedLen]
  rw [show msgOpSteps e n = Config.nks e + (1 + n * ((rounds e .enc).length + 2)) by unfold msgOpSteps; omega,
    engineSteps_add _ (engineSteps_keys x _)]
  simp only [afterKs, lt_irrefl, if_false, latMode, acceptOn_lat, modeField_encodeFields]
  have hinit : engineStep ep (({ acceptOn (encodeFields (.cipher e .msg d)) x with
      work := afterKeys e k x.work, fsm := .msginit } : EngineOf e)) =
      .ok (if n = 0 then completeOn 0 { acceptOn (encodeFields (.cipher e .msg d)) x with
          work := afterKeys e k x.work, fsm := .msginit, msgbuf := bufAtBlock e ep d k x.msgbuf m p 0,
          nblk := BitVec.ofNat 16 n, j := 0 }
        else { acceptOn (encodeFields (.cipher e .msg d)) x with
          work := afterKeys e k x.work, fsm := .load, msgbuf := bufAtBlock e ep d k x.msgbuf m p 0,
          nblk := BitVec.ofNat 16 n, j := 0 }) := by
    rw [engineStep_msginit rfl]
    simp only [msginitOn, latPadded, latDir, acceptOn_lat, dirField_encodeFields]
    rw [if_pos hp256]
    simp only [← hpad]
    rfl
  by_cases hn0 : n = 0
  · have hp0 : p = 0 := by rw [← hp, hn0, Nat.zero_mul]
    have hf0 := hfinal
    rw [hn0] at hf0
    rw [if_pos hn0, hf0] at hinit
    rw [show 1 + n * ((rounds e .enc).length + 2) = 1 by rw [hn0, Nat.zero_mul], engineSteps_one]
    refine hinit.trans ?_
    show _ = Except.ok (completeOn p _)
    rw [hp0]
    rfl
  · rw [if_neg hn0] at hinit
    obtain ⟨r, hr⟩ := Nat.exists_eq_succ_of_ne_zero hn0
    have hy := engineSteps_blocks (ep := ep) (d := d) (k := k) (buf := x.msgbuf) hm hp hp256 r 0
      { acceptOn (encodeFields (.cipher e .msg d)) x with
        work := afterKeys e k x.work, fsm := .load, msgbuf := bufAtBlock e ep d k x.msgbuf m p 0,
        nblk := BitVec.ofNat 16 n, j := 0 }
      (by omega) rfl (keyed_ksFold e k x.work) (modeField_encodeFields e .msg d) (dirField_encodeFields e .msg d)
      rfl rfl rfl
    have hrun := engineSteps_add (n * ((rounds e .enc).length + 2)) ((engineSteps_one _).trans hinit)
    refine hrun.trans ?_
    rw [show n * ((rounds e .enc).length + 2) = (r + 1) * ((rounds e .enc).length + 2) by rw [hr], hy, hfinal]
    rfl

end Sys2Proof.Machine
end

