-- ==== Sys2Proof/Laws/Invariant.lean ====
section
/-! SUPPORT. The invariant of one engine, through each operation that changes an engine. -/

namespace Sys2Proof.Machine

variable {e : EngineId} {ep : Nat} {x : EngineOf e}

/-! ### Reset and host writes -/

theorem engineInv_reset (e : EngineId) : EngineInv (Engine.reset e) where
  mem_wf := ⟨List.Pairwise.nil, fun _ h => nomatch h⟩
  busy_iff := by simp [Engine.reset, Status.reset]
  one_flag := by simp [Engine.reset, Status.reset]
  err_code := by simp [Engine.reset, Status.reset]
  fsm_legal := trivial
  op_legal := fun h => absurd rfl h
  msg_len := fun h => absurd rfl h
  counters := fun h => h.elim

/-- The invariant reads neither the host's registers nor DOUT and OUTLEN. -/
theorem engineInv_congr {y : EngineOf e} (h : EngineInv x) (hs : y.status = x.status) (hf : y.fsm = x.fsm)
    (hl : y.lat = x.lat) (hj : y.j = x.j) (hn : y.nblk = x.nblk) (hm : Memory.wf e y.msgbuf) : EngineInv y where
  mem_wf := hm
  busy_iff := by rw [hs, hf]; exact h.busy_iff
  one_flag := by rw [hs]; exact h.one_flag
  err_code := by rw [hs]; exact h.err_code
  fsm_legal := by
    have := h.fsm_legal
    simp only [fsmLegal, latMode, latDir, hf, hl] at this ⊢
    exact this
  op_legal := by rw [hf, hl]; exact h.op_legal
  msg_len := by
    have := h.msg_len
    simp only [latMode, latDir, hf, hl] at this ⊢
    exact this
  counters := by
    have := h.counters
    simp only [countersOk, latPadded, latMode, latDir, hf, hl, hj, hn] at this ⊢
    exact this

theorem engineInv_regWrite (h : EngineInv x) (v : Byte) (r : EngReg) : EngineInv (regWrite v x r) := by
  cases r <;> exact engineInv_congr h rfl rfl rfl rfl rfl h.mem_wf

theorem engineInv_bufWrite (h : EngineInv x) {off : Nat} (ho : off < Config.msgBufBytes) (v : Byte) :
    EngineInv (bufWrite off v x) := by
  unfold bufWrite
  split
  · exact h
  · exact engineInv_congr h rfl rfl rfl rfl rfl (Memory.wf_cellWrite h.mem_wf ho v)

/-! ### Accept -/

theorem fsm_idle_of_not_busy (h : EngineInv x) (hb : x.status.busy = false) : x.fsm = .idle := by
  by_contra hf
  rw [h.busy_iff.2 hf] at hb
  cases hb

theorem engineInv_raise (h : EngineInv x) (hb : x.status.busy = false) {c : ErrCode} (hc : c ≠ .none) :
    EngineInv (raiseOn c x) where
  mem_wf := h.mem_wf
  busy_iff := h.busy_iff
  one_flag := by simp [statusRefused, hb]
  err_code := by simp [statusRefused, hc]
  fsm_legal := h.fsm_legal
  op_legal := h.op_legal
  msg_len := h.msg_len
  counters := h.counters

/-- An accepted message op has a legal length. -/
theorem lenCheck_of_acceptCheck {d : Dir} (h : acceptCheck e .msg d x = .none) :
    lenCheck e d x.msglen.toNat = .none := by
  unfold acceptCheck at h
  split at h
  · exact h
  · next hne => exact absurd h hne

theorem engineInv_accept (h : EngineInv x) {m : Mode} {d : Dir} (hc : acceptCheck e m d x = .none) :
    EngineInv (acceptOn (encodeFields (.cipher e m d)) x) where
  mem_wf := h.mem_wf
  busy_iff := by simp [statusAccepted]
  one_flag := by simp [statusAccepted]
  err_code := by simp [statusAccepted]
  fsm_legal := ⟨le_rfl, nks_pos e⟩
  op_legal := fun _ => ⟨m, d, rfl⟩
  msg_len := by
    intro _ hm
    simp only [latMode, latDir, acceptOn_lat, modeField_encodeFields, dirField_encodeFields] at hm ⊢
    subst hm
    exact lenCheck_of_acceptCheck hc
  counters := fun h => h.elim

/-! ### FSM steps -/

theorem engineInv_complete (h : EngineInv x) (hb : x.status.busy = true) (n : Nat) {y : EngineOf e}
    (hs : y.status = x.status) (hm : Memory.wf e y.msgbuf) : EngineInv (completeOn n y) where
  mem_wf := hm
  busy_iff := by simp [statusCompleted]
  one_flag := by
    have := h.one_flag
    simp [statusCompleted, hs]
    simp [hb] at this
    exact this.2.1
  err_code := by
    rw [completeOn_status, hs]
    exact h.err_code
  fsm_legal := trivial
  op_legal := fun h => absurd rfl h
  msg_len := fun h => absurd rfl h
  counters := fun h => h.elim

/-- An FSM move inside a command keeps the invariant when the new FSM state and counters are legal. -/
theorem engineInv_move (h : EngineInv x) (hf : x.fsm ≠ .idle) {y : EngineOf e} (hs : y.status = x.status)
    (hl : y.lat = x.lat) (hm : Memory.wf e y.msgbuf) (hyf : y.fsm ≠ .idle) (hlegal : fsmLegal y)
    (hc : inBlock y.fsm → countersOk y) : EngineInv y where
  mem_wf := hm
  busy_iff := by rw [hs]; simp [h.busy_iff.2 hf, hyf]
  one_flag := by rw [hs]; exact h.one_flag
  err_code := by rw [hs]; exact h.err_code
  fsm_legal := hlegal
  op_legal := fun _ => by rw [hl]; exact h.op_legal hf
  msg_len := fun _ => by
    have := h.msg_len hf
    simp only [latMode, latDir, hl] at this ⊢
    exact this
  counters := hc

theorem countersOk_congr {y : EngineOf e} (h : countersOk x) (hl : y.lat = x.lat) (hj : y.j = x.j) (hn : y.nblk = x.nblk) :
    countersOk y := by
  simp only [countersOk, latPadded, latMode, latDir, hl, hj, hn] at h ⊢
  exact h

/-- In a message op, the block in progress lies in the buffer. -/
theorem blockInRange_of_inv (h : EngineInv x) (hf : x.fsm ≠ .idle) (hm : latMode x = .msg) (hc : countersOk x) :
    blockInRange x := by
  have hl := paddedLen_legal (h.msg_len hf hm)
  simp only [countersOk, hm, latPadded] at hc
  have : (x.j.toNat + 1) * Config.blkBytes e ≤ x.nblk.toNat * Config.blkBytes e := Nat.mul_le_mul_right _ hc.2
  rw [Nat.succ_mul] at this
  unfold blockInRange
  omega

/-- Every step of an engine that meets the invariant is taken, and keeps it. -/
theorem engineInv_step (h : EngineInv x) : ∃ y, engineStep ep x = .ok y ∧ EngineInv y := by
  cases hf : x.fsm with
  | idle => exact ⟨x, engineStep_idle hf, h⟩
  | ks i =>
    have hne : x.fsm ≠ .idle := by rw [hf]; nofun
    have hlegal : 1 ≤ i ∧ i ≤ Config.nks e := by simpa [fsmLegal, hf] using h.fsm_legal
    refine ⟨_, engineStep_ks hf hlegal, ?_⟩
    unfold afterKs
    split
    · exact engineInv_move h hne rfl rfl h.mem_wf nofun ⟨by omega, by omega⟩ fun hb => hb.elim
    · split
      · next hm => exact engineInv_move h hne rfl rfl h.mem_wf nofun hm fun hb => hb.elim
      · next hm =>
        refine engineInv_move h hne rfl rfl h.mem_wf nofun trivial fun _ => ?_
        simp only [latMode] at hm
        simp [countersOk, latMode, hm]
  | msginit =>
    have hne : x.fsm ≠ .idle := by rw [hf]; nofun
    have hm : latMode x = .msg := by simpa [fsmLegal, hf] using h.fsm_legal
    have hlen := h.msg_len hne hm
    obtain ⟨h1, h2, h3⟩ := paddedLen_legal hlen
    have hwf : Memory.wf e (padBuf e (latDir x) x.lat.mlen.toNat x.msgbuf) := by
      unfold padBuf
      split
      · next hd => exact Memory.wf_cellWrites h.mem_wf (by simp; rw [hd] at h1 h2; omega)
      · exact h.mem_wf
    rw [engineStep_msginit hf]
    refine ⟨_, if_pos h2, ?_⟩
    split
    · exact engineInv_complete h (h.busy_iff.2 hne) 0 rfl hwf
    · next hn0 =>
      refine engineInv_move h hne rfl rfl hwf nofun trivial fun _ => ?_
      have hle : paddedLen e (latDir x) x.lat.mlen.toNat / Config.blkBytes e ≤ 256 :=
        le_trans (Nat.div_le_self _ _) h2
      simp only [countersOk, latMode, latPadded, latDir] at hm hn0 hle h3 ⊢
      rw [hm]
      simp only
      rw [half_toNat_ofNat hle]
      exact ⟨h3, Nat.pos_of_ne_zero hn0⟩
  | load =>
    have hne : x.fsm ≠ .idle := by rw [hf]; nofun
    have hc : countersOk x := h.counters (by rw [hf]; trivial)
    have hb : ∃ blk, blockIn ep x = .ok blk := by
      unfold blockIn
      split
      · exact ⟨_, rfl⟩
      · next hm => rw [if_pos (blockInRange_of_inv h hne hm hc)]; exact ⟨_, rfl⟩
    obtain ⟨blk, hb⟩ := hb
    refine ⟨_, engineStep_load hf hb, ?_⟩
    refine engineInv_move h hne rfl rfl h.mem_wf nofun ?_ fun _ => countersOk_congr hc rfl rfl rfl
    show (rounds e (latDir x)).headD 0 ∈ rounds e (latDir x)
    obtain ⟨i, rest, hr⟩ := List.exists_cons_of_ne_nil (rounds_ne_nil e (latDir x))
    simp [hr]
  | rnd i =>
    have hne : x.fsm ≠ .idle := by rw [hf]; nofun
    have hc : countersOk x := h.counters (by rw [hf]; trivial)
    have hi : i ∈ rounds e (latDir x) := by simpa [fsmLegal, hf] using h.fsm_legal
    obtain ⟨f, hfa, hcase⟩ := afterRound_of_mem hi
    refine ⟨_, engineStep_rnd hf hfa, ?_⟩
    rcases hcase with rfl | ⟨n, hn, rfl⟩
    · exact engineInv_move h hne rfl rfl h.mem_wf nofun trivial fun _ => countersOk_congr hc rfl rfl rfl
    · exact engineInv_move h hne rfl rfl h.mem_wf nofun hn fun _ => countersOk_congr hc rfl rfl rfl
  | store =>
    have hne : x.fsm ≠ .idle := by rw [hf]; nofun
    have hc : countersOk x := h.counters (by rw [hf]; trivial)
    rw [engineStep_store hf]
    cases hm : latMode x with
    | blk =>
      refine ⟨_, by simp only [storeOut, hm]; rfl, ?_⟩
      exact engineInv_complete h (h.busy_iff.2 hne) _ rfl h.mem_wf
    | msg =>
      have hr := blockInRange_of_inv h hne hm hc
      have hwf : Memory.wf e (cellWrites x.msgbuf (Config.mbase e + x.j.toNat * Config.blkBytes e)
          (storeAction e x.work).toList) := by
        refine Memory.wf_cellWrites h.mem_wf ?_
        simpa using hr
      by_cases hn : x.j.toNat + 1 < x.nblk.toNat
      · refine ⟨_, storeOut_msg_next hm hr hn, ?_⟩
        refine engineInv_move h hne rfl rfl hwf nofun trivial fun _ => ?_
        simp only [countersOk, latPadded, latDir, latMode] at hc hm ⊢
        rw [hm] at hc ⊢
        simp only at hc ⊢
        refine ⟨hc.1, ?_⟩
        have := x.nblk.isLt
        rw [BitVec.toNat_add]
        simp
        omega
      · refine ⟨_, storeOut_msg_last hm hr hn, ?_⟩
        exact engineInv_complete h (h.busy_iff.2 hne) _ rfl hwf

end Sys2Proof.Machine
end

