-- ==== Sys2Proof/Laws/PerInstr.lean ====
section
/-! SUPPORT. A family of facts about each command as syntax: its byte decodes to it, and it is well formed. -/

namespace Sys2Proof.Laws.CommandByte

/-- The command's byte (30_encoding.md R126) decodes to the command. -/
def Statement (i : Instr) : Prop := decode (encode i) = .ok i ∧ i.wellFormed = true

theorem aesEncBlk : Statement .aesEncBlk := ⟨rfl, rfl⟩
theorem aesDecBlk : Statement .aesDecBlk := ⟨rfl, rfl⟩
theorem aesEncMsg : Statement .aesEncMsg := ⟨rfl, rfl⟩
theorem aesDecMsg : Statement .aesDecMsg := ⟨rfl, rfl⟩
theorem desEncBlk : Statement .desEncBlk := ⟨rfl, rfl⟩
theorem desDecBlk : Statement .desDecBlk := ⟨rfl, rfl⟩
theorem desEncMsg : Statement .desEncMsg := ⟨rfl, rfl⟩
theorem desDecMsg : Statement .desDecMsg := ⟨rfl, rfl⟩
theorem presentEncBlk : Statement .presentEncBlk := ⟨rfl, rfl⟩
theorem presentDecBlk : Statement .presentDecBlk := ⟨rfl, rfl⟩
theorem presentEncMsg : Statement .presentEncMsg := ⟨rfl, rfl⟩
theorem presentDecMsg : Statement .presentDecMsg := ⟨rfl, rfl⟩
theorem gfMul : Statement .gfMul := ⟨rfl, rfl⟩
theorem aesSbox : Statement .aesSbox := ⟨rfl, rfl⟩
theorem aesInvSbox : Statement .aesInvSbox := ⟨rfl, rfl⟩
theorem presentSbox : Statement .presentSbox := ⟨rfl, rfl⟩
theorem presentInvSbox : Statement .presentInvSbox := ⟨rfl, rfl⟩
theorem desSbox : Statement .desSbox := ⟨rfl, rfl⟩

end Sys2Proof.Laws.CommandByte
end

