-- ==== Sys2Proof/Laws/Source.lean ====
section
/-! SUPPORT. What each of the source's calls gives on arguments in its domain, and that a text outside it is refused. -/

namespace Sys2Proof.Machine

theorem stringToBytes_ok {t : List Nat} (h : ∀ c ∈ t, c ≤ 255) : stringToBytes t = .ok (t.map (BitVec.ofNat 8)) :=
  if_pos (by simpa using h)

theorem stringToBytes_refused {t : List Nat} (h : ∃ c ∈ t, 255 < c) : stringToBytes t = .error .ordinalAbove255 :=
  if_neg (by simpa using h)

theorem sourceKey_aes {k : List Nat} (h : ∀ c ∈ k, c ≤ 255) (hl : k.length = 16) :
    sourceKey .aes k = .ok (bytesAt 16 (k.map (BitVec.ofNat 8)) 0) := by
  simp [sourceKey, stringToBytes_ok h, Except.bind, hl]

theorem sourceKey_aes_refused {k : List Nat} (h : ∀ c ∈ k, c ≤ 255) (hl : k.length ≠ 16) :
    sourceKey .aes k = .error .invalidKeyLength := by
  simp [sourceKey, stringToBytes_ok h, Except.bind, hl]

theorem sourceKey_des {k : List Nat} (h : ∀ c ∈ k, c ≤ 255) :
    sourceKey .des k = .ok (keyBitsDes (k.map (BitVec.ofNat 8))) := by
  simp [sourceKey, stringToBytes_ok h, Except.map]

theorem sourceKey_present {k : List Nat} (h : ∀ c ∈ k, c ≤ 255) :
    sourceKey .present k = .ok (keyIntPresent (k.map (BitVec.ofNat 8))) := by
  simp [sourceKey, stringToBytes_ok h, Except.map]

/-- An encrypt call is the message function of the text's bytes. -/
theorem sourceEncrypt_ok {e : EngineId} {t k : List Nat} {key : KeyT e} (ht : ∀ c ∈ t, c ≤ 255)
    (hk : sourceKey e k = .ok key) : sourceEncrypt e t k = .ok (msgEnc e (t.map (BitVec.ofNat 8)) key) := by
  simp [sourceEncrypt, stringToBytes_ok ht, hk, Except.bind, Except.map]

/-- A decrypt call of whole blocks is the message function of the ciphertext. -/
theorem sourceDecrypt_ok {e : EngineId} {c : List Byte} {k : List Nat} {key : KeyT e} (hk : sourceKey e k = .ok key)
    (hc : c.length % Config.blkBytes e = 0) : sourceDecrypt e c k = .ok (msgDec e c key) := by
  simp [sourceDecrypt, hk, Except.bind, hc]

/-- A key that is refused is refused before the ciphertext is looked at. -/
theorem sourceDecrypt_key_refused {e : EngineId} {c : List Byte} {k : List Nat} {r : Refusal}
    (hk : sourceKey e k = .error r) : sourceDecrypt e c k = .error r := by
  simp [sourceDecrypt, hk, Except.bind]

end Sys2Proof.Machine
end

