-- ==== Sys2Proof/Laws/Step.lean ====
section
/-! SUPPORT. What a bus access and a step of the machine can do, said once, and runs of one engine's turns on the machine. -/

namespace Sys2Proof.Machine

/-! ### Addresses -/

/-- A buffer location's offset is inside the buffer. -/
theorem locate_msgbuf {a : Addr} {e : EngineId} {off : Nat} (h : locate a = .msgbuf e off) : off < Config.msgBufBytes := by
  have hlt : a.toNat % 256 < 256 := Nat.mod_lt _ (by decide)
  simp only [Config.msgBufBytes]
  unfold locate at h
  split at h <;> simp only [locateGlobal, locateReg, locateBuf, locateUtil] at h <;> (repeat' split at h) <;>
    cases h
  all_goals exact hlt

/-! ### Host reads -/

/-- A read leaves the state alone but for the count of free values drawn. -/
theorem locRead_state (s : State) (l : Loc) :
    (locRead s l).2 = s ∨ ((locRead s l).2 = { s with draws := s.draws + 1 } ∧
      ∃ e off, l = .msgbuf e off ∧ msgOpRunning (s.engine e) = true) := by
  cases l with
  | msgbuf e off =>
    by_cases h : msgOpRunning (s.engine e) = true
    · exact .inr ⟨by simp [locRead, h], e, off, rfl, h⟩
    · exact .inl (by simp [locRead, h])
  | _ => exact .inl rfl

@[simp] theorem locRead_engine (s : State) (l : Loc) (e : EngineId) : ((locRead s l).2).engine e = s.engine e := by
  rcases locRead_state s l with h | ⟨h, -⟩ <;> rw [h]
  simp

@[simp] theorem busRead_engine (s : State) (a : Addr) (e : EngineId) : ((busRead s a).2).engine e = s.engine e :=
  locRead_engine s _ e

@[simp] theorem busRead_vars (s : State) (a : Addr) : ((busRead s a).2).vars = s.vars := by
  unfold busRead
  rcases locRead_state s (locate a) with h | ⟨h, -⟩ <;> rw [h]

/-! ### Values of a host program -/

@[simp] theorem hostValue_byte (vars : List Host.Cell) (v : Byte) : hostValue vars (.byte v) = v := rfl

/-- A bound name is the byte bound to it. -/
theorem hostValue_bound {vars : List Host.Cell} {n : Nat} {v : Byte} (h : cellRead vars n = some v) :
    hostValue vars (.name n) = v := by simp [hostValue, h]

/-! ### Commands -/

/-- A host write to CMD always answers a next state. -/
theorem cmdWrite_next (v : Byte) (s : State) : ∃ t, cmdWrite v s = .next t := by
  unfold cmdWrite
  split
  · exact exec_next _ _
  · exact ⟨_, rfl⟩

/-- What a CMD write does (R160): an illegal byte, a UTIL command, or a cipher command. -/
theorem cmdWrite_cases (v : Byte) (s : State) :
    ((∃ r, decodeFields v = .error r) ∧ cmdWrite v s = .next (setIllegal s)) ∨
    (∃ f u, decodeFields v = .ok (.util f) ∧ cmdWrite v s = .next { s with ur := u }) ∨
    (∃ e m d, v = encodeFields (.cipher e m d) ∧ decodeFields v = .ok (.cipher e m d) ∧
      cmdWrite v s = acceptCipher e v m d s) := by
  cases hd : decodeFields v with
  | error r => exact .inl ⟨⟨r, rfl⟩, by simp [cmdWrite, decode, hd, Except.map]⟩
  | ok w =>
    cases w with
    | util f =>
      obtain ⟨u, hu⟩ := exec_util f s
      exact .inr (.inl ⟨f, u, rfl, by simp [cmdWrite, decode, hd, Except.map, hu]⟩)
    | cipher e m d =>
      have hv := encodeFields_of_decodeFields hd
      refine .inr (.inr ⟨e, m, d, hv.symm, rfl, ?_⟩)
      simp [cmdWrite, decode, hd, Except.map, exec_cipher, hv]

/-- A host write always answers a next state. -/
theorem busWrite_next (s : State) (a : Addr) (v : Byte) : ∃ t, busWrite s a v = .next t := by
  unfold busWrite locWrite
  split
  · exact cmdWrite_next v s
  all_goals exact ⟨_, rfl⟩

/-- A host turn always answers a next state: no access waits and none faults (20_memory.md R83). -/
theorem hostTurn_next (s : State) : ∃ t, hostTurn s = .next t := by
  unfold hostTurn
  split
  · exact ⟨_, rfl⟩
  · exact busWrite_next _ _ _
  · exact ⟨_, rfl⟩
  · exact ⟨_, rfl⟩

/-! ### One step -/

theorem step_sched {s : State} {g : Agent} {rest : List Agent} (h : s.sched = g :: rest) :
    step s = agentTurn g { s with sched := rest } := by simp [step, nextAgent, h]

theorem step_default {s : State} (h : s.sched = []) : step s = agentTurn (defaultAgent s) s := by
  simp [step, nextAgent, h]

theorem engineTurn_ok {s : State} {e : EngineId} {y : EngineOf e} (h : engineStep s.epoch (s.engine e) = .ok y) :
    engineTurn e s = .next (s.setEngine e y) := by simp [engineTurn, h]

theorem engineTurn_next {s t : State} {e : EngineId} (h : engineTurn e s = .next t) :
    ∃ y, engineStep s.epoch (s.engine e) = .ok y ∧ t = s.setEngine e y := by
  unfold engineTurn at h
  split at h
  · next y hy => exact ⟨y, hy, by injection h with h; exact h.symm⟩
  · cases h

/-! ### Runs of one engine's turns -/

/-- An engine's own steps, as turns in a row of the machine. -/
theorem steps_scheduleEngine {e : EngineId} (k : Nat) : ∀ {s : State} {y : EngineOf e},
    engineSteps s.epoch k (s.engine e) = .ok y → steps k (scheduleEngine e k s) = .next (s.setEngine e y) := by
  induction k with
  | zero =>
    intro s y h
    simp only [engineSteps, Except.ok.injEq] at h
    subst h
    simp [steps, scheduleEngine]
  | succ k ih =>
    intro s y h
    simp only [engineSteps] at h
    split at h
    · next z hz =>
      have hstep : step (scheduleEngine e (k + 1) s) = .next (scheduleEngine e k (s.setEngine e z)) := by
        rw [step_sched (g := .engine e) (rest := List.replicate k (.engine e) ++ s.sched)
          (by simp [scheduleEngine, List.replicate_succ])]
        rw [agentTurn, engineTurn_ok (y := z) (by simpa [scheduleEngine] using hz)]
        simp only [scheduleEngine, setEngine_sched]
        rw [setEngine_with_sched]
      simp only [steps, hstep]
      rw [ih (by simpa using h)]
      simp
    · cases h

end Sys2Proof.Machine
end

