-- ==== Sys2Proof/Tests/Slice0.lean ====
section
/-! SUPPORT. The model's own tests: what the spec's vectors and encodings say (95_test_vectors.md, 30_encoding.md), and for every
obligation with hypotheses a witness that meets them. -/

namespace Sys2Proof.Tests

open Sys2Proof Sys2Proof.Machine

/-! ### Helpers -/

/-- What a function of the next state gives; none for a fault or a refusal. -/
def onNext {α : Type} (o : Host.Outcome State Fault Refusal) (f : State → α) : Option α :=
  match o with
  | .next s => some (f s)
  | .fault _ => none
  | .refused _ => none

/-- The `n` bytes of a hexadecimal number, first byte most significant. -/
def hex (n : Nat) (v : Nat) : Vector Byte n := Vector.ofFn fun i : Fin n => BitVec.ofNat 8 (v >>> (8 * (n - 1 - i.val)))

/-- The command a byte decodes to. -/
def decoded (v : Byte) : Option Instr := decodeTableWord 8 v.toNat

/-- A state that holds UA and UB, and a UR to be overwritten. -/
def utilState (ua ub : Byte) : State := { State.reset with ua := ua, ub := ub, ur := 0xEE }

/-- Every engine idle, with an AES key length and a message length. -/
def idleState (keylen : Byte) (msglen : Half) : State :=
  { State.reset with
    aes := { Engine.reset .aes with keylen := keylen, msglen := msglen },
    des := { Engine.reset .des with msglen := msglen },
    present := { Engine.reset .present with msglen := msglen } }

/-- The state after the accept of a cipher command on `idleState`. -/
def running (e : EngineId) (m : Mode) (d : Dir) (msglen : Half) : State :=
  (idleState 16 msglen).setEngine e (acceptOn (encodeFields (.cipher e m d)) ((idleState 16 msglen).engine e))

/-- An engine in a given FSM state, with a latched command and message length. -/
def engineAt (e : EngineId) (m : Mode) (d : Dir) (mlen : Half) (fsm : Fsm) : EngineOf e :=
  { Engine.reset e with
    status := statusAccepted, fsm := fsm, lat := { Latch.reset e with op := encodeFields (.cipher e m d), mlen := mlen } }

/-! ### Well-formedness -/

theorem test_wf_commands : [Instr.aesEncBlk, .presentDecMsg, .gfMul, .desSbox].all Instr.wellFormed = true := by decide
theorem test_wf_wr16_last : HostLine.wellFormed (.wr16 0xFFE 0x1234) = true := by decide
theorem test_wf_wr16_past_end : HostLine.wellFormed (.wr16 0xFFF 0x1234) = false := by decide
theorem test_wf_wrbytes_past_end : HostLine.wellFormed (.wrbytes 0xFFE [.byte 1, .byte 2, .byte 3]) = false := by decide
/-- Program P2's copy of DOUT into DIN, and the same with a name that no read has bound. -/
theorem test_wf_names :
    programWellFormed [.rdbytes 0x130 16 0, .wrbytes 0x120 [.name 0, .name 15]] = true ∧
    programWellFormed [.rdbytes 0x130 16 0, .wrbytes 0x120 [.name 0, .name 16]] = false ∧
    programWellFormed [.op (.poll 0x100 (.name 0) (.byte 0))] = false := by decide
theorem test_wf_rdbytes_past_end : HostLine.wellFormed (.rdbytes 0xFFF 2 0) = false := by decide

/-! ### Decoding: each byte is written bit by bit from R121 to R124, UNIT, Z, MODE, DIR or UNIT, FUNC -/

theorem test_decode_aes_enc_blk : decoded 0b00010000#8 = some .aesEncBlk := by decide
theorem test_decode_aes_dec_blk : decoded 0b00010001#8 = some .aesDecBlk := by decide
theorem test_decode_aes_enc_msg : decoded 0b00010010#8 = some .aesEncMsg := by decide
theorem test_decode_aes_dec_msg : decoded 0b00010011#8 = some .aesDecMsg := by decide
theorem test_decode_des_enc_blk : decoded 0b00100000#8 = some .desEncBlk := by decide
theorem test_decode_des_dec_blk : decoded 0b00100001#8 = some .desDecBlk := by decide
theorem test_decode_des_enc_msg : decoded 0b00100010#8 = some .desEncMsg := by decide
theorem test_decode_des_dec_msg : decoded 0b00100011#8 = some .desDecMsg := by decide
theorem test_decode_present_enc_blk : decoded 0b00110000#8 = some .presentEncBlk := by decide
theorem test_decode_present_dec_blk : decoded 0b00110001#8 = some .presentDecBlk := by decide
theorem test_decode_present_enc_msg : decoded 0b00110010#8 = some .presentEncMsg := by decide
theorem test_decode_present_dec_msg : decoded 0b00110011#8 = some .presentDecMsg := by decide
theorem test_decode_gf_mul : decoded 0b01000000#8 = some .gfMul := by decide
theorem test_decode_aes_sbox : decoded 0b01000001#8 = some .aesSbox := by decide
theorem test_decode_aes_inv_sbox : decoded 0b01000010#8 = some .aesInvSbox := by decide
theorem test_decode_present_sbox : decoded 0b01000011#8 = some .presentSbox := by decide
theorem test_decode_present_inv_sbox : decoded 0b01000100#8 = some .presentInvSbox := by decide
theorem test_decode_des_sbox : decoded 0b01000101#8 = some .desSbox := by decide

/-- T-E-1, T-E-2, T-E-7, T-E-8, T-E-11, T-E-14, T-E-21, T-E-22. -/
theorem test_decode_illegal :
    ([0x00, 0x0F, 0x14, 0x18, 0x1C, 0x1F, 0x24, 0x2F, 0x34, 0x3F, 0x46, 0x4F, 0x50, 0x80, 0xFF] : List Byte).all
      (fun v => (decoded v).isNone) = true := by decide

/-- Each reason by its name (R127). -/
theorem test_decode_reasons :
    decode 0x50 = .error .unknownUnit ∧ decode 0x14 = .error .zNotZero ∧ decode 0x46 = .error .unknownFunc :=
  ⟨rfl, rfl, rfl⟩

/-! ### One command after reset (95_test_vectors.md, section 2) -/

/-- T-E-1. -/
theorem test_step_illegal : onNext (step (State.reset.withFetchWord 8 0x00)) gstatByte = some 0x01 := by decide
/-- T-E-3: KEYLEN is 0 at reset. -/
theorem test_step_aes_key_error :
    onNext (step (State.reset.withFetchWord 8 0x10)) (fun s => (s.readAt 0x100, s.readAt 0x001)) = some (0x14, 0x00) := by
  decide
/-- T-E-9. -/
theorem test_step_des_accept :
    onNext (step (State.reset.withFetchWord 8 0x20)) (fun s => (s.readAt 0x200, s.readAt 0x001)) = some (0x01, 0x20) := by
  decide
/-- T-E-12. -/
theorem test_step_present_accept :
    onNext (step (State.reset.withFetchWord 8 0x30)) (fun s => (s.readAt 0x300, s.readAt 0x001)) = some (0x01, 0x40) := by
  decide
/-- T-E-10, T-E-13. -/
theorem test_step_msg_accept :
    onNext (step (State.reset.withFetchWord 8 0x23)) (fun s => s.readAt 0x200) = some 0x01 ∧
    onNext (step (State.reset.withFetchWord 8 0x33)) (fun s => s.readAt 0x300) = some 0x01 := by decide
/-- T-E-16. -/
theorem test_step_aes_sbox : onNext (step (State.reset.withFetchWord 8 0x41)) (fun s => s.readAt 0x802) = some 0x63 := by
  decide

/-! ### UTIL commands (section 4) -/

/-- T-GF-1, T-GF-6. -/
theorem test_gf_mul :
    onNext (exec .gfMul (utilState 0x02 0x87)) State.ur = some 0x15 ∧
    onNext (exec .gfMul (utilState 0xff 0xff)) State.ur = some 0x13 := by decide
/-- T-SB-2, T-SB-3. -/
theorem test_aes_sbox :
    onNext (exec .aesSbox (utilState 0x53 0)) State.ur = some 0xed ∧
    onNext (exec .aesSbox (utilState 0xff 0)) State.ur = some 0x16 := by decide
/-- T-SB-4, T-SB-6. -/
theorem test_aes_inv_sbox :
    onNext (exec .aesInvSbox (utilState 0x63 0)) State.ur = some 0x00 ∧
    onNext (exec .aesInvSbox (utilState 0x00 0)) State.ur = some 0x52 := by decide
/-- T-PS-2, T-PS-3. -/
theorem test_present_sbox :
    onNext (exec .presentSbox (utilState 0x0f 0)) State.ur = some 0x02 ∧
    onNext (exec .presentSbox (utilState 0xf1 0)) State.ur = some 0x05 := by decide
/-- T-PS-4, T-PS-6. -/
theorem test_present_inv_sbox :
    onNext (exec .presentInvSbox (utilState 0x0c 0)) State.ur = some 0x00 ∧
    onNext (exec .presentInvSbox (utilState 0x02 0)) State.ur = some 0x0f := by decide
/-- T-DS-2, T-DS-3, T-DS-4, T-DS-5. -/
theorem test_des_sbox :
    onNext (exec .desSbox (utilState 0x1b 0x00)) State.ur = some 0x05 ∧
    onNext (exec .desSbox (utilState 0x3f 0x07)) State.ur = some 0x0b ∧
    onNext (exec .desSbox (utilState 0x20 0x04)) State.ur = some 0x04 ∧
    onNext (exec .desSbox (utilState 0xc0 0xf8)) State.ur = some 0x0e := by decide

/-! ### Accepting cipher commands (sections 5 to 8) -/

/-- T-X-2: STATUS and the FSM after the accept of each block and message op. -/
theorem test_accept_all :
    (([.aesEncBlk, .aesDecBlk, .aesEncMsg, .aesDecMsg] : List Instr).all fun i =>
      onNext (exec i (idleState 16 16)) (fun s => (statusByte s.aes.status, s.aes.fsm)) = some (0x01, .ks 1)) ∧
    (([.desEncBlk, .desDecBlk, .desEncMsg, .desDecMsg] : List Instr).all fun i =>
      onNext (exec i (idleState 0 16)) (fun s => (statusByte s.des.status, s.des.fsm)) = some (0x01, .ks 1)) ∧
    (([.presentEncBlk, .presentDecBlk, .presentEncMsg, .presentDecMsg] : List Instr).all fun i =>
      onNext (exec i (idleState 0 16)) (fun s => (statusByte s.present.status, s.present.fsm)) = some (0x01, .ks 1)) := by
  decide

/-- T-AES-17, T-AES-18, T-AES-19, T-AES-20. -/
theorem test_aes_errors :
    onNext (exec .aesEncMsg (idleState 16 257)) (fun s => statusByte s.aes.status) = some 0x24 ∧
    onNext (exec .aesDecMsg (idleState 16 17)) (fun s => statusByte s.aes.status) = some 0x24 ∧
    onNext (exec .aesEncBlk (idleState 15 0)) (fun s => statusByte s.aes.status) = some 0x14 ∧
    onNext (exec .aesDecMsg (idleState 15 17)) (fun s => statusByte s.aes.status) = some 0x14 := by decide

/-- T-DES-13, T-PR-12. -/
theorem test_length_errors :
    onNext (exec .desDecMsg (idleState 0 12)) (fun s => statusByte s.des.status) = some 0x24 ∧
    onNext (exec .presentDecMsg (idleState 0 9)) (fun s => statusByte s.present.status) = some 0x24 := by decide

/-- T-X-6. -/
theorem test_busy_refusal :
    onNext (exec .aesEncBlk (running .aes .blk .enc 0)) (fun s => (gstatByte s, statusByte s.aes.status)) =
      some (0x12, 0x01) := by decide

/-- T-X-8, T-X-9. -/
theorem test_gstat_write :
    onNext (busWrite { State.reset with illegal := true, busyrej := true } 0x001 0x03) gstatByte = some 0x00 ∧
    onNext (busWrite { State.reset with illegal := true, busyrej := true } 0x001 0xfc) gstatByte = some 0x03 := by decide

/-- T-X-10, T-X-12. -/
theorem test_reserved_reads :
    ([0x000, 0x003, 0x0ff, 0x106, 0x700, 0xfff] : List Addr).all (fun a => State.readAt (utilState 1 2) a = 0) = true := by
  decide

/-! ### Layers and key schedules -/

/-- T-AES-1, T-AES-2, T-AES-3. -/
theorem test_aes_bytes_and_rows :
    fromState (subBytes (toState (hex 16 0x000102030405060708090a0b0c0d0e0f))) =
      hex 16 0x637c777bf26b6fc53001672bfed7ab76 ∧
    fromState (shiftRows (toState (hex 16 0x000102030405060708090a0b0c0d0e0f))) =
      hex 16 0x00050a0f04090e03080d02070c01060b ∧
    fromState (invShiftRows (toState (hex 16 0x000102030405060708090a0b0c0d0e0f))) =
      hex 16 0x000d0a0704010e0b0805020f0c090603 := by decide +kernel

/-- T-AES-4 to T-AES-8, each column of one state. -/
theorem test_aes_columns :
    fromState (mixColumns (toState (hex 16 0xdb135345f20a225c01010101d4d4d4d5))) =
      hex 16 0x8e4da1bc9fdc589d01010101d5d5d7d6 ∧
    fromState (invMixColumns (toState (hex 16 0x8e4da1bc9fdc589d01010101d5d5d7d6))) =
      hex 16 0xdb135345f20a225c01010101d4d4d4d5 := by decide +kernel

set_option maxRecDepth 100000 in
/-- The key schedule table of section 5, second row: RK[1] and RK[10]. -/
theorem test_aes_round_keys :
    fromState (rkAt (keyExpand (hex 16 0x2b7e151628aed2a6abf7158809cf4f3c)) 1) = hex 16 0xa0fafe1788542cb123a339392a6c7605 ∧
    fromState (rkAt (keyExpand (hex 16 0x2b7e151628aed2a6abf7158809cf4f3c)) 10) = hex 16 0xd014f9a8c9ee2589e13f0cc8b6630ca6 := by
  decide +kernel

set_option maxRecDepth 100000 in
/-- T-PL-2, T-PL-3, T-PL-8, T-PL-12. -/
theorem test_present_layers :
    sLayer 0x0123456789abcdef#64 = 0xc56b90ad3ef84712#64 ∧ invSLayer 0x0123456789abcdef#64 = 0x5ef8c12db463079a#64 ∧
    pLayer 0x0123456789abcdef#64 = 0x00ff0f0f33335555#64 ∧ invPLayer 0x0123456789abcdef#64 = 0x3500350f35f035ff#64 := by
  decide +kernel

set_option maxRecDepth 100000 in
/-- R332: subkeys of the all-zero key. -/
theorem test_present_round_keys :
    presentKeyAt (keySchedPresent 0) 2 = 0xc000000000000000#64 ∧ presentKeyAt (keySchedPresent 0) 3 = 0x5000180000000001#64 ∧
    presentKeyAt (keySchedPresent 0) 32 = 0x6dab31744f41d700#64 := by decide +kernel

/-! ### Blocks and messages -/

set_option maxRecDepth 100000 in
/-- The example of R240 (FIPS-197 C.1). -/
theorem test_aes_block_enc :
    blockEncAes (hex 16 0x00112233445566778899aabbccddeeff) (hex 16 0x000102030405060708090a0b0c0d0e0f) =
      hex 16 0x69c4e0d86a7b0430d8cdb78070b4c55a := by decide +kernel

set_option maxRecDepth 100000 in
/-- T-AES-14. -/
theorem test_aes_block_dec : blockDecAes (hex 16 0) (hex 16 0) = hex 16 0x140f0f1011b5223d79587717ffd9ec3a := by
  decide +kernel

set_option maxRecDepth 100000 in
/-- T-AES-10. -/
theorem test_aes_message_enc :
    msgEnc .aes [0x61, 0x62, 0x63] (hex 16 0x436c6176655365637265746131323334) =
      (hex 16 0x19f9fc6e743ea37f406b50261356976d).toList := by decide +kernel

set_option maxRecDepth 100000 in
/-- T-DES-1. -/
theorem test_des_block_enc : blockEncDes (hex 8 0x0123456789abcdef) 0x133457799bbcdff1#64 = hex 8 0x85e813540f0ab405 := by
  decide +kernel

set_option maxRecDepth 100000 in
/-- T-DES-2. -/
theorem test_des_block_dec : blockDecDes (hex 8 0x85e813540f0ab405) 0x133457799bbcdff1#64 = hex 8 0x0123456789abcdef := by
  decide +kernel

set_option maxRecDepth 100000 in
/-- T-DES-9. -/
theorem test_des_message_enc :
    msgEnc .des ((hex 16 0x31323334353637383132333435363738).toList) (keyBitsDes (hex 8 0x436c617665444553).toList) =
      (hex 16 0x5aa20ae79eb25cfc5aa20ae79eb25cfc).toList := by decide +kernel

set_option maxRecDepth 100000 in
/-- T-PR-2. -/
theorem test_present_block_enc : blockEncPresent (hex 8 0) (BitVec.allOnes 80) = hex 8 0xe72c46c0f5945049 := by
  decide +kernel

set_option maxRecDepth 100000 in
/-- T-PR-6. -/
theorem test_present_block_dec : blockDecPresent (hex 8 0) 0 = hex 8 0xef506cb600c2e95f := by decide +kernel

set_option maxRecDepth 100000 in
/-- T-PR-10. -/
theorem test_present_message_enc :
    msgEnc .present ((hex 15 0x48656c6c6f2c2050524553454e5421).toList) (keyIntPresent (hex 10 0x50726573656e744b6579).toList) =
      (hex 16 0xf5a35cbc8f5e1f0b07322178a25646f5).toList := by decide +kernel

/-! ### The conversion utility (section 3) and host notation -/

/-- T-U-2, T-U-5, T-U-6, T-U-7, T-U-9, T-U-10. -/
theorem test_conversions :
    bytesToBitList [0x48, 0x69] =
      [false, true, false, false, true, false, false, false, false, true, true, false, true, false, false, true] ∧
    bitsToHex (bytesToBitList [0x48, 0x69]) = ['4', '8', '6', '9'] ∧ bitsToHex [true, false, true] = ['5'] ∧
    bitsToHex [true, true, true, true, false] = ['1', 'e'] ∧
    bytesToHex [0x05, 0xab, 0x00] = ['0', '5', 'a', 'b', '0', '0'] ∧
    xorBits [true, false, true, true] [true, true, false] = [false, true, true] := by decide +kernel

/-- T-U-11, T-U-12, T-U-13, T-U-14: "abc", "PresentKey+extra", "ClaveDES-long". -/
theorem test_key_forms :
    keyBitsDes [0x61, 0x62, 0x63] = 0x6162630000000000#64 ∧ keyIntPresent [0x61, 0x62, 0x63] = 0x61626300000000000000#80 ∧
    keyIntPresent ((hex 10 0x50726573656e744b6579).toList ++ [0x2b, 0x65, 0x78, 0x74, 0x72, 0x61]) =
      0x50726573656e744b6579#80 ∧
    keyBitsDes ((hex 8 0x436c617665444553).toList ++ [0x2d, 0x6c, 0x6f, 0x6e, 0x67]) = 0x436c617665444553#64 := by
  decide +kernel

/-- T-U-15, T-U-16, T-U-19, T-U-22, T-U-23. -/
theorem test_rotations_and_refusals :
    rotateLeftSeq [true, false, false, false, false] 1 = .ok [false, false, false, false, true] ∧
    rotateLeftSeq [true, false, false, false, false] 7 = .ok [false, false, false, true, false] ∧
    rotateLeftSeq [true, false] (-1) = .error .negativeRotation ∧
    integerToBits 16 4 = .error .integerTooWide ∧ stringToBits [0x41, 0x100] = .error .ordinalAbove255 :=
  ⟨rfl, rfl, rfl, rfl, rfl⟩

/-- R129, program P2: a byte bound by a read is the byte a later line writes. -/
theorem test_wr8_of_a_name :
    onNext (agentTurn .host { State.reset with vars := [(3, 0x69)], host := [.wr8 0x120 (.name 3)] })
      (fun t => t.readAt 0x120) = some 0x69 := by decide

set_option maxRecDepth 100000 in
/-- R186 on T-AES-10 and T-DES-9: texts "abc" and "1234567812345678", keys "ClaveSecreta1234" and "ClaveDES". -/
theorem test_source_calls :
    aesEncrypt [0x61, 0x62, 0x63] (((hex 16 0x436c6176655365637265746131323334).toList).map BitVec.toNat) =
      .ok (hex 16 0x19f9fc6e743ea37f406b50261356976d).toList ∧
    desEncrypt (((hex 16 0x31323334353637383132333435363738).toList).map BitVec.toNat)
        (((hex 8 0x436c617665444553).toList).map BitVec.toNat) =
      .ok (bytesToBitList (hex 16 0x5aa20ae79eb25cfc5aa20ae79eb25cfc).toList) := by decide +kernel

/-- The source's refusals (R401; N20; U1). -/
theorem test_source_refusals :
    aesDecrypt (List.replicate 16 0) (List.replicate 15 0x41) = .error .invalidKeyLength ∧
    aesDecrypt (List.replicate 17 0) (List.replicate 16 0x41) = .error .partialBlock ∧
    desDecrypt [true] [] = .error .partialBlock ∧ presentEncrypt [0x100] [] = .error .ordinalAbove255 :=
  ⟨rfl, rfl, rfl, rfl⟩

/-- R212 and R213: the coefficients, row by row. -/
theorem test_aes_coefficients :
    mixCoeff.toList.map Vector.toList = [[2, 3, 1, 1], [1, 2, 3, 1], [1, 1, 2, 3], [3, 1, 1, 2]] ∧
    invMixCoeff.toList.map Vector.toList = [[14, 11, 13, 9], [9, 14, 11, 13], [13, 9, 14, 11], [11, 13, 9, 14]] := by decide

/-- R130: `setkey` of a 10-byte text on DES writes 8 key bytes, then KEYLEN 10. -/
theorem test_setkey_expansion :
    expandLine (.setkey .des (([1, 2, 3, 4, 5, 6, 7, 8, 9, 10] : List Byte).map .byte)) =
      [.wr8 0x210 (.byte 1), .wr8 0x211 (.byte 2), .wr8 0x212 (.byte 3), .wr8 0x213 (.byte 4), .wr8 0x214 (.byte 5),
        .wr8 0x215 (.byte 6), .wr8 0x216 (.byte 7), .wr8 0x217 (.byte 8), .wr8 0x201 (.byte 10)] := by decide

/-! ### Witnesses: a concrete state and operands that meet the hypotheses of each obligation, clause by clause -/

theorem inv_idleState (k : Byte) (m : Half) : Machine.Inv (idleState k m) where
  engines e := by
    cases e <;>
      exact engineInv_congr (engineInv_reset _) rfl rfl rfl rfl rfl ⟨List.Pairwise.nil, fun _ h => nomatch h⟩
  vars := List.Pairwise.nil

theorem inv_running (e : EngineId) (m : Mode) (d : Dir) (n : Half)
    (h : acceptCheck e m d ((idleState 16 n).engine e) = .none) : Machine.Inv (running e m d n) where
  engines f := by
    by_cases hf : f = e
    · subst hf
      rw [running, setEngine_engine_same]
      exact engineInv_accept ((inv_idleState 16 n).engines f) h
    · rw [running, setEngine_engine_other _ _ hf]
      exact (inv_idleState 16 n).engines f
  vars := by rw [running, setEngine_vars]; exact List.Pairwise.nil

theorem witness_CommandStreamsRoundTrip :
    (∀ i ∈ [Instr.desSbox, .aesEncBlk], i.wellFormed = true) ∧
    ([0x45, 0x10] : List Byte).mapM decode = Except.ok [.desSbox, .aesEncBlk] := ⟨by decide, rfl⟩

theorem witness_IllegalByteSetsOnlyIllegal :
    ([0x00, 0x0F, 0x14, 0x1F, 0x24, 0x2F, 0x34, 0x3F, 0x46, 0x4F, 0x50, 0xFF] : List Byte).all
      (fun v => !(decode v).toBool) = true ∧ decode 0x4F = .error .unknownFunc := ⟨by decide, rfl⟩

theorem witness_CommandFieldsSelectUnitAndFunction :
    ((0x13 : Byte).toNat / 16 = 1 ∧ (0x13 : Byte).toNat % 16 < 4) ∧ ((0x23 : Byte).toNat / 16 = 2 ∧ (0x23 : Byte).toNat % 16 < 4) ∧
    ((0x33 : Byte).toNat / 16 = 3 ∧ (0x33 : Byte).toNat % 16 < 4) ∧ ((0x34 : Byte).toNat / 16 = 3 ∧ 4 ≤ (0x34 : Byte).toNat % 16) ∧
    ((0x45 : Byte).toNat / 16 = 4 ∧ (0x45 : Byte).toNat % 16 = 5) ∧ ((0x46 : Byte).toNat / 16 = 4 ∧ 6 ≤ (0x46 : Byte).toNat % 16) ∧
    (0x0F : Byte).toNat / 16 = 0 ∧ 5 ≤ (0x50 : Byte).toNat / 16 := by decide

theorem witness_StepIsOneTurnOfTheScheduledAgent :
    (scheduleEngine .aes 1 State.reset).sched = .engine .aes :: [] ∧
    (State.reset.sched = [] ∧ ∀ e, (State.reset.engine e).fsm = .idle) ∧
    ((running .des .blk .enc 0).sched = [] ∧ ∃ e, ((running .des .blk .enc 0).engine e).fsm ≠ .idle) :=
  ⟨rfl, ⟨rfl, fun e => by cases e <;> rfl⟩, rfl, .des, by decide⟩

theorem witness_StepRunsTheCommandWrittenToCmd :
    let s : State := { State.reset with host := [.wr8 0x000 (.byte 0x45)] }
    s.host = .wr8 0x000 (.byte 0x45) :: [] ∧ { s with sched := [.host] }.sched = .host :: [] ∧ s.sched = [] ∧
    (∀ e, (s.engine e).fsm = .idle) ∧ decode 0x45 = .ok .desSbox ∧ Instr.desSbox.wellFormed = true :=
  ⟨rfl, rfl, rfl, fun e => by cases e <;> rfl, rfl, rfl⟩

theorem witness_HostLinesAreBusSteps :
    cellRead [(3, 0x69), (7, 0x01)] 7 = some 0x01 ∧
    { State.reset with host := [.wr8 0x800 (.byte 1)] }.host = .wr8 0x800 (.byte 1) :: [] ∧
    { State.reset with host := [.rd8 0x800 3] }.host = .rd8 0x800 3 :: [] ∧
    { State.reset with host := [.poll 0x100 (.byte 0x01) (.byte 0x00)] }.host = .poll 0x100 (.byte 0x01) (.byte 0x00) :: [] ∧
    (State.reset.readAt 0x100 &&& 0x01) = 0x00 ∧ ((running .aes .blk .enc 0).readAt 0x100 &&& 0x01) ≠ 0x00 ∧ (4 : Nat) ≠ 3 := by
  decide

theorem witness_PseudoInstructionsExpand :
    (0xFFE : Addr).toNat + 1 < 4096 ∧ (0xFF0 : Addr).toNat + (List.replicate 16 (0 : Byte)).length ≤ 4096 ∧
    (List.replicate 16 (0 : Byte))[15]? = some 0 ∧ (0xFF0 : Addr).toNat + 16 ≤ 4096 ∧ (15 : Nat) < 16 := by decide

theorem witness_ResetLeavesTheCleanEntryState :
    (0x3FF : Addr).toNat < 0x400 ∧ 0x700 ≤ (0x700 : Addr).toNat ∧ 0x700 ≤ (0xFFF : Addr).toNat ∧ (0 : Nat) < 256 ∧
    (255 : Nat) < 256 := by decide

theorem witness_CmdIsWriteOnly : busWrite State.reset 0x000 0x41 = .next { State.reset with ur := 0x63 } := rfl

/-- Both bits set, and cleared by the host's write, by reset, and only so; an illegal byte; a busy engine. -/
theorem witness_GstatBitsAreStickyUntilWrittenOne :
    let s : State := { State.reset with illegal := true, busyrej := true, host := [.wr8 0x001 (.byte 0x03)] }
    decode 0x50 = .error .unknownUnit ∧ ((running .aes .blk .enc 0).engine .aes).status.busy = true ∧
    s.illegal = true ∧ s.busyrej = true ∧
    onNext (agentTurn .host s) (fun t => (t.illegal, t.busyrej)) = some (false, false) ∧
    onNext (agentTurn .reset s) (fun t => (t.illegal, t.busyrej)) = some (false, false) :=
  ⟨rfl, by decide, rfl, rfl, by decide, by decide⟩

/-- ERR = 0 at reset; ERR = 1 after a refused command. -/
theorem witness_StatusBitsAreExclusive :
    Machine.Inv (idleState 15 0) ∧ (State.readAt (idleState 15 0) (regAddr .aes 0)).getLsbD 2 = false ∧
    Machine.Inv (raiseCmdError .aes .invalidKeyLength (idleState 15 0)) ∧
    (State.readAt (raiseCmdError .aes .invalidKeyLength (idleState 15 0)) (regAddr .aes 0)).getLsbD 2 = true := by
  refine ⟨inv_idleState 15 0, by decide, ⟨fun e => ?_, List.Pairwise.nil⟩, by decide⟩
  cases e with
  | aes => exact engineInv_raise ((inv_idleState 15 0).engines .aes) rfl (by decide)
  | des => exact (inv_idleState 15 0).engines .des
  | present => exact (inv_idleState 15 0).engines .present

theorem witness_ReservedAndReadOnlyAccessesDoNothing :
    (¬ listedAddr 0x002 ∧ ¬ listedAddr 0x0FF ∧ ¬ listedAddr 0x106 ∧ ¬ listedAddr 0x140 ∧ ¬ listedAddr 0x218 ∧
      ¬ listedAddr 0x31A ∧ ¬ listedAddr 0x3FF ∧ ¬ listedAddr 0x700 ∧ ¬ listedAddr 0x7FF ∧ ¬ listedAddr 0x803 ∧
      ¬ listedAddr 0xFFF) ∧
    readOnlyAddr 0x100 ∧ readOnlyAddr 0x105 ∧ readOnlyAddr 0x13F ∧ readOnlyAddr 0x237 ∧ readOnlyAddr 0x330 ∧
    readOnlyAddr 0x802 := by
  refine ⟨⟨?_, ?_, ?_, ?_, ?_, ?_, ?_, ?_, ?_, ?_, ?_⟩, ?_, ?_, ?_, ?_, ?_, ?_⟩ <;>
    simp [listedAddr, readOnlyAddr]

theorem witness_WritableRegistersOnlyStoreTheByte :
    writableAddr 0x101 ∧ writableAddr 0x103 ∧ writableAddr 0x110 ∧ writableAddr 0x12F ∧ writableAddr 0x217 ∧
    writableAddr 0x220 ∧ writableAddr 0x319 ∧ writableAddr 0x327 ∧ writableAddr 0x800 ∧ writableAddr 0x801 := by
  refine ⟨?_, ?_, ?_, ?_, ?_, ?_, ?_, ?_, ?_, ?_⟩ <;> simp [writableAddr]

/-- A message op running; idle; a block op running; the first and last byte. -/
theorem witness_MessageBufferWindow :
    (0 : Nat) < 256 ∧ (255 : Nat) < 256 ∧
    (((running .des .msg .enc 8).engine .des).status.busy = true ∧
      modeField ((running .des .msg .enc 8).engine .des).lat.op = .msg) ∧
    (State.reset.engine .des).status.busy = false ∧
    (((running .des .blk .enc 8).engine .des).status.busy = true ∧
      modeField ((running .des .blk .enc 8).engine .des).lat.op = .blk) := by decide

/-- A buffer byte of an idle core, and of another engine's buffer while a message op runs. -/
theorem witness_ReadsAreIdempotent :
    (∀ e, (0x400 : Addr).toNat / 256 = Config.mbase e / 256 →
      ¬ ((State.reset.engine e).status.busy = true ∧ modeField (State.reset.engine e).lat.op = .msg)) ∧
    (∀ e, (0x4FF : Addr).toNat / 256 = Config.mbase e / 256 →
      ¬ (((running .des .msg .enc 8).engine e).status.busy = true ∧
        modeField ((running .des .msg .enc 8).engine e).lat.op = .msg)) := by
  constructor <;> intro e <;> cases e <;> decide

theorem witness_BytesReadMostSignificantBitFirst :
    (1 : Nat) < 2 ∧ (7 : Nat) ≤ 7 ∧ (1 : Nat) < ([0x80, 0x01] : List Byte).length := by decide

theorem witness_GfMulSourceProperties :
    (utilState 0x57 1).ub = 1 ∧ (utilState 0x57 0).ub = 0 ∧ (utilState 0x02 0x87).ua = 0x02 ∧ (utilState 0x02 0x87).ub = 0x87 := by
  decide

theorem witness_GfmulIsFieldMultiplication : (0x53 : Byte) ≠ 0 := by decide

theorem witness_UtilCommandsWriteOnlyUr :
    onNext (agentTurn .host { State.reset with host := [.wr8 0x000 (.byte 0x41)] })
      (fun t => decide (t.readAt 0x802 ≠ State.reset.readAt 0x802)) = some true := by decide +kernel

theorem witness_AesSboxCommandsLookUp : ((0 : Byte) = 0 ∧ (0 : Byte) = 0) ∧ gfmul 0x53 0xCA = 1 := by decide

theorem witness_PresentSboxCommandsLookUp :
    (utilState 0x00 0).ua = 0x00 ∧ (utilState 0x0f 0).ua = 0x0f ∧ (utilState 0xf1 0).ua = 0xf1 ∧ (utilState 0x0c 0).ua = 0x0c ∧
    (utilState 0x02 0).ua = 0x02 := by decide

theorem witness_DesSboxCommandLooksUp :
    ((utilState 0x00 0x00).ub = 0x00 ∧ (utilState 0x00 0x00).ua = 0x00) ∧
    ((utilState 0x1b 0x00).ub = 0x00 ∧ (utilState 0x1b 0x00).ua = 0x1b) ∧
    ((utilState 0x3f 0x07).ub = 0x07 ∧ (utilState 0x3f 0x07).ua = 0x3f) ∧
    ((utilState 0x20 0x04).ub = 0x04 ∧ (utilState 0x20 0x04).ua = 0x20) ∧ (7 : Nat) < 8 ∧ (3 : Nat) < 4 := by decide

/-- The five outcomes, each with a state and a byte that has it: AES_DEC_MSG busy, with a bad key, with a bad length, and fit. -/
theorem witness_AcceptanceTakesTheFirstFailingCheck :
    decodeFields 0x14 = .error .zNotZero ∧ decodeFields 0x45 = .ok (.util .desSbox) ∧
    decodeFields 0x13 = .ok (.cipher .aes .msg .dec) ∧
    ((running .aes .blk .enc 0).engine .aes).status.busy = true ∧
    (((idleState 15 17).engine .aes).status.busy = false ∧ keyCheck .aes ((idleState 15 17).engine .aes).keylen ≠ .none) ∧
    (((idleState 16 17).engine .aes).status.busy = false ∧ keyCheck .aes ((idleState 16 17).engine .aes).keylen = .none ∧
      lenCheck .aes .dec ((idleState 16 17).engine .aes).msglen.toNat ≠ .none) ∧
    (((idleState 16 256).engine .aes).status.busy = false ∧ keyCheck .aes ((idleState 16 256).engine .aes).keylen = .none ∧
      lenCheck .aes .dec ((idleState 16 256).engine .aes).msglen.toNat = .none) := by
  refine ⟨rfl, rfl, rfl, ?_⟩; decide

theorem witness_BusyEngineRefusesItsCommands :
    ((running .present .msg .dec 8).engine .present).status.busy = true ∧ EngineId.aes ≠ EngineId.present := by decide

theorem acceptable_idle (e : EngineId) (m : Mode) (d : Dir) : acceptable e m d (idleState 16 256) := by
  unfold acceptable; cases e <;> cases m <;> cases d <;> decide

/-- All twelve commands are acceptable in one state; a running engine's step; a register that is an input. -/
theorem witness_AcceptLatchesTheInputsAndStarts :
    (∀ e m d, acceptable e m d (idleState 16 256)) ∧ (EngReg.key 7).isInput = true ∧
    ∃ y, engineStep 0 (engineAt .des .blk .enc 0 (.ks 16)) = .ok y :=
  ⟨acceptable_idle, rfl, _, rfl⟩

theorem witness_CommandErrorChangesOnlyStatus :
    ((idleState 15 0).aes.status.busy = false ∧ (idleState 15 0).aes.keylen ≠ 16 ∧ (idleState 17 0).aes.keylen ≠ 16) ∧
    (((idleState 16 257).engine .aes).status.busy = false ∧ ((idleState 16 257).engine .aes).keylen = 16 ∧
      256 < ((idleState 16 257).engine .aes).msglen.toNat) ∧
    (((idleState 0 12).engine .des).status.busy = false ∧
      ((idleState 0 12).engine .des).msglen.toNat % Config.blkBytes .des ≠ 0) := by decide

theorem witness_KeysAreNormalised :
    (15 : Byte) ≠ 16 ∧ (16 : Byte) = 16 ∧ (7 : Nat) < 8 ∧ (7 : Nat) ≤ 7 ∧ (9 : Nat) < 10 := by decide

/-- At mlen = 9 the last premise holds; at mlen = 0, where the MSGINIT step completes, it is the only one that does not. -/
theorem witness_MessageLengthsAreCheckedAndPadded :
    256 < (257 : Nat) ∧ (Dir.dec = .dec ∧ 9 % Config.blkBytes .des ≠ 0) ∧ ((256 : Nat) ≤ 256 ∧ 256 % Config.blkBytes .aes = 0) ∧
    ((engineAt .des .blk .enc 0 (.ks 16)).fsm = .ks (Config.nks .des) ∧
      modeField (engineAt .des .blk .enc 0 (.ks 16)).lat.op = .blk) ∧
    ((engineAt .des .msg .enc 9 .msginit).fsm = .msginit ∧
      lenCheck .des (dirField (engineAt .des .msg .enc 9 .msginit).lat.op)
        (engineAt .des .msg .enc 9 .msginit).lat.mlen.toNat = .none ∧
      paddedLen .des (dirField (engineAt .des .msg .enc 9 .msginit).lat.op)
        (engineAt .des .msg .enc 9 .msginit).lat.mlen.toNat ≠ 0) ∧
    ((engineAt .des .msg .enc 0 .msginit).fsm = .msginit ∧
      lenCheck .des (dirField (engineAt .des .msg .enc 0 .msginit).lat.op)
        (engineAt .des .msg .enc 0 .msginit).lat.mlen.toNat = .none ∧
      paddedLen .des (dirField (engineAt .des .msg .enc 0 .msginit).lat.op)
        (engineAt .des .msg .enc 0 .msginit).lat.mlen.toNat = 0) := by decide

/-- One engine for each arm of R170. -/
theorem witness_EngineStepFollowsTheTransitions :
    (engineAt .aes .blk .enc 0 .idle).fsm = .idle ∧
    ((engineAt .aes .blk .enc 0 (.ks 1)).fsm = .ks 1 ∧ 1 ≤ 1 ∧ 1 < Config.nks .aes) ∧
    ((engineAt .aes .msg .enc 0 (.ks 10)).fsm = .ks 10 ∧ 10 = Config.nks .aes ∧
      modeField (engineAt .aes .msg .enc 0 (.ks 10)).lat.op = .msg) ∧
    ((engineAt .aes .blk .enc 0 (.ks 10)).fsm = .ks 10 ∧ modeField (engineAt .aes .blk .enc 0 (.ks 10)).lat.op = .blk) ∧
    ((engineAt .aes .blk .dec 0 .load).fsm = .load ∧ modeField (engineAt .aes .blk .dec 0 .load).lat.op = .blk ∧
      rounds .aes (dirField (engineAt .aes .blk .dec 0 .load).lat.op) = 9 :: [8, 7, 6, 5, 4, 3, 2, 1, 0]) ∧
    ((engineAt .aes .msg .dec 16 .load).fsm = .load ∧ modeField (engineAt .aes .msg .dec 16 .load).lat.op = .msg ∧
      (engineAt .aes .msg .dec 16 .load).j.toNat * Config.blkBytes .aes + Config.blkBytes .aes ≤ 256) ∧
    ((engineAt .aes .blk .dec 0 (.rnd 9)).fsm = .rnd 9 ∧
      rounds .aes (dirField (engineAt .aes .blk .dec 0 (.rnd 9)).lat.op) = [] ++ 9 :: 8 :: [7, 6, 5, 4, 3, 2, 1, 0]) ∧
    ((engineAt .aes .blk .dec 0 (.rnd 0)).fsm = .rnd 0 ∧
      rounds .aes (dirField (engineAt .aes .blk .dec 0 (.rnd 0)).lat.op) = [9, 8, 7, 6, 5, 4, 3, 2, 1] ++ [0]) := by
  decide

/-- An encrypt with padding, one without a block, a decrypt, and the longest message. -/
theorem witness_MsginitWritesOnlyThePadding :
    ([(engineAt .des .msg .enc 9 .msginit), (engineAt .des .msg .enc 0 .msginit), (engineAt .des .msg .dec 16 .msginit),
      (engineAt .des .msg .enc 256 .msginit)] : List (EngineOf .des)).all
        (fun x => x.fsm = .msginit ∧ lenCheck .des (dirField x.lat.op) x.lat.mlen.toNat = .none) = true ∧
    paddedLen .des .enc 9 ≠ 0 ∧ paddedLen .des .enc 0 = 0 := by decide

/-- STORE of a block op, of a message op's first of two blocks, and of its last block at the end of the buffer. -/
theorem witness_StoreWritesTheBlockInPlace :
    let x := engineAt .des .blk .enc 0 .store
    let y := { engineAt .des .msg .enc 16 .store with nblk := 2 }
    let z := { engineAt .des .msg .enc 256 .store with j := 31, nblk := 32 }
    (x.fsm = .store ∧ modeField x.lat.op = .blk) ∧
    (y.fsm = .store ∧ modeField y.lat.op = .msg ∧ y.j.toNat * Config.blkBytes .des + Config.blkBytes .des ≤ 256 ∧
      y.j.toNat + 1 < y.nblk.toNat) ∧
    (z.fsm = .store ∧ modeField z.lat.op = .msg ∧ z.j.toNat * Config.blkBytes .des + Config.blkBytes .des ≤ 256 ∧
      z.nblk.toNat ≤ z.j.toNat + 1) := by decide

/-- A running block op and a running message op of the invariant, whose steps do not complete them. -/
theorem witness_EngineStepFrame :
    (EngineInv ((running .des .blk .enc 0).engine .des) ∧
      ∃ y, engineStep 0 ((running .des .blk .enc 0).engine .des) = .ok y ∧ y.fsm ≠ .idle) ∧
    modeField ((running .des .blk .enc 0).engine .des).lat.op = .blk ∧
    (EngineInv ((running .des .msg .enc 9).engine .des) ∧
      ∃ y, engineStep 0 ((running .des .msg .enc 9).engine .des) = .ok y ∧ y.fsm ≠ .idle) ∧
    modeField ((running .des .msg .enc 9).engine .des).lat.op = .msg :=
  ⟨⟨(inv_running .des .blk .enc 0 (by decide)).engines .des, _, rfl, by decide⟩, by decide,
    ⟨(inv_running .des .msg .enc 9 (by decide)).engines .des, _, rfl, by decide⟩, by decide⟩

theorem witness_AesBlockCommandsComplete :
    (idleState 16 0).aes.status.busy = false ∧ (idleState 16 0).aes.keylen = 16 := by decide
theorem witness_DesBlockCommandsComplete : (idleState 0 0).des.status.busy = false := by decide
theorem witness_PresentBlockCommandsComplete : (idleState 0 0).present.status.busy = false := by decide

/-- The empty message and the longest one. -/
theorem witness_AesMessageCommandsComplete :
    (Machine.Inv (idleState 16 0) ∧ Machine.Inv (idleState 16 256)) ∧ (idleState 16 256).aes.status.busy = false ∧
    (idleState 16 256).aes.keylen = 16 ∧ (idleState 16 256).aes.msglen.toNat ≤ 256 ∧
    (idleState 16 256).aes.msglen.toNat % 16 = 0 ∧ (idleState 16 0).aes.msglen.toNat % 16 = 0 :=
  ⟨⟨inv_idleState 16 0, inv_idleState 16 256⟩, by decide⟩
theorem witness_DesMessageCommandsComplete :
    (Machine.Inv (idleState 0 0) ∧ Machine.Inv (idleState 0 256)) ∧ (idleState 0 256).des.status.busy = false ∧
    (idleState 0 256).des.msglen.toNat ≤ 256 ∧ (idleState 0 256).des.msglen.toNat % 8 = 0 ∧
    (idleState 0 0).des.status.busy = false ∧ (idleState 0 0).des.msglen.toNat ≤ 256 ∧
    (idleState 0 0).des.msglen.toNat % 8 = 0 :=
  ⟨⟨inv_idleState 0 0, inv_idleState 0 256⟩, by decide⟩
theorem witness_PresentMessageCommandsComplete :
    (Machine.Inv (idleState 0 0) ∧ Machine.Inv (idleState 0 256)) ∧ (idleState 0 256).present.status.busy = false ∧
    (idleState 0 256).present.msglen.toNat ≤ 256 ∧ (idleState 0 256).present.msglen.toNat % 8 = 0 ∧
    (idleState 0 0).present.status.busy = false ∧ (idleState 0 0).present.msglen.toNat ≤ 256 ∧
    (idleState 0 0).present.msglen.toNat % 8 = 0 :=
  ⟨⟨inv_idleState 0 0, inv_idleState 0 256⟩, by decide⟩

/-- An idle engine (accepted), the block op's buffer, an address outside the excluded ones, another engine. -/
theorem witness_CipherCommandFrame :
    ((idleState 16 0).engine .aes).status.busy = false ∧ (255 : Nat) < 256 ∧ (0x101 : Addr) ≠ 0x001 ∧
    (0x101 : Addr) ≠ regAddr .aes 0x00 ∧ (0x101 : Addr).toNat / 256 ≠ Config.mbase .aes / 256 ∧ EngineId.des ≠ EngineId.aes := by
  decide

/-- The host's turn and another engine's turn among the engine's own. -/
theorem witness_BlockResultUnderEveryInterleaving :
    let turns := Agent.host :: .engine .des :: List.replicate 21 (.engine .aes)
    Machine.Inv (idleState 16 256) ∧ acceptable .aes .blk .enc (idleState 16 256) ∧
    exec (instrOf (.cipher .aes .blk .enc)) (idleState 16 256) = .next (running .aes .blk .enc 256) ∧
    Agent.reset ∉ turns ∧ turns.count (.engine .aes) + 1 = blockOpSteps .aes :=
  ⟨inv_idleState 16 256, acceptable_idle .aes .blk .enc, rfl, by decide, by decide⟩

theorem witness_MessageResultUnderEveryInterleaving :
    let turns := Agent.host :: .engine .aes :: List.replicate 34 (.engine .des)
    Machine.Inv (idleState 16 8) ∧ acceptable .des .msg .enc (idleState 16 8) ∧
    exec (instrOf (.cipher .des .msg .enc)) (idleState 16 8) = .next (running .des .msg .enc 8) ∧
    Agent.reset ∉ turns ∧
    turns.count (.engine .des) + 1 =
      msgOpSteps .des (paddedLen .des .enc ((idleState 16 8).engine .des).msglen.toNat / Config.blkBytes .des) := by
  refine ⟨inv_idleState 16 8, ?_, rfl, by decide, by decide⟩
  unfold acceptable; decide

theorem witness_RunningCommandCompletesWithinBound :
    Machine.Inv (running .present .msg .enc 256) ∧ ((running .present .msg .enc 256).engine .present).fsm ≠ .idle :=
  ⟨inv_running .present .msg .enc 256 (by decide), by decide⟩

theorem witness_EngineTurnsAreIsolatedAndCommute :
    let s := running .des .blk .enc 0
    let s' := { s with ua := 7 }
    s'.engine .des = s.engine .des ∧ s'.epoch = s.epoch ∧ EngineId.des ≠ EngineId.aes ∧
    (∃ t, agentTurn (.engine .des) s = .next t ∧ ∃ u, agentTurn (.engine .aes) t = .next u) :=
  ⟨rfl, rfl, by decide, _, rfl, _, rfl⟩

/-- Each event changes STATUS of DES: an accept, a length error, a completion (of an empty message), reset. -/
theorem witness_OnlyTheseEventsWriteStatus :
    onNext (agentTurn .host { idleState 0 0 with host := [.wr8 0x000 (.byte 0x20)] })
      (fun t => decide ((t.engine .des).status ≠ ((idleState 0 0).engine .des).status)) = some true ∧
    onNext (agentTurn .host { idleState 0 9 with host := [.wr8 0x000 (.byte 0x23)] })
      (fun t => decide ((t.engine .des).status ≠ ((idleState 0 9).engine .des).status)) = some true ∧
    onNext (agentTurn (.engine .des) { State.reset with des := engineAt .des .msg .enc 0 .msginit })
      (fun t => decide ((t.engine .des).status ≠ (engineAt .des .msg .enc 0 .msginit).status)) = some true ∧
    onNext (agentTurn .reset (running .des .blk .enc 0))
      (fun t => decide ((t.engine .des).status ≠ ((running .des .blk .enc 0).engine .des).status)) = some true := by decide

/-- DOUT and OUTLEN change in a STORE step, UR in a UTIL command. -/
theorem witness_ResultRegistersChangeOnlyAtCompletion :
    let s : State := { State.reset with
      des := { engineAt .des .blk .enc 0 .store with work := { Work.reset .des with l := BitVec.allOnes 32 } } }
    onNext (agentTurn (.engine .des) s)
      (fun t => (decide ((t.engine .des).dout ≠ (s.engine .des).dout), decide ((t.engine .des).outlen ≠ (s.engine .des).outlen))) =
        some (true, true) ∧
    onNext (agentTurn .host { State.reset with host := [.wr8 0x000 (.byte 0x41)] }) (fun t => decide (t.ur ≠ State.reset.ur)) =
      some true ∧ Agent.host ≠ .reset ∧ Agent.engine .des ≠ .reset := by decide +kernel

theorem witness_EveryStepAnswersNextAndKeepsTheInvariant : Machine.Inv (running .aes .msg .dec 256) :=
  inv_running .aes .msg .dec 256 (by decide)

theorem witness_PresentBlockFunctionsAreInverse : (63 : Nat) < 64 ∧ (15 : Nat) < 16 := by decide

theorem witness_DesIgnoresParityBits :
    ∀ i, i < 64 → i % 8 ≠ 7 → (0#64).getMsbD i = (0x0101010101010101#64).getMsbD i := by decide +kernel

/-- The source's clauses at a key of 16 characters and one of 15, at the largest ordinal, and at a ciphertext of one block. -/
theorem witness_MessageRoundTripKeepsPadding :
    (List.replicate 16 (0 : Byte)).length % Config.blkBytes .aes = 0 ∧ ([] : List Byte).length % Config.blkBytes .des = 0 ∧
    (∀ c ∈ [0x41, 255], c ≤ 255) ∧ (∀ c ∈ List.replicate 16 255, c ≤ 255) ∧ (List.replicate 16 255).length = 16 ∧
    (List.replicate 15 255).length ≠ 16 ∧ (List.replicate 16 (0 : Byte)).length % 16 = 0 ∧
    (List.replicate 8 (0 : Byte)).length % 8 = 0 := by decide

/-- Pieces of 256 bytes and of one block. -/
theorem witness_BlocksAreIndependent :
    0 < 256 ∧ Config.blkBytes .aes ∣ 256 ∧ Config.blkBytes .des ∣ 8 ∧ Config.blkBytes .aes ∣ (List.replicate 272 (0 : Byte)).length ∧
    pieces 256 (List.replicate 257 0) = [List.replicate 256 0, [0]] := by decide +kernel

theorem witness_ConversionUtilityLaws :
    (0 : Nat) < ([true] : List Bool).length ∧ (1 : Nat) < ([true, false] : List Bool).length ∧ (-1 : Int) < 0 ∧
    (15 : Nat) < 2 ^ 4 ∧ 2 ^ 4 ≤ (16 : Nat) ∧ (List.replicate 8 true).length % 8 = 0 ∧
    (∃ c ∈ [65, 256], 255 < c) ∧ (∀ c ∈ [65, 255], c ≤ 255) := by decide

end Sys2Proof.Tests
end

section
/-! The address map read backwards: at which addresses each location stands (spec/10_state.md R44, R49). -/

namespace Sys2Proof.Machine

/-- The offset of a register in its engine's window (R35 to R41). -/
def EngReg.offset : EngReg → Nat
  | .status => 0x00
  | .keylen => 0x01
  | .msglenHi => 0x02
  | .msglenLo => 0x03
  | .outlenHi => 0x04
  | .outlenLo => 0x05
  | .key i => 0x10 + i
  | .din i => 0x20 + i
  | .dout i => 0x30 + i

/-- A byte of KEY, DIN or DOUT is one that engine E has. -/
def EngReg.inBounds (e : EngineId) : EngReg → Prop
  | .key i => i < Config.keyBytes e
  | .din i | .dout i => i < Config.blkBytes e
  | _ => True

/-- Location `l` stands at address `n` (R44); a reserved one at any address that the map does not list. -/
def Loc.standsAt (n : Nat) : Loc → Prop
  | .cmd => n = 0x000
  | .gstat => n = 0x001
  | .reg e r => n = Config.base e + r.offset ∧ r.inBounds e
  | .msgbuf e off => n = Config.mbase e + off ∧ off < Config.msgBufBytes
  | .ua => n = 0x800
  | .ub => n = 0x801
  | .ur => n = 0x802
  | .reserved => ¬ listedAddr n

theorem locateReg_standsAt (e : EngineId) (off : Nat) (h : off < 0x100) :
    (locateReg e off).standsAt (Config.base e + off) := by
  unfold locateReg
  split_ifs with h0 h1 h2 h3 h4 h5 hkey hdin hdout
  case neg =>
    cases e <;> simp only [Loc.standsAt, listedAddr, Config.base, Config.keyBytes, Config.blkBytes] at * <;> omega
  all_goals
    simp only [Loc.standsAt, EngReg.offset, EngReg.inBounds, and_true]
    omega

theorem locateBuf_standsAt (e : EngineId) (off : Nat) (h : off < 0x100) :
    (locateBuf e off).standsAt (Config.mbase e + off) := by
  simp only [locateBuf, Config.msgBufBytes, h, if_true, Loc.standsAt, and_self]

/-- What stands at an address stands there. -/
theorem locate_standsAt (a : Addr) : (locate a).standsAt a.toNat := by
  have hoff : a.toNat % 256 < 0x100 := Nat.mod_lt _ (by decide)
  have hsplit : a.toNat = 256 * (a.toNat / 256) + a.toNat % 256 := (Nat.div_add_mod ..).symm
  unfold locate
  generalize a.toNat % 256 = off at *
  generalize a.toNat / 256 = w at *
  rw [hsplit]
  split
  · simp only [locateGlobal]
    split_ifs <;> simp only [Loc.standsAt, listedAddr] <;> omega
  · exact locateReg_standsAt .aes off hoff
  · exact locateReg_standsAt .des off hoff
  · exact locateReg_standsAt .present off hoff
  · exact locateBuf_standsAt .aes off hoff
  · exact locateBuf_standsAt .des off hoff
  · exact locateBuf_standsAt .present off hoff
  · simp only [locateUtil]
    split_ifs <;> simp only [Loc.standsAt, listedAddr] <;> omega
  · simp only [Loc.standsAt, listedAddr, imp_false] at *
    omega

/-- A location that the map lists stands at one address. -/
theorem Loc.standsAt_unique {l : Loc} {m n : Nat} (hm : l.standsAt m) (hn : l.standsAt n) (hl : l ≠ .reserved) :
    m = n := by
  cases l with
  | reserved => exact absurd rfl hl
  | _ =>
    simp only [Loc.standsAt] at hm hn
    omega

theorem locate_inj {a b : Addr} (h : locate a = locate b) (hl : locate a ≠ .reserved) : a = b :=
  BitVec.eq_of_toNat_eq (Loc.standsAt_unique (locate_standsAt a) (h ▸ locate_standsAt b) hl)

@[simp] theorem locate_cmd : locate 0x000 = .cmd := rfl
@[simp] theorem locate_gstat : locate 0x001 = .gstat := rfl
@[simp] theorem locate_status (e : EngineId) : locate (regAddr e 0x00) = .reg e .status := by cases e <;> rfl

theorem locate_eq_cmd {a : Addr} (h : locate a = .cmd) : a = 0x000 :=
  locate_inj (h.trans locate_cmd.symm) (by simp [h])

theorem locate_eq_gstat {a : Addr} (h : locate a = .gstat) : a = 0x001 :=
  locate_inj (h.trans locate_gstat.symm) (by simp [h])

/-! ### Addresses by what may be done there -/

/-- A register of an engine is listed, writable when it is an input of commands and read-only when not (R44). -/
theorem Loc.standsAt_reg {e : EngineId} {r : EngReg} {n : Nat} (h : (Loc.reg e r).standsAt n) :
    listedAddr n ∧ (r.isInput = true ∨ ¬ writableAddr n) ∧ (r.isInput = false ∨ ¬ readOnlyAddr n) := by
  cases e <;> cases r <;>
    simp only [Loc.standsAt, EngReg.offset, EngReg.inBounds, Config.base, Config.keyBytes, Config.blkBytes, listedAddr,
      readOnlyAddr, writableAddr, EngReg.isInput, reduceCtorEq, true_or, false_or, and_true, true_and] at h ⊢ <;>
    omega

/-- A buffer byte is no register. -/
theorem Loc.standsAt_msgbuf {e : EngineId} {off n : Nat} (h : (Loc.msgbuf e off).standsAt n) :
    listedAddr n ∧ ¬ readOnlyAddr n ∧ ¬ writableAddr n := by
  cases e <;>
    simp only [Loc.standsAt, Config.mbase, Config.msgBufBytes, listedAddr, readOnlyAddr, writableAddr] at h ⊢ <;>
    omega

/-- An address that the map does not list is reserved. -/
theorem locate_unlisted {a : Addr} (h : ¬ listedAddr a.toNat) : locate a = .reserved := by
  have hat := locate_standsAt a
  cases hl : locate a <;> rw [hl] at hat
  case reg e r => exact absurd (Loc.standsAt_reg hat).1 h
  case msgbuf e off => exact absurd (Loc.standsAt_msgbuf hat).1 h
  all_goals
    simp only [Loc.standsAt, listedAddr] at hat h
    omega

/-- A read-only address is UR or a register that no command takes as its input (R44, R49). -/
theorem locate_readOnly {a : Addr} (h : readOnlyAddr a.toNat) :
    locate a = .ur ∨ ∃ e r, locate a = .reg e r ∧ r.isInput = false := by
  have hat := locate_standsAt a
  cases hl : locate a <;> rw [hl] at hat
  case ur => exact .inl rfl
  case reg e r => exact .inr ⟨e, r, rfl, (Loc.standsAt_reg hat).2.2.resolve_right (not_not_intro h)⟩
  case msgbuf e off => exact absurd h (Loc.standsAt_msgbuf hat).2.1
  all_goals
    simp only [Loc.standsAt, listedAddr, readOnlyAddr] at hat h
    omega

/-- A writable address is UA, UB or a register that a command takes as its input (R44). -/
theorem locate_writable {a : Addr} (h : writableAddr a.toNat) :
    locate a = .ua ∨ locate a = .ub ∨ ∃ e r, locate a = .reg e r ∧ r.isInput = true ∧ r.inBounds e := by
  have hat := locate_standsAt a
  cases hl : locate a <;> rw [hl] at hat
  case ua => exact .inl rfl
  case ub => exact .inr (.inl rfl)
  case reg e r => exact .inr (.inr ⟨e, r, rfl, (Loc.standsAt_reg hat).2.1.resolve_right (not_not_intro h), hat.2⟩)
  case msgbuf e off => exact absurd h (Loc.standsAt_msgbuf hat).2.2
  all_goals
    simp only [Loc.standsAt, listedAddr, writableAddr] at hat h
    omega

/-! ### Locations by address -/

/-- What stands at an offset of an engine's window (R44). -/
theorem locate_regAddr (e : EngineId) {off : Nat} (h : off < 0x100) : locate (regAddr e off) = locateReg e off := by
  cases e <;> simp only [locate, regAddr, Config.base, BitVec.toNat_ofNat]
  · rw [show (0x100 + off) % 2 ^ 12 / 256 = 1 by omega, show (0x100 + off) % 2 ^ 12 % 256 = off by omega]
    rfl
  · rw [show (0x200 + off) % 2 ^ 12 / 256 = 2 by omega, show (0x200 + off) % 2 ^ 12 % 256 = off by omega]
    rfl
  · rw [show (0x300 + off) % 2 ^ 12 / 256 = 3 by omega, show (0x300 + off) % 2 ^ 12 % 256 = off by omega]
    rfl

theorem locate_key {e : EngineId} {i : Nat} (h : i < Config.keyBytes e) :
    locate (regAddr e (0x10 + i)) = .reg e (.key i) := by
  have hsize : Config.keyBytes e ≤ 16 := by cases e <;> decide
  rw [locate_regAddr e (by omega), locateReg]
  repeat rw [if_neg (by omega)]
  rw [if_pos (by omega), Nat.add_sub_cancel_left]

theorem locate_keylen (e : EngineId) : locate (regAddr e 0x01) = .reg e .keylen := by cases e <;> rfl

end Sys2Proof.Machine
end

section
/-! What a host write changes in an engine: a register write stores its byte and leaves the rest, a buffer write touches
the buffer only (spec/10_state.md R35 to R42, R49). -/

namespace Sys2Proof.Machine

/-! ### Fields that no register or buffer write changes -/

section writes
variable {e : EngineId} (v : Byte) (x : EngineOf e) (r : EngReg) (off : Nat)
@[simp] theorem regWrite_status : (regWrite v x r).status = x.status := by cases r <;> rfl
@[simp] theorem regWrite_outlen : (regWrite v x r).outlen = x.outlen := by cases r <;> rfl
@[simp] theorem regWrite_dout : (regWrite v x r).dout = x.dout := by cases r <;> rfl
@[simp] theorem regWrite_msgbuf : (regWrite v x r).msgbuf = x.msgbuf := by cases r <;> rfl
@[simp] theorem regWrite_fsm : (regWrite v x r).fsm = x.fsm := by cases r <;> rfl
@[simp] theorem regWrite_lat : (regWrite v x r).lat = x.lat := by cases r <;> rfl
@[simp] theorem regWrite_work : (regWrite v x r).work = x.work := by cases r <;> rfl
@[simp] theorem regWrite_j : (regWrite v x r).j = x.j := by cases r <;> rfl
@[simp] theorem regWrite_nblk : (regWrite v x r).nblk = x.nblk := by cases r <;> rfl
@[simp] theorem msgOpRunning_regWrite : msgOpRunning (regWrite v x r) = msgOpRunning x := by cases r <;> rfl
@[simp] theorem bufWrite_status : (bufWrite off v x).status = x.status := by unfold bufWrite; split <;> rfl
@[simp] theorem bufWrite_outlen : (bufWrite off v x).outlen = x.outlen := by unfold bufWrite; split <;> rfl
@[simp] theorem bufWrite_dout : (bufWrite off v x).dout = x.dout := by unfold bufWrite; split <;> rfl
end writes

/-- A field that `setEngine` leaves at engine E, it leaves at every engine. -/
theorem setEngine_field {β : EngineId → Type} (f : ∀ e, EngineOf e → β e) (s : State) {e : EngineId} {x : EngineOf e}
    (h : f e x = f e (s.engine e)) (e' : EngineId) : f e' ((s.setEngine e x).engine e') = f e' (s.engine e') := by
  by_cases he : e' = e
  · subst he
    rw [setEngine_engine_same, h]
  · rw [setEngine_engine_other s x he]

/-! ### Reading a register back -/

theorem regWrite_readOnly {e : EngineId} (v : Byte) (x : EngineOf e) {r : EngReg} (h : r.isInput = false) :
    regWrite v x r = x := by
  cases r with
  | keylen | msglenHi | msglenLo | key | din => cases h
  | _ => rfl

theorem regRead_regWrite_same {e : EngineId} (v : Byte) (x : EngineOf e) {r : EngReg} (hr : r.isInput = true)
    (hb : r.inBounds e) : regRead (regWrite v x r) r = v := by
  cases r with
  | keylen => rfl
  | msglenHi => exact BitVec.extractLsb'_append_eq_left
  | msglenLo => exact BitVec.extractLsb'_append_eq_right
  | key i => exact vector_getD_set_same _ _ _ hb
  | din i => exact vector_getD_set_same _ _ _ hb
  | _ => cases hr

theorem regRead_regWrite_other {e : EngineId} (v : Byte) (x : EngineOf e) {r r' : EngReg} (h : r' ≠ r) :
    regRead (regWrite v x r) r' = regRead x r' := by
  cases r with
  | msglenHi =>
    cases r' with
    | msglenHi => exact absurd rfl h
    | msglenLo => exact BitVec.extractLsb'_append_eq_right
    | _ => rfl
  | msglenLo =>
    cases r' with
    | msglenHi => exact BitVec.extractLsb'_append_eq_left
    | msglenLo => exact absurd rfl h
    | _ => rfl
  | key i =>
    cases r' with
    | key k => exact vector_getD_set_other _ _ _ fun hk => h (hk ▸ rfl)
    | _ => rfl
  | din i =>
    cases r' with
    | din k => exact vector_getD_set_other _ _ _ fun hk => h (hk ▸ rfl)
    | _ => rfl
  | keylen =>
    cases r' with
    | keylen => exact absurd rfl h
    | _ => rfl
  | _ => rfl

end Sys2Proof.Machine
end

section
/-! What a bus write, a host turn, an engine turn and the turn of any agent can do, said once (spec/10_state.md R30,
R45 to R47; spec/20_memory.md R83). -/

namespace Sys2Proof.Machine

/-! ### Host turns -/

/-- What a bus write can do: a CMD write, a GSTAT write, a write inside one engine's window or buffer, UA, UB, or nothing. -/
theorem busWrite_cases {s t : State} {a : Addr} {v : Byte} (h : busWrite s a v = .next t) :
    (a = 0x000 ∧ cmdWrite v s = .next t) ∨ (a = 0x001 ∧ t = gstatWrite v s) ∨
    (∃ e r, t = s.setEngine e (regWrite v (s.engine e) r)) ∨
    (∃ e off, off < Config.msgBufBytes ∧ t = s.setEngine e (bufWrite off v (s.engine e))) ∨
    t = { s with ua := v } ∨ t = { s with ub := v } ∨ t = s := by
  unfold busWrite at h
  cases hl : locate a <;> rw [hl] at h
  case cmd => exact .inl ⟨locate_eq_cmd hl, h⟩
  all_goals
    simp only [locWrite, outcome_next_inj] at h
    subst h
  case gstat => exact .inr (.inl ⟨locate_eq_gstat hl, rfl⟩)
  case reg e r => exact .inr (.inr (.inl ⟨e, r, rfl⟩))
  case msgbuf e off => exact .inr (.inr (.inr (.inl ⟨e, off, locate_msgbuf hl, rfl⟩)))
  all_goals simp

/-- A read leaves the core alone (20_memory.md R90). -/
theorem sameCore_busRead (s : State) (a : Addr) : sameCore s (busRead s a).2 := by
  unfold busRead
  rcases locRead_state s (locate a) with h | ⟨h, -⟩ <;> rw [h]
  · exact ⟨rfl, rfl, rfl, rfl, rfl, fun _ => rfl, rfl⟩
  · exact ⟨rfl, rfl, rfl, rfl, rfl, fun e => by simp, rfl⟩

/-- What a host turn can do: the bus write of its line, or something that leaves the core alone. -/
theorem hostTurn_cases {s t : State} (h : hostTurn s = .next t) :
    (∃ a v lines, s.host = .wr8 a v :: lines ∧ busWrite { s with host := lines } a (hostValue s.vars v) = .next t) ∨
    (sameCore s t ∧ (cellsRising s.vars → cellsRising t.vars)) := by
  unfold hostTurn at h
  split at h
  case h_1 =>
    rw [outcome_next_inj] at h
    subst h
    exact .inr ⟨⟨rfl, rfl, rfl, rfl, rfl, fun _ => rfl, rfl⟩, id⟩
  case h_2 a v lines hs => exact .inl ⟨a, v, lines, hs, h⟩
  case h_3 a name lines hs =>
    rw [outcome_next_inj] at h
    subst h
    obtain ⟨hill, hrej, hua, hub, hur, heng, hep⟩ := sameCore_busRead { s with host := lines } a
    refine .inr ⟨⟨hill, hrej, hua, hub, hur, fun e => ?_, hep⟩, fun hv => ?_⟩
    · rw [engine_with_rdata_vars, heng, engine_with_host]
    · exact cellsRising_cellWrite (by simpa using hv) _ _
  case h_4 a mask value lines hs =>
    rw [outcome_next_inj] at h
    subst h
    obtain ⟨hill, hrej, hua, hub, hur, heng, hep⟩ := sameCore_busRead s a
    refine .inr ⟨⟨hill, hrej, hua, hub, hur, fun e => ?_, hep⟩, fun hv => by simpa using hv⟩
    rw [engine_with_rdata_host, heng]

/-! ### Engine turns -/

/-- What one FSM step does to the registers that the host can read but not write: nothing, or the completion of the command
in STORE or MSGINIT (40_common.md R170 to R176), where DOUT changes in a block op only. -/
theorem engineStep_results {e : EngineId} {ep : Nat} {x y : EngineOf e} (h : engineStep ep x = .ok y) :
    (y.status = x.status ∧ y.outlen = x.outlen ∧ y.dout = x.dout) ∨
    ((x.fsm = .store ∨ x.fsm = .msginit) ∧ y.fsm = .idle ∧ y.status = statusCompleted x.status ∧
      (y.dout = x.dout ∨ (x.fsm = .store ∧ latMode x = .blk))) := by
  unfold engineStep at h
  split at h
  case h_1 hf => cases h; simp
  case h_2 i hf =>
    split at h
    · cases h
      unfold afterKs
      repeat' split
      all_goals simp
    · cases h
  case h_3 hf =>
    unfold msginitOn at h
    split at h
    · cases h
      split <;> simp [hf]
    · cases h
  case h_4 hf =>
    split at h <;> cases h
    simp
  case h_5 i hf =>
    split at h <;> cases h
    simp
  case h_6 hf =>
    unfold storeOut at h
    split at h
    case h_1 hm =>
      cases h
      simp [hf, hm]
    case h_2 hm =>
      split at h <;> cases h
      split <;> simp [hf]

end Sys2Proof.Machine
end

section
/-! The invariant of the machine, through the turn of every agent (spec/10_state.md R60, spec/60_exceptions.md R437). -/

namespace Sys2Proof.Machine

variable {s t : State}

/-- The invariant reads the engines and the bound names only. -/
theorem inv_congr (h : Inv s) (he : ∀ e, t.engine e = s.engine e) (hv : cellsRising t.vars) : Inv t where
  engines e := he e ▸ h.engines e
  vars := hv

theorem inv_setEngine (h : Inv s) {e : EngineId} {x : EngineOf e} (hx : EngineInv x) : Inv (s.setEngine e x) where
  engines e' := by
    by_cases he : e' = e
    · subst he
      rwa [setEngine_engine_same]
    · rw [setEngine_engine_other s x he]
      exact h.engines e'
  vars := by rw [setEngine_vars]; exact h.vars

theorem inv_reset : Inv State.reset where
  engines e := by rw [reset_engine]; exact engineInv_reset e
  vars := .nil

theorem inv_resetCore (h : Inv s) : Inv (resetCore s) where
  engines e := by
    rw [resetCore_engine]
    exact engineInv_congr (engineInv_reset e) rfl rfl rfl rfl rfl (engineInv_reset e).mem_wf
  vars := h.vars

theorem inv_acceptCipher (h : Inv s) {e : EngineId} {m : Mode} {d : Dir}
    (ht : acceptCipher e (encodeFields (.cipher e m d)) m d s = .next t) : Inv t := by
  rcases acceptCipher_cases e (encodeFields (.cipher e m d)) m d s with ⟨-, heq⟩ | ⟨-, hc, heq⟩ | ⟨hb, hc, heq⟩ <;>
    (rw [heq, outcome_next_inj] at ht; subst ht)
  · exact inv_congr h (setBusyrej_engine s) h.vars
  · exact inv_setEngine h (engineInv_accept (h.engines e) hc)
  · exact inv_setEngine h (engineInv_raise (h.engines e) hb hc)

theorem inv_cmdWrite (h : Inv s) {v : Byte} (ht : cmdWrite v s = .next t) : Inv t := by
  rcases cmdWrite_cases v s with ⟨-, heq⟩ | ⟨f, u, -, heq⟩ | ⟨e, m, d, rfl, -, heq⟩ <;> rw [heq] at ht
  · rw [outcome_next_inj] at ht
    exact ht ▸ inv_congr h (setIllegal_engine s) h.vars
  · rw [outcome_next_inj] at ht
    exact ht ▸ inv_congr h (engine_with_ur s u) h.vars
  · exact inv_acceptCipher h ht

theorem inv_busWrite (h : Inv s) {a : Addr} {v : Byte} (ht : busWrite s a v = .next t) : Inv t := by
  rcases busWrite_cases ht with ⟨-, hc⟩ | ⟨-, rfl⟩ | ⟨e, r, rfl⟩ | ⟨e, off, ho, rfl⟩ | rfl | rfl | rfl
  · exact inv_cmdWrite h hc
  · exact inv_congr h (gstatWrite_engine v s) h.vars
  · exact inv_setEngine h (engineInv_regWrite (h.engines e) v r)
  · exact inv_setEngine h (engineInv_bufWrite (h.engines e) ho v)
  · exact inv_congr h (engine_with_ua s v) h.vars
  · exact inv_congr h (engine_with_ub s v) h.vars
  · exact h

theorem inv_hostTurn (h : Inv s) (ht : hostTurn s = .next t) : Inv t := by
  rcases hostTurn_cases ht with ⟨a, v, lines, -, hw⟩ | ⟨⟨-, -, -, -, -, heng, -⟩, hv⟩
  · exact inv_busWrite (inv_congr h (engine_with_host s lines) h.vars) hw
  · exact inv_congr h heng (hv h.vars)

/-- From a state of the invariant every agent's turn answers a next state of the invariant. -/
theorem inv_agentTurn (h : Inv s) (g : Agent) : ∃ t, agentTurn g s = .next t ∧ Inv t := by
  cases g with
  | host =>
    obtain ⟨t, ht⟩ := hostTurn_next s
    exact ⟨t, ht, inv_hostTurn h ht⟩
  | engine e =>
    obtain ⟨y, hy, hinv⟩ := engineInv_step (ep := s.epoch) (h.engines e)
    exact ⟨_, engineTurn_ok hy, inv_setEngine h hinv⟩
  | reset => exact ⟨_, rfl, inv_resetCore h⟩

/-- Settles O51: an engine at reset meets its invariant, and no name is bound. -/
theorem invariantHoldsAtReset : Obligations.InvariantHoldsAtReset := inv_reset

/-- Settles O52: the step is the turn of the agent at the head of the schedule, or of the default one, and every agent's
turn keeps the invariant. -/
theorem everyStepAnswersNextAndKeepsTheInvariant : Obligations.EveryStepAnswersNextAndKeepsTheInvariant := by
  intro s h
  cases hs : s.sched with
  | nil =>
    rw [step_default hs]
    exact inv_agentTurn h _
  | cons g rest =>
    rw [step_sched hs]
    exact inv_agentTurn (inv_congr h (engine_with_sched s rest) h.vars) g

end Sys2Proof.Machine
end

section
/-! Which turns write STATUS, GSTAT and the result registers (spec/10_state.md R34, R38, R41, R43, R45 to R47). -/

namespace Sys2Proof.Machine

variable {s t : State}

/-! ### CMD writes -/

/-- A cipher command for a busy engine sets BUSYREJ (40_common.md R161). -/
theorem cmdWrite_busy {e : EngineId} (m : Mode) (d : Dir) (hb : (s.engine e).status.busy = true) :
    cmdWrite (encodeFields (.cipher e m d)) s = .next (setBusyrej s) := by
  simp only [cmdWrite, decode, decodeFields_encodeFields, Except.map]
  rw [exec_cipher, acceptCipher_busy _ _ _ hb]

/-- An illegal byte sets ILLEGAL (30_encoding.md R127). -/
theorem cmdWrite_illegal {v : Byte} {r : Illegal} (h : decode v = .error r) :
    cmdWrite v s = .next (setIllegal s) := by simp only [cmdWrite, h]

/-- A CMD write that changes E's STATUS is an accept of one of E's commands or its refusal with an error. -/
theorem cmdWrite_status {v : Byte} (ht : cmdWrite v s = .next t) {e : EngineId}
    (hne : (t.engine e).status ≠ (s.engine e).status) :
    ∃ m d, v = encodeFields (.cipher e m d) ∧ (s.engine e).status.busy = false ∧
      ((t.engine e).status = statusAccepted ∨
        ∃ c, c ≠ .none ∧ (t.engine e).status = statusRefused c (s.engine e).status) := by
  rcases cmdWrite_cases v s with ⟨-, heq⟩ | ⟨f, u, -, heq⟩ | ⟨e', m, d, hv, -, heq⟩ <;> rw [heq] at ht
  · rw [outcome_next_inj] at ht
    exact absurd (by simp [← ht]) hne
  · rw [outcome_next_inj] at ht
    exact absurd (by simp [← ht]) hne
  · rcases acceptCipher_cases e' v m d s with ⟨-, heq⟩ | ⟨hb, -, heq⟩ | ⟨hb, hc, heq⟩ <;>
      (rw [heq, outcome_next_inj] at ht; subst ht)
    · exact absurd (by simp) hne
    · by_cases he : e = e'
      · subst he
        exact ⟨m, d, hv, hb, .inl (by simp)⟩
      · exact absurd (by rw [setEngine_engine_other s _ he]) hne
    · by_cases he : e = e'
      · subst he
        exact ⟨m, d, hv, hb, .inr ⟨_, hc, by simp [raiseCmdError]⟩⟩
      · exact absurd (by rw [raiseCmdError, setEngine_engine_other s _ he]) hne

/-- A CMD write leaves DOUT and OUTLEN of every engine, and changes UR only for a UTIL command. -/
theorem cmdWrite_results {v : Byte} (ht : cmdWrite v s = .next t) :
    (∀ e, (t.engine e).dout = (s.engine e).dout ∧ (t.engine e).outlen = (s.engine e).outlen) ∧
    (t.ur ≠ s.ur → ∃ f, v = encodeFields (.util f)) := by
  rcases cmdWrite_cases v s with ⟨-, heq⟩ | ⟨f, u, hd, heq⟩ | ⟨e', m, d, -, -, heq⟩ <;> rw [heq] at ht
  · rw [outcome_next_inj] at ht
    subst ht
    exact ⟨fun e => by simp, fun h => absurd rfl h⟩
  · rw [outcome_next_inj] at ht
    subst ht
    exact ⟨fun e => by simp, fun _ => ⟨f, (encodeFields_of_decodeFields hd).symm⟩⟩
  · rcases acceptCipher_cases e' v m d s with ⟨-, heq⟩ | ⟨-, -, heq⟩ | ⟨-, -, heq⟩ <;>
      (rw [heq, outcome_next_inj] at ht; subst ht)
    · exact ⟨fun e => by simp, fun h => absurd rfl h⟩
    all_goals
      refine ⟨fun e => ⟨?_, ?_⟩, fun h => absurd (by simp [raiseCmdError]) h⟩
      · exact setEngine_field (fun _ x => x.dout) s (by simp) e
      · exact setEngine_field (fun _ x => x.outlen) s (by simp) e

/-- A CMD write clears no GSTAT bit. -/
theorem cmdWrite_gstat {v : Byte} (ht : cmdWrite v s = .next t) :
    (s.illegal = true → t.illegal = true) ∧ (s.busyrej = true → t.busyrej = true) := by
  rcases cmdWrite_cases v s with ⟨-, heq⟩ | ⟨f, u, -, heq⟩ | ⟨e, m, d, -, -, heq⟩ <;> rw [heq] at ht
  · rw [outcome_next_inj] at ht
    simp [← ht]
  · rw [outcome_next_inj] at ht
    simp [← ht]
  · rcases acceptCipher_cases e v m d s with ⟨-, heq⟩ | ⟨-, -, heq⟩ | ⟨-, -, heq⟩ <;>
      (rw [heq, outcome_next_inj] at ht; subst ht; simp [raiseCmdError])

/-! ### Host turns -/

/-- A bus write is a CMD write, or leaves UR and what the engines report. -/
theorem busWrite_results {a : Addr} {v : Byte} (ht : busWrite s a v = .next t) :
    (a = 0x000 ∧ cmdWrite v s = .next t) ∨
    (t.ur = s.ur ∧ ∀ e, (t.engine e).status = (s.engine e).status ∧ (t.engine e).outlen = (s.engine e).outlen ∧
      (t.engine e).dout = (s.engine e).dout) := by
  rcases busWrite_cases ht with hc | ⟨-, rfl⟩ | ⟨e', r, rfl⟩ | ⟨e', off, -, rfl⟩ | rfl | rfl | rfl
  · exact .inl hc
  case inr.inr.inr.inl | inr.inr.inl =>
    refine .inr ⟨by simp, fun e => ⟨?_, ?_, ?_⟩⟩
    · exact setEngine_field (fun _ x => x.status) s (by simp) e
    · exact setEngine_field (fun _ x => x.outlen) s (by simp) e
    · exact setEngine_field (fun _ x => x.dout) s (by simp) e
  all_goals exact .inr ⟨rfl, fun e => by simp⟩

/-- A host turn is a CMD write, or leaves UR and what the engines report. -/
theorem hostTurn_results (ht : hostTurn s = .next t) :
    (∃ v lines, s.host = .wr8 0x000 v :: lines ∧ cmdWrite (hostValue s.vars v) { s with host := lines } = .next t) ∨
    (t.ur = s.ur ∧ ∀ e, (t.engine e).status = (s.engine e).status ∧ (t.engine e).outlen = (s.engine e).outlen ∧
      (t.engine e).dout = (s.engine e).dout) := by
  rcases hostTurn_cases ht with ⟨a, v, lines, hs, hw⟩ | ⟨⟨-, -, -, -, hur, heng, -⟩, -⟩
  · rcases busWrite_results hw with ⟨rfl, hc⟩ | ⟨hur, hsame⟩
    · exact .inl ⟨v, lines, hs, hc⟩
    · exact .inr ⟨hur, by simpa using hsame⟩
  · exact .inr ⟨hur, fun e => by simp [heng]⟩

/-- What a turn can do to GSTAT's own bits: reset, a host write to GSTAT, or no clearing. -/
theorem agentTurn_gstat {g : Agent} (ht : agentTurn g s = .next t) :
    g = .reset ∨
    (g = .host ∧ ∃ v lines, s.host = .wr8 0x001 v :: lines ∧
      t.illegal = (s.illegal && !(hostValue s.vars v).getLsbD 0) ∧
      t.busyrej = (s.busyrej && !(hostValue s.vars v).getLsbD 1)) ∨
    ((s.illegal = true → t.illegal = true) ∧ (s.busyrej = true → t.busyrej = true)) := by
  cases g with
  | reset => exact .inl rfl
  | engine e =>
    obtain ⟨y, -, rfl⟩ := engineTurn_next ht
    simp
  | host =>
    rcases hostTurn_cases ht with ⟨a, v, lines, hs, hw⟩ | ⟨⟨hill, hrej, -⟩, -⟩
    · rcases busWrite_cases hw with ⟨-, hc⟩ | ⟨rfl, rfl⟩ | ⟨e, r, rfl⟩ | ⟨e, off, -, rfl⟩ | rfl | rfl | rfl
      · exact .inr (.inr (cmdWrite_gstat (s := { s with host := lines }) hc))
      · exact .inr (.inl ⟨rfl, v, lines, hs, rfl, rfl⟩)
      all_goals simp
    · exact .inr (.inr (by simp [hill, hrej]))

/-! ### The obligations -/

/-- Settles O49: a host turn writes STATUS through CMD only, an engine turn through its completion only. -/
theorem onlyTheseEventsWriteStatus : Obligations.OnlyTheseEventsWriteStatus := by
  intro s t g e ht hne
  cases g with
  | host =>
    rcases hostTurn_results ht with ⟨v, lines, hs, hc⟩ | ⟨-, hsame⟩
    · obtain ⟨m, d, hv, hb, hst⟩ := cmdWrite_status hc (e := e) (by rwa [engine_with_host])
      rw [engine_with_host] at hb hst
      exact .inl ⟨rfl, v, m, d, lines, hs, hv, hb, hst⟩
    · exact absurd (hsame e).1 hne
  | engine e' =>
    obtain ⟨y, hy, rfl⟩ := engineTurn_next ht
    by_cases he : e = e'
    · subst he
      rw [setEngine_engine_same] at hne ⊢
      rcases engineStep_results hy with ⟨hst, -⟩ | ⟨hf, hidle, hst, -⟩
      · exact absurd hst hne
      · exact .inr (.inl ⟨rfl, by rcases hf with hf | hf <;> simp [hf], hidle, hst⟩)
    · exact absurd (by rw [setEngine_engine_other s y he]) hne
  | reset =>
    rw [agentTurn, outcome_next_inj] at ht
    exact .inr (.inr ⟨rfl, by rw [← ht, resetCore_engine]; rfl⟩)

/-- Settles O50: host turns never write DOUT and OUTLEN, engine turns never write UR, and an engine turn writes its result
registers at its completion only. -/
theorem resultRegistersChangeOnlyAtCompletion : Obligations.ResultRegistersChangeOnlyAtCompletion := by
  intro s t g ht hg
  cases g with
  | host =>
    rcases hostTurn_results ht with ⟨v, lines, hs, hc⟩ | ⟨hur, hsame⟩
    · obtain ⟨hsame, hur⟩ := cmdWrite_results hc
      simp only [engine_with_host] at hsame
      refine ⟨fun e hne => absurd (hsame e).1 hne, fun e hne => absurd (hsame e).2 hne, fun hne => ⟨rfl, ?_⟩⟩
      obtain ⟨f, hv⟩ := hur hne
      exact ⟨v, f, lines, hs, hv⟩
    · exact ⟨fun e hne => absurd (hsame e).2.2 hne, fun e hne => absurd (hsame e).2.1 hne, fun hne => absurd hur hne⟩
  | engine e' =>
    obtain ⟨y, hy, rfl⟩ := engineTurn_next ht
    refine ⟨fun e hne => ?_, fun e hne => ?_, fun hne => absurd (by simp) hne⟩ <;> by_cases he : e = e'
    · subst he
      rw [setEngine_engine_same] at hne ⊢
      rcases engineStep_results hy with ⟨-, -, hd⟩ | ⟨-, hidle, -, hd | ⟨hf, hm⟩⟩
      · exact absurd hd hne
      · exact absurd hd hne
      · exact ⟨rfl, hf, hm, hidle⟩
    · exact absurd (by rw [setEngine_engine_other s y he]) hne
    · subst he
      rw [setEngine_engine_same] at hne ⊢
      rcases engineStep_results hy with ⟨-, ho, -⟩ | ⟨hf, hidle, -⟩
      · exact absurd ho hne
      · exact ⟨rfl, hf, hidle⟩
    · exact absurd (by rw [setEngine_engine_other s y he]) hne
  | reset => exact absurd rfl hg

end Sys2Proof.Machine
end

section
/-! The bits of STATUS and GSTAT as the host reads them (spec/10_state.md R34, R35). -/

namespace Sys2Proof.Machine

theorem readAt_status (s : State) (e : EngineId) : s.readAt (regAddr e 0x00) = statusByte (s.engine e).status := by
  rw [State.readAt, busRead, locate_status]
  rfl

/-- GSTAT by its bits (R34). -/
theorem getLsbD_gstatByte (s : State) :
    (gstatByte s).getLsbD 0 = s.illegal ∧ (gstatByte s).getLsbD 1 = s.busyrej ∧ (gstatByte s).getLsbD 2 = false ∧
    (gstatByte s).getLsbD 3 = false ∧ (gstatByte s).getLsbD 4 = s.aes.status.busy ∧
    (gstatByte s).getLsbD 5 = s.des.status.busy ∧ (gstatByte s).getLsbD 6 = s.present.status.busy ∧
    (gstatByte s).getLsbD 7 = false := by
  unfold gstatByte
  generalize s.present.status.busy = p, s.des.status.busy = d, s.aes.status.busy = a, s.busyrej = r, s.illegal = i
  revert p d a r i
  decide

/-- STATUS by its bits (R35). -/
theorem getLsbD_statusByte (st : Status) :
    (statusByte st).getLsbD 0 = st.busy ∧ (statusByte st).getLsbD 1 = st.done ∧ (statusByte st).getLsbD 2 = st.err ∧
    (statusByte st).getLsbD 3 = false := by
  obtain ⟨busy, done, err, code⟩ := st
  cases code <;> revert busy done err <;> decide

/-- ERRCODE stands in bits 7:4 (R35). -/
theorem extractLsb'_statusByte (st : Status) : (statusByte st).extractLsb' 4 4 = errCodeBits st.errcode :=
  BitVec.extractLsb'_append_eq_left

/-- GSTAT's reserved bits 7, 3 and 2 read 0 (R34, R49). -/
theorem gstatByte_reserved (s : State) : gstatByte s &&& 0x8C = 0 := by
  unfold gstatByte
  generalize s.present.status.busy = p, s.des.status.busy = d, s.aes.status.busy = a, s.busyrej = r, s.illegal = i
  revert p d a r i
  decide

/-- A GSTAT write leaves bits 7 to 2 of GSTAT (R34, R49). -/
theorem gstatByte_gstatWrite_readOnly (v : Byte) (s : State) :
    gstatByte (gstatWrite v s) &&& 0xFC = gstatByte s &&& 0xFC := by
  simp only [gstatByte, gstatWrite]
  generalize s.present.status.busy = p, s.des.status.busy = d, s.aes.status.busy = a, s.busyrej = r, s.illegal = i,
    v.getLsbD 0 = v0, v.getLsbD 1 = v1
  revert p d a r i v0 v1
  decide

/-- STATUS' reserved bit 3 reads 0 (R35, R49). -/
theorem statusByte_reserved (st : Status) : statusByte st &&& 0x08 = 0 := by
  obtain ⟨busy, done, err, code⟩ := st
  cases code <;> revert busy done err <;> decide

/-- With at most one flag set, the flag bits of STATUS are 0 or a power of two (R35). -/
theorem statusByte_oneFlag {st : Status}
    (h : ¬ (st.busy ∧ st.done) ∧ ¬ (st.busy ∧ st.err) ∧ ¬ (st.done ∧ st.err)) :
    statusByte st &&& 0x07 = 0 ∨ statusByte st &&& 0x07 = 1 ∨ statusByte st &&& 0x07 = 2 ∨
      statusByte st &&& 0x07 = 4 := by
  obtain ⟨busy, done, err, code⟩ := st
  revert h
  cases code <;> revert busy done err <;> decide

/-- A code that stands for an error is 1 or 2 (R402). -/
theorem errCodeBits_of_ne_none {c : ErrCode} (h : c ≠ .none) : errCodeBits c = 1 ∨ errCodeBits c = 2 := by
  cases c with
  | none => exact absurd rfl h
  | invalidKeyLength => exact .inl rfl
  | badMsgLength => exact .inr rfl

/-! ### The obligations -/

/-- Settles O14: the bits of the byte are the fields of STATUS, of which the engine's invariant speaks. -/
theorem statusBitsAreExclusive : Obligations.StatusBitsAreExclusive := by
  intro s e h
  have hinv := h.engines e
  obtain ⟨hbusy, hdone, herr, hres⟩ := getLsbD_statusByte (s.engine e).status
  rw [readAt_status]
  refine ⟨hbusy, hdone, herr, hres, statusByte_oneFlag hinv.one_flag, fun h0 => ?_, fun h1 => ?_, ?_⟩
  · rw [herr] at h0
    rw [extractLsb'_statusByte, hinv.err_code.2 h0]
    rfl
  · rw [herr] at h1
    rw [extractLsb'_statusByte]
    exact errCodeBits_of_ne_none fun hnone => by simp [hinv.err_code.1 hnone] at h1
  · rw [hbusy]
    exact hinv.busy_iff

/-- Settles O12: address 0x000 is CMD, which holds no value (R33). -/
theorem cmdIsWriteOnly : Obligations.CmdIsWriteOnly :=
  ⟨fun _ _ => rfl, fun _ => rfl, fun _ _ _ _ => rfl⟩

/-- Settles O13: the bits are those of `getLsbD_gstatByte`, and by `agentTurn_gstat` no turn clears one but a GSTAT write of
1 to it or reset. -/
theorem gstatBitsAreStickyUntilWrittenOne : Obligations.GstatBitsAreStickyUntilWrittenOne := by
  refine ⟨getLsbD_gstatByte, fun s v => rfl, fun s v r hv => ⟨_, cmdWrite_illegal hv, rfl⟩,
    fun s e m d hb => ⟨_, cmdWrite_busy m d hb, rfl⟩, fun s t g ht h1 h0 => ?_, fun s t g ht h1 h0 => ?_,
    fun s => ⟨_, rfl, rfl, rfl⟩, rfl⟩
  · rcases agentTurn_gstat ht with hg | ⟨hg, v, lines, hs, hill, -⟩ | ⟨hkeep, -⟩
    · exact .inl hg
    · exact .inr ⟨hg, v, lines, hs, by simpa [h0, h1] using hill⟩
    · simp [hkeep h1] at h0
  · rcases agentTurn_gstat ht with hg | ⟨hg, v, lines, hs, -, hrej⟩ | ⟨-, hkeep⟩
    · exact .inl hg
    · exact .inr ⟨hg, v, lines, hs, by simpa [h0, h1] using hrej⟩
    · simp [hkeep h1] at h0

/-- Settles O15: an unlisted address is reserved, and a read-only one is UR or a register that ignores writes. -/
theorem reservedAndReadOnlyAccessesDoNothing : Obligations.ReservedAndReadOnlyAccessesDoNothing := by
  refine ⟨fun s a ha => ?_, fun s a ha v => ?_,
    fun s v => ⟨gstatWrite v s, rfl, gstatByte_gstatWrite_readOnly v s, rfl, rfl⟩, gstatByte_reserved, fun s e => ?_⟩
  · simp [busRead, busWrite, locate_unlisted ha, locRead, locWrite]
  · rcases locate_readOnly ha with hl | ⟨e, r, hl, hr⟩
    · simp [busWrite, hl, locWrite]
    · simp [busWrite, hl, locWrite, regWrite_readOnly v _ hr]
  · rw [readAt_status]
    exact statusByte_reserved _

end Sys2Proof.Machine
end

section
/-! A write to a register that a command takes as its input stores the byte and nothing else (spec/10_state.md R36, R37, R39,
R40, R43). -/

namespace Sys2Proof.Machine

/-- The byte that a read of a buffer location returns (70_reset_and_hazards.md R452). -/
theorem locRead_msgbuf_fst (s : State) (e : EngineId) (off : Nat) :
    (locRead s (.msgbuf e off)).1 =
      if msgOpRunning (s.engine e) then Config.busyDraw s.draws else bufRead e s.epoch (s.engine e).msgbuf off :=
  apply_ite Prod.fst _ _ _

/-- After a write to one register of a window, every other location reads as before. -/
theorem locRead_setEngine_regWrite (s : State) (e : EngineId) (r : EngReg) (v : Byte) {l : Loc} (hl : l ≠ .reg e r) :
    (locRead (s.setEngine e (regWrite v (s.engine e) r)) l).1 = (locRead s l).1 := by
  have hstatus := setEngine_field (fun _ x => x.status) s (regWrite_status v (s.engine e) r)
  have hrun := setEngine_field (fun _ x => msgOpRunning x) s (msgOpRunning_regWrite v (s.engine e) r)
  have hbuf := setEngine_field (fun _ x => x.msgbuf) s (regWrite_msgbuf v (s.engine e) r)
  cases l with
  | gstat => simp only [locRead, gstatByte, setEngine_illegal, setEngine_busyrej, ← engine_aes, ← engine_des,
      ← engine_present, hstatus]
  | reg e' r' =>
    by_cases he : e' = e
    · subst he
      simp only [locRead, setEngine_engine_same]
      exact regRead_regWrite_other v _ fun hr => hl (hr ▸ rfl)
    · simp only [locRead, setEngine_engine_other s _ he]
  | msgbuf e' off =>
    simp only [locRead_msgbuf_fst, hrun, hbuf, setEngine_draws, setEngine_epoch]
  | _ => simp [locRead]

/-- UA and UB are read at their own addresses only. -/
theorem locRead_with_ua (s : State) (v : Byte) {l : Loc} (hl : l ≠ .ua) :
    (locRead { s with ua := v } l).1 = (locRead s l).1 := by
  cases l with
  | ua => exact absurd rfl hl
  | msgbuf e off => simp only [locRead_msgbuf_fst, engine_with_ua]
  | reg e r => simp only [locRead, engine_with_ua]
  | _ => rfl

theorem locRead_with_ub (s : State) (v : Byte) {l : Loc} (hl : l ≠ .ub) :
    (locRead { s with ub := v } l).1 = (locRead s l).1 := by
  cases l with
  | ub => exact absurd rfl hl
  | msgbuf e off => simp only [locRead_msgbuf_fst, engine_with_ub]
  | reg e r => simp only [locRead, engine_with_ub]
  | _ => rfl

/-- No other address shares a listed location. -/
theorem locate_ne {a b : Addr} (h : b ≠ a) (hl : locate a ≠ .reserved) : locate b ≠ locate a :=
  fun heq => h (locate_inj heq.symm hl).symm

/-- Settles O16: such an address is UA, UB or an input register, and none of them is read anywhere else. -/
theorem writableRegistersOnlyStoreTheByte : Obligations.WritableRegistersOnlyStoreTheByte := by
  intro s a v ha
  rcases locate_writable ha with hl | hl | ⟨e, r, hl, hin, hb⟩
  · refine ⟨{ s with ua := v }, by simp [busWrite, hl, locWrite], by simp [State.readAt, busRead, hl, locRead],
      fun b hne => locRead_with_ua s v ?_, ?_⟩
    · exact hl ▸ locate_ne hne (by simp [hl])
    · simp
  · refine ⟨{ s with ub := v }, by simp [busWrite, hl, locWrite], by simp [State.readAt, busRead, hl, locRead],
      fun b hne => locRead_with_ub s v ?_, ?_⟩
    · exact hl ▸ locate_ne hne (by simp [hl])
    · simp
  · refine ⟨s.setEngine e (regWrite v (s.engine e) r), by simp [busWrite, hl, locWrite], ?_,
      fun b hne => locRead_setEngine_regWrite s e r v ?_, by simp, by simp, by simp, by simp, by simp, by simp, by simp,
      by simp, by simp, fun e' => ?_⟩
    · simp only [State.readAt, busRead, hl, locRead, setEngine_engine_same]
      exact regRead_regWrite_same v _ hin hb
    · exact hl ▸ locate_ne hne (by simp [hl])
    · by_cases he : e' = e
      · subst he
        simp
      · simp [setEngine_engine_other s _ he]

end Sys2Proof.Machine
end

section
/-! Whose turn a step is, and steps that run the host's lines (spec/10_state.md R30, R33, spec/30_encoding.md R130). -/

namespace Sys2Proof.Machine

/-! ### Whose turn it is -/

/-- With every engine idle the default turn is the host's (log 1). -/
theorem defaultAgent_idle {s : State} (h : ∀ e, (s.engine e).fsm = .idle) : defaultAgent s = .host := by
  simp [defaultAgent, show s.aes.fsm = .idle from h .aes, show s.des.fsm = .idle from h .des,
    show s.present.fsm = .idle from h .present]

/-- With an engine at work the default turn is that of an engine at work (log 1). -/
theorem defaultAgent_running {s : State} (h : ∃ e, (s.engine e).fsm ≠ .idle) :
    ∃ e, (s.engine e).fsm ≠ .idle ∧ defaultAgent s = .engine e := by
  unfold defaultAgent
  split_ifs with ha hd hp
  · exact ⟨.aes, ha, rfl⟩
  · exact ⟨.des, hd, rfl⟩
  · exact ⟨.present, hp, rfl⟩
  · obtain ⟨e, he⟩ := h
    cases e <;> contradiction

/-- Settles O5: the head of the schedule moves, or the default agent. -/
theorem stepIsOneTurnOfTheScheduledAgent : Obligations.StepIsOneTurnOfTheScheduledAgent := by
  refine ⟨fun s g rest h => step_sched h, fun s h hidle => ?_, fun s h hrun => ?_⟩
  · rw [step_default h, defaultAgent_idle hidle]
  · obtain ⟨e, he, hd⟩ := defaultAgent_running hrun
    exact ⟨e, he, by rw [step_default h, hd]⟩

/-! ### A host turn that writes CMD -/

/-- The host's turn at a line that writes a legal byte to CMD is exec of the command. -/
theorem hostTurn_cmd {s : State} {v : HostVal} {i : Instr} {lines : List HostOp} (hs : s.host = .wr8 0x000 v :: lines)
    (hd : decode (hostValue s.vars v) = .ok i) : hostTurn s = exec i { s with host := lines } := by
  simp only [hostTurn, hs, busWrite, locate_cmd, locWrite, cmdWrite, hd]

theorem decode_encode (i : Instr) : decode (encode i) = .ok i := by
  simp only [decode, encode, decodeFields_encodeFields, Except.map, instrOf_verdictOf]

/-- A scheduled host turn at a line that writes a legal byte to CMD is exec of the command. -/
theorem step_cmd {s : State} {v : HostVal} {i : Instr} {lines : List HostOp} {turns : List Agent}
    (hs : s.host = .wr8 0x000 v :: lines) (hg : s.sched = .host :: turns) (hd : decode (hostValue s.vars v) = .ok i) :
    step s = exec i { s with host := lines, sched := turns } := by
  rw [step_sched hg]
  exact hostTurn_cmd (s := { s with sched := turns }) hs hd

/-- Settles O6: the step is the host's turn, at a line that writes CMD. -/
theorem stepRunsTheCommandWrittenToCmd : Obligations.StepRunsTheCommandWrittenToCmd := by
  refine ⟨fun s v i lines turns => step_cmd, fun s v i lines hs hg hidle hd => ?_, fun s i _ => ?_⟩
  · rw [step_default hg, defaultAgent_idle hidle]
    exact hostTurn_cmd hs hd
  · have hbyte : BitVec.ofNat 8 ((encode i).toNat % 2 ^ 8) = encode i :=
      BitVec.eq_of_toNat_eq (by simpa using (encode i).isLt)
    rw [State.withFetchWord, hbyte]
    exact step_cmd (s := placeCommand s (encode i)) rfl rfl (decode_encode i)

/-! ### Running the host's lines -/

/-- Host lines that come next, with a host turn for each. -/
def scheduleHost (lines : List HostOp) (s : State) : State :=
  { s with host := lines ++ s.host, sched := List.replicate lines.length .host ++ s.sched }

/-- A line that writes a register of an engine's window is one step, which leaves the lines after it next. -/
theorem steps_scheduleHost_reg {s : State} {a : Addr} {e : EngineId} {r : EngReg} (ha : locate a = .reg e r) (v : HostVal)
    (lines : List HostOp) (k : Nat) :
    steps (k + 1) (scheduleHost (.wr8 a v :: lines) s) =
      steps k (scheduleHost lines (s.setEngine e (regWrite (hostValue s.vars v) (s.engine e) r))) := by
  have hstep : step (scheduleHost (.wr8 a v :: lines) s) =
      .next (scheduleHost lines (s.setEngine e (regWrite (hostValue s.vars v) (s.engine e) r))) := by
    rw [step_sched (g := .host) (rest := List.replicate lines.length .host ++ s.sched) rfl]
    simp only [agentTurn, hostTurn, scheduleHost, List.cons_append, busWrite, ha, locWrite]
    cases e <;> rfl
  simp only [steps, hstep]

/-! ### Loading a key -/

/-- A key register of which the first bytes have been written. -/
def loadKey {n : Nat} (key : Vector Byte n) (bytes : List Byte) : Vector Byte n :=
  Vector.ofFn fun i : Fin n => bytes.getD i key[i]

@[simp] theorem loadKey_nil {n : Nat} (key : Vector Byte n) : loadKey key [] = key := by
  ext i hi
  simp [loadKey]

/-- The next byte of the key goes to the next place. -/
theorem loadKey_snoc {n : Nat} (key : Vector Byte n) (bytes : List Byte) (b : Byte) :
    (loadKey key bytes).setIfInBounds bytes.length b = loadKey key (bytes ++ [b]) := by
  refine Vector.ext fun i hi => ?_
  simp only [loadKey, Vector.getElem_setIfInBounds, Vector.getElem_ofFn, List.getD_eq_getElem?_getD, List.getElem?_append]
  rcases lt_trichotomy i bytes.length with hlt | rfl | hgt
  · simp [hlt, hlt.ne']
  · simp
  · simp [hgt.ne, hgt.not_gt, Nat.sub_ne_zero_of_lt hgt]

/-- A key register holds its own number of bytes. -/
theorem loadKey_take {n : Nat} (key : Vector Byte n) (bytes : List Byte) :
    loadKey key (bytes.take n) = loadKey key bytes := by
  refine Vector.ext fun i hi => ?_
  simp [loadKey]

theorem length_writeSteps (a : Nat) (bytes : List HostVal) : (writeSteps a bytes).length = bytes.length := by
  induction bytes generalizing a with
  | nil => rfl
  | cons b bytes ih => simp [writeSteps, ih]

/-- The writes of `setkey` to KEY, from the first byte that is not written yet on. -/
theorem steps_writeKey {e : EngineId} (s : State) (rest : List HostVal) (after : List HostOp) (k : Nat) :
    ∀ done : List Byte, done.length + rest.length ≤ Config.keyBytes e →
      steps (rest.length + k) (scheduleHost (writeSteps (Config.base e + (0x10 + done.length)) rest ++ after)
          (s.setEngine e { s.engine e with key := loadKey (s.engine e).key done })) =
        steps k (scheduleHost after (s.setEngine e
          { s.engine e with key := loadKey (s.engine e).key (done ++ rest.map (hostValue s.vars)) })) := by
  induction rest with
  | nil => intro done _; simp [writeSteps]
  | cons b rest ih =>
    intro done hlen
    rw [List.length_cons] at hlen
    have hnext := ih (done ++ [hostValue s.vars b]) (by simp; omega)
    have hstep := steps_scheduleHost_reg
      (s := s.setEngine e { s.engine e with key := loadKey (s.engine e).key done })
      (locate_key (show done.length < Config.keyBytes e by omega)) b
      (writeSteps (Config.base e + (0x10 + done.length) + 1) rest ++ after) (rest.length + k)
    rw [List.length_cons, Nat.succ_add]
    refine hstep.trans ?_
    simp only [regWrite, setEngine_engine_same, setEngine_setEngine, setEngine_vars, loadKey_snoc]
    simpa [Nat.add_assoc] using hnext

/-- Settles O10: the writes to KEY and then the one to KEYLEN. -/
theorem setkeyLoadsTheKeyRegisters : Obligations.SetkeyLoadsTheKeyRegisters := by
  intro s e bytes
  let x := s.engine e
  let keylenLine := HostOp.wr8 (regAddr e 0x01) (.byte (BitVec.ofNat 8 (min bytes.length 255)))
  have hlength : (expandLine (.setkey e bytes)).length = (bytes.take (Config.keyBytes e)).length + 1 := by
    simp only [expandLine, List.length_append, length_writeSteps, List.length_singleton]
  have hstart : s.setEngine e { x with key := loadKey x.key [] } = s := by
    rw [loadKey_nil]
    exact setEngine_same_engine s e
  have hkey := steps_writeKey (e := e) s (bytes.take (Config.keyBytes e)) [keylenLine] 1 [] (by simp)
  rw [hstart, List.nil_append, List.map_take, loadKey_take] at hkey
  have hkeylen := steps_scheduleHost_reg
    (s := s.setEngine e { x with key := loadKey x.key (bytes.map (hostValue s.vars)) }) (locate_keylen e)
    (.byte (BitVec.ofNat 8 (min bytes.length 255))) [] 0
  rw [setEngine_setEngine, setEngine_engine_same] at hkeylen
  intro lines
  change steps lines.length (scheduleHost lines s) = _
  rw [hlength]
  exact hkey.trans hkeylen

end Sys2Proof.Machine
end

section
/-! Bytes read as bits (spec/20_memory.md R86), and the bytes of a 16-bit register (R88). -/

namespace Sys2Proof.Machine

/-! ### Byte sequences as bit sequences -/

/-- In bytes packed first byte highest, bit r of byte i stands r above the bytes that follow it. -/
theorem getLsbD_packBytes {w i r : Nat} (bs : List Byte) (hi : i < bs.length) (hr : r < 8)
    (hw : 8 * (bs.length - 1 - i) + r < w) :
    (bs.foldl (fun (acc : BitVec w) x => (acc <<< 8) ||| x.setWidth w) 0).getLsbD (8 * (bs.length - 1 - i) + r) =
      (bs[i]).getLsbD r := by
  induction bs using List.reverseRecOn with
  | nil => simp at hi
  | append_singleton bs b ih =>
    rw [List.length_append, List.length_singleton] at hi hw
    rw [List.foldl_append, List.length_append, List.length_singleton]
    simp only [List.foldl_cons, List.foldl_nil, BitVec.getLsbD_or, BitVec.getLsbD_shiftLeft, BitVec.getLsbD_setWidth]
    rcases Nat.lt_succ_iff_lt_or_eq.1 hi with hlt | rfl
    · have hpos : 8 * (bs.length + 1 - 1 - i) + r = 8 * (bs.length - 1 - i) + r + 8 := by omega
      rw [hpos] at hw ⊢
      rw [Nat.add_sub_cancel, ih hlt (by omega), List.getElem_append_left hlt]
      simp [hw, BitVec.getLsbD_of_ge]
    · have hpos : 8 * (bs.length + 1 - 1 - bs.length) + r = r := by omega
      rw [hpos] at hw ⊢
      simp [hw, hr]

/-- Byte k of a fixed-width sequence gives its elements 8k to 8k+7 (R86). -/
theorem getMsbD_bytesToBits {n k m : Nat} (b : Vector Byte n) (hk : k < n) (hm : m ≤ 7) :
    (bytesToBits b).getMsbD (8 * k + m) = (b[k]).getLsbD (7 - m) := by
  have hpos : 8 * n - 1 - (8 * k + m) = 8 * (b.toList.length - 1 - k) + (7 - m) := by simp; omega
  rw [BitVec.getMsbD_eq_getLsbD, decide_eq_true (by omega), Bool.true_and, hpos, bytesToBits,
    getLsbD_packBytes b.toList (by simpa using hk) (by omega) (by omega), Vector.getElem_toList]

theorem getElem?_byteBits (b : Byte) {m : Nat} (hm : m ≤ 7) : (byteBits b)[m]? = some (b.getLsbD (7 - m)) := by
  simp [byteBits, Nat.lt_succ_of_le hm]

/-- Byte k of a list gives its elements 8k to 8k+7 (R86). -/
theorem getElem?_bytesToBitList {k m : Nat} (b : List Byte) (hk : k < b.length) (hm : m ≤ 7) :
    (bytesToBitList b)[8 * k + m]? = some ((b[k]).getLsbD (7 - m)) := by
  induction b generalizing k with
  | nil => simp at hk
  | cons x xs ih =>
    have hlen : (byteBits x).length = 8 := by simp [byteBits]
    have hcons : bytesToBitList (x :: xs) = byteBits x ++ bytesToBitList xs := rfl
    rw [hcons]
    cases k with
    | zero => rw [List.getElem?_append_left (by omega), Nat.mul_zero, Nat.zero_add, getElem?_byteBits x hm]; rfl
    | succ k =>
      rw [List.getElem?_append_right (by omega), hlen, show 8 * (k + 1) + m - 8 = 8 * k + m by omega,
        ih (by simpa using hk)]
      rfl

/-- Settles O20: for the sequences of fixed width by induction from the last byte, for lists from the first. -/
theorem bytesReadMostSignificantBitFirst : Obligations.BytesReadMostSignificantBitFirst :=
  ⟨fun _ b _ _ hk hm => getMsbD_bytesToBits b hk hm, fun b _ _ hk hm => getElem?_bytesToBitList b hk hm⟩

/-! ### Registers of two bytes -/

/-- Settles O19: each address holds one half of the register, which a write replaces. -/
theorem sixteenBitRegistersAreBigEndian : Obligations.SixteenBitRegistersAreBigEndian := by
  intro s e
  have hloc : locate (regAddr e 0x02) = .reg e .msglenHi ∧ locate (regAddr e 0x03) = .reg e .msglenLo ∧
      locate (regAddr e 0x04) = .reg e .outlenHi ∧ locate (regAddr e 0x05) = .reg e .outlenLo := by
    refine ⟨?_, ?_, ?_, ?_⟩ <;> rw [locate_regAddr e (by decide)] <;> rfl
  obtain ⟨hmh, hml, hoh, hol⟩ := hloc
  simp only [State.readAt, busRead, busWrite, hmh, hml, hoh, hol]
  exact ⟨BitVec.extractLsb'_append_extractLsb', BitVec.extractLsb'_append_extractLsb', fun _ => rfl, fun _ => rfl⟩

end Sys2Proof.Machine
end

section
/-! Host reads and the lines of a host program (spec/20_memory.md R82, R90; spec/30_encoding.md R129, R130). -/

namespace Sys2Proof.Machine

/-! ### Reads -/

/-- What a read returns does not depend on the lines that the host has still to run. -/
theorem readAt_with_host (s : State) (lines : List HostOp) (a : Addr) :
    State.readAt { s with host := lines } a = s.readAt a := by
  unfold State.readAt busRead
  cases locate a with
  | reg e r => simp only [locRead, engine_with_host]
  | msgbuf e off => simp only [locRead_msgbuf_fst, engine_with_host]
  | _ => rfl

/-- A read in a window whose engine runs no message op leaves the whole state as it is (R90, R452). -/
theorem busRead_state {s : State} {a : Addr}
    (h : ∀ e, a.toNat / 256 = Config.mbase e / 256 → msgOpRunning (s.engine e) = false) : (busRead s a).2 = s := by
  refine (locRead_state s (locate a)).resolve_right fun ⟨_, e, off, hl, hrun⟩ => ?_
  have hat := locate_standsAt a
  rw [hl] at hat
  obtain ⟨haddr, hoff⟩ := hat
  have hwindow : a.toNat / 256 = Config.mbase e / 256 := by
    cases e <;> simp only [Config.mbase, Config.msgBufBytes] at haddr hoff ⊢ <;> omega
  simp [h e hwindow] at hrun

/-- Settles O18: outside the window of a message op a read leaves the state, so the same read follows. -/
theorem readsAreIdempotent : Obligations.ReadsAreIdempotent := by
  intro s a
  refine ⟨sameCore_busRead s a, fun h => ?_⟩
  have hstate : (busRead s a).2 = s := busRead_state fun e he => by
    rw [msgOpRunning, ← Bool.not_eq_true, Bool.and_eq_true, decide_eq_true_iff]
    exact h e he
  exact ⟨hstate, by rw [hstate]⟩

/-! ### The three lines of R129 -/

theorem hostTurn_rd8 {s : State} {a : Addr} {name : Nat} {lines : List HostOp} (hs : s.host = .rd8 a name :: lines) :
    ∃ t, hostTurn s = .next t ∧ t.rdata = s.readAt a ∧ t.vars = cellWrite s.vars name (s.readAt a) ∧ t.host = lines ∧
      sameCore s t := by
  obtain ⟨hill, hrej, hua, hub, hur, heng, hep⟩ := sameCore_busRead { s with host := lines } a
  have hread : (busRead { s with host := lines } a).1 = s.readAt a := readAt_with_host s lines a
  let r := busRead { s with host := lines } a
  have hturn : hostTurn s = .next { r.2 with rdata := r.1, vars := cellWrite r.2.vars name r.1 } := by
    simp only [hostTurn, hs]
    rfl
  refine ⟨_, hturn, hread, ?_, ?_, hill, hrej, hua, hub, hur, fun e => ?_, hep⟩
  · simp only [r, busRead_vars, hread]
  · rcases locRead_state { s with host := lines } (locate a) with h | ⟨h, -⟩ <;> simp only [r, busRead, h]
  · rw [engine_with_rdata_vars, heng, engine_with_host]

theorem hostTurn_poll {s : State} {a : Addr} {mask value : HostVal} {lines : List HostOp}
    (hs : s.host = .poll a mask value :: lines) :
    ∃ t, hostTurn s = .next t ∧ t.rdata = s.readAt a ∧ t.vars = s.vars ∧ sameCore s t ∧
      t.host = if s.readAt a &&& hostValue s.vars mask = hostValue s.vars value then lines else s.host := by
  obtain ⟨hill, hrej, hua, hub, hur, heng, hep⟩ := sameCore_busRead s a
  let r := busRead s a
  let lines' := if r.1 &&& hostValue s.vars mask = hostValue s.vars value then lines else s.host
  have hturn : hostTurn s = .next { r.2 with rdata := r.1, host := lines' } := by
    simp only [hostTurn, hs, lines']
    rfl
  refine ⟨_, hturn, rfl, busRead_vars s a, ⟨hill, hrej, hua, hub, hur, fun e => ?_, hep⟩, rfl⟩
  rw [engine_with_rdata_host, heng]

/-- Settles O7: `wr8`, `rd8` and `poll` by their host turns. -/
theorem hostLinesAreBusSteps : Obligations.HostLinesAreBusSteps := by
  refine ⟨fun _ _ => rfl, fun _ _ _ h => hostValue_bound h, fun s a v lines hs => ?_, fun s a name lines hs => ?_,
    fun s a mask value lines hs => ?_⟩
  · simp only [agentTurn, hostTurn, hs]
  · obtain ⟨t, ht, hrdata, hvars, hhost, hcore⟩ := hostTurn_rd8 hs
    refine ⟨t, ht, ?_, hrdata, fun other hne => ?_, hhost, hcore⟩
    · rw [hvars, cellRead_cellWrite_same]
    · rw [hvars, cellRead_cellWrite_other _ _ hne]
  · obtain ⟨t, ht, hrdata, hvars, hcore, hhost⟩ := hostTurn_poll hs
    exact ⟨t, ht, hrdata, hvars, hcore, fun h => by rw [hhost, if_pos h], fun h => by rw [hhost, if_neg h]⟩

/-! ### A program of commands -/

/-- The host's line of a command (R130, `cmd`). -/
def cmdLine (i : Instr) : HostOp := .wr8 0x000 (.byte (encode i))

theorem expandProgram_cmd (is : List Instr) : expandProgram (is.map .cmd) = is.map cmdLine := by
  rw [expandProgram, List.flatMap_map, List.map_eq_flatMap]
  rfl

/-- The host's lines stay scheduled through an engine update. -/
theorem scheduleHost_setEngine (lines : List HostOp) (s : State) (e : EngineId) (x : EngineOf e) :
    (scheduleHost lines s).setEngine e x = scheduleHost lines (s.setEngine e x) := by cases e <;> rfl

@[simp] theorem scheduleHost_engine (lines : List HostOp) (s : State) (e : EngineId) :
    (scheduleHost lines s).engine e = s.engine e := by cases e <;> rfl

/-- A command reads neither the host's lines nor the schedule, and keeps both. -/
theorem exec_scheduleHost {i : Instr} {s t : State} (lines : List HostOp) (h : exec i s = .next t) :
    exec i (scheduleHost lines s) = .next (scheduleHost lines t) := by
  rcases verdictOf_cases i with ⟨e, m, d, -, rfl⟩ | ⟨f, hf⟩
  · rw [exec_cipher] at h ⊢
    rcases acceptCipher_cases e (encodeFields (.cipher e m d)) m d s with ⟨hb, heq⟩ | ⟨hb, hc, heq⟩ | ⟨hb, hc, heq⟩ <;>
      (rw [heq, outcome_next_inj] at h; subst h)
    · exact acceptCipher_busy _ m d (by simpa using hb)
    · rw [acceptCipher_ok _ (by simpa using hb) (by simpa using hc), scheduleHost_engine, scheduleHost_setEngine]
    · rw [acceptCipher_error _ (by simpa using hb) (by simpa using hc)]
      simp only [raiseCmdError, scheduleHost_engine, scheduleHost_setEngine]
  · rw [← instrOf_verdictOf i, hf] at h ⊢
    cases f <;> (cases h; rfl)

/-- A command's line is one step, which leaves the lines after it next. -/
theorem step_scheduleHost_cmd {i : Instr} {s t : State} (lines : List HostOp) (h : exec i s = .next t) :
    step (scheduleHost (cmdLine i :: lines) s) = .next (scheduleHost lines t) := by
  rw [step_cmd (s := scheduleHost (cmdLine i :: lines) s) rfl rfl (decode_encode i)]
  exact exec_scheduleHost lines h

theorem steps_scheduleHost_cmds (is : List Instr) :
    ∀ s : State, steps is.length (scheduleHost (is.map cmdLine) s) = runCommands is s := by
  induction is with
  | nil => intro s; rfl
  | cons i rest ih =>
    intro s
    obtain ⟨t, ht⟩ := exec_next i s
    simp only [List.length_cons, List.map_cons, steps, step_scheduleHost_cmd _ ht, runCommands, ht]
    exact ih t

/-- Settles O8: by induction on the commands, each the step of its line. -/
theorem commandProgramRunsInOrder : Obligations.CommandProgramRunsInOrder := by
  intro is s
  have hrun := steps_scheduleHost_cmds is s
  rwa [scheduleHost, List.length_map, ← expandProgram_cmd] at hrun

end Sys2Proof.Machine
end

section
/-! What one FSM step of an engine can do, said once as a relation, and what no step changes (spec/40_common.md R170 to R177,
spec/20_memory.md R85, R95). -/

namespace Sys2Proof.Machine

variable {e : EngineId} {ep : Nat} {x y : EngineOf e}

/-! ### The transitions -/

/-- The transitions of R170, one constructor each, with the engine that each leads to. -/
inductive EngineMove (ep : Nat) (x : EngineOf e) : EngineOf e → Prop where
  | idle (hf : x.fsm = .idle) : EngineMove ep x x
  | nextKey (i : Nat) (hf : x.fsm = .ks i) (h1 : 1 ≤ i) (hi : i < Config.nks e) :
      EngineMove ep x { x with work := ksStep e i x.work, fsm := .ks (i + 1) }
  | lastKeyMsg (hf : x.fsm = .ks (Config.nks e)) (hm : latMode x = .msg) :
      EngineMove ep x { x with work := ksStep e (Config.nks e) x.work, fsm := .msginit }
  | lastKeyBlk (hf : x.fsm = .ks (Config.nks e)) (hm : latMode x = .blk) :
      EngineMove ep x { x with work := ksStep e (Config.nks e) x.work, j := 0, nblk := 1, fsm := .load }
  | emptyMsg (hf : x.fsm = .msginit) (hp : latPadded x ≤ Config.msgBufBytes) (hn : latPadded x / Config.blkBytes e = 0) :
      EngineMove ep x (completeOn 0 { x with
        msgbuf := padBuf e (latDir x) x.lat.mlen.toNat x.msgbuf,
        nblk := BitVec.ofNat 16 (latPadded x / Config.blkBytes e), j := 0 })
  | padMsg (hf : x.fsm = .msginit) (hp : latPadded x ≤ Config.msgBufBytes) (hn : latPadded x / Config.blkBytes e ≠ 0) :
      EngineMove ep x { x with
        msgbuf := padBuf e (latDir x) x.lat.mlen.toNat x.msgbuf,
        nblk := BitVec.ofNat 16 (latPadded x / Config.blkBytes e), j := 0, fsm := .load }
  | load (blk : Vector Byte (Config.blkBytes e)) (hf : x.fsm = .load) (hb : blockIn ep x = .ok blk) :
      EngineMove ep x { x with
        work := loadAction e (latDir x) blk x.work, fsm := .rnd ((rounds e (latDir x)).headD 0) }
  | round (i : Nat) (f : Fsm) (hf : x.fsm = .rnd i) (hr : afterRound (rounds e (latDir x)) i = some f) :
      EngineMove ep x { x with work := roundAction e (latDir x) i x.work, fsm := f }
  | storeBlk (hf : x.fsm = .store) (hm : latMode x = .blk) :
      EngineMove ep x (completeOn (Config.blkBytes e) { x with dout := storeAction e x.work })
  | storeNext (hf : x.fsm = .store) (hm : latMode x = .msg) (hr : blockInRange x) (hn : x.j.toNat + 1 < x.nblk.toNat) :
      EngineMove ep x { x with
        msgbuf := cellWrites x.msgbuf (Config.mbase e + x.j.toNat * Config.blkBytes e) (storeAction e x.work).toList,
        j := x.j + 1, fsm := .load }
  | storeLast (hf : x.fsm = .store) (hm : latMode x = .msg) (hr : blockInRange x) (hn : ¬ x.j.toNat + 1 < x.nblk.toNat) :
      EngineMove ep x (completeOn (x.nblk.toNat * Config.blkBytes e) { x with
        msgbuf := cellWrites x.msgbuf (Config.mbase e + x.j.toNat * Config.blkBytes e) (storeAction e x.work).toList })

/-- An engine's step is one of the transitions. -/
theorem EngineMove.of_step (h : engineStep ep x = .ok y) : EngineMove ep x y := by
  cases hf : x.fsm with
  | idle =>
    rw [engineStep_idle hf] at h
    cases h
    exact .idle hf
  | ks i =>
    by_cases hi : 1 ≤ i ∧ i ≤ Config.nks e
    · rw [engineStep_ks hf hi, afterKs] at h
      split at h
      case isTrue hlt =>
        cases h
        exact .nextKey i hf hi.1 hlt
      case isFalse hge =>
        obtain rfl : i = Config.nks e := by omega
        split at h
        case h_1 hm =>
          cases h
          exact .lastKeyMsg hf hm
        case h_2 hm =>
          cases h
          exact .lastKeyBlk hf hm
    · simp only [engineStep, hf, if_neg hi, reduceCtorEq] at h
  | msginit =>
    rw [engineStep_msginit hf, msginitOn] at h
    split at h
    case isTrue hp =>
      split at h
      case isTrue hn =>
        cases h
        exact .emptyMsg hf hp hn
      case isFalse hn =>
        cases h
        exact .padMsg hf hp hn
    case isFalse => cases h
  | load =>
    cases hb : blockIn ep x with
    | ok blk =>
      rw [engineStep_load hf hb] at h
      cases h
      exact .load blk hf hb
    | error f => simp only [engineStep, hf, hb, reduceCtorEq] at h
  | rnd i =>
    cases hr : afterRound (rounds e (latDir x)) i with
    | some f =>
      rw [engineStep_rnd hf hr] at h
      cases h
      exact .round i f hf hr
    | none => simp only [engineStep, hf, hr, reduceCtorEq] at h
  | store =>
    rw [engineStep_store hf] at h
    cases hm : latMode x with
    | blk =>
      simp only [storeOut, hm] at h
      cases h
      exact .storeBlk hf hm
    | msg =>
      by_cases hr : blockInRange x
      · by_cases hn : x.j.toNat + 1 < x.nblk.toNat
        · rw [storeOut_msg_next hm hr hn] at h
          cases h
          exact .storeNext hf hm hr hn
        · rw [storeOut_msg_last hm hr hn] at h
          cases h
          exact .storeLast hf hm hr hn
      · simp only [storeOut, hm, if_neg hr, reduceCtorEq] at h

/-- Each transition is the engine's step. -/
theorem EngineMove.step (h : EngineMove ep x y) : engineStep ep x = .ok y := by
  cases h with
  | idle hf => exact engineStep_idle hf
  | nextKey i hf h1 hi => rw [engineStep_ks hf ⟨h1, hi.le⟩, afterKs, if_pos hi]
  | lastKeyMsg hf hm =>
    rw [engineStep_ks hf ⟨nks_pos e, le_rfl⟩, afterKs, if_neg (lt_irrefl _)]
    simp only [latMode] at hm ⊢
    rw [hm]
  | lastKeyBlk hf hm =>
    rw [engineStep_ks hf ⟨nks_pos e, le_rfl⟩, afterKs, if_neg (lt_irrefl _)]
    simp only [latMode] at hm ⊢
    rw [hm]
  | emptyMsg hf hp hn => rw [engineStep_msginit hf, msginitOn, if_pos hp, if_pos hn]
  | padMsg hf hp hn => rw [engineStep_msginit hf, msginitOn, if_pos hp, if_neg hn]
  | load blk hf hb => exact engineStep_load hf hb
  | round i f hf hr => exact engineStep_rnd hf hr
  | storeBlk hf hm => rw [engineStep_store hf, storeOut, hm]
  | storeNext hf hm hr hn => rw [engineStep_store hf, storeOut_msg_next hm hr hn]
  | storeLast hf hm hr hn => rw [engineStep_store hf, storeOut_msg_last hm hr hn]

/-! ### The frame of a step -/

/-- No step writes an input register (R177). -/
theorem EngineMove.inputs (h : EngineMove ep x y) :
    y.keylen = x.keylen ∧ y.msglen = x.msglen ∧ y.key = x.key ∧ y.din = x.din := by
  cases h <;> exact ⟨rfl, rfl, rfl, rfl⟩

/-- A step that does not complete the command leaves STATUS, the results and the latch. -/
theorem EngineMove.running (h : EngineMove ep x y) (hy : y.fsm ≠ .idle) :
    y.status = x.status ∧ y.outlen = x.outlen ∧ y.dout = x.dout ∧ y.lat = x.lat := by
  cases h with
  | emptyMsg | storeBlk | storeLast => exact absurd rfl hy
  | _ => exact ⟨rfl, rfl, rfl, rfl⟩

/-- A step of a block op leaves the buffer. -/
theorem EngineMove.blk_msgbuf (h : EngineMove ep x y) (hinv : EngineInv x) (hm : latMode x = .blk) :
    y.msgbuf = x.msgbuf := by
  have hlegal := hinv.fsm_legal
  cases h with
  | emptyMsg hf | padMsg hf =>
    rw [fsmLegal, hf, hm] at hlegal
    cases hlegal
  | storeNext _ hm' | storeLast _ hm' =>
    rw [hm] at hm'
    cases hm'
  | _ => rfl

theorem EngineMove.msg_dout (h : EngineMove ep x y) (hm : latMode x = .msg) : y.dout = x.dout := by
  cases h with
  | storeBlk _ hm' =>
    rw [hm] at hm'
    cases hm'
  | _ => rfl

/-- The padding of MSGINIT ends where the padded message does (R172). -/
theorem bufRead_padBuf_above {d : Dir} {m off : Nat} (buf : List Host.Cell) (hm : m ≤ paddedLen e d m)
    (ho : paddedLen e d m ≤ off) : bufRead e ep (padBuf e d m buf) off = bufRead e ep buf off := by
  cases d with
  | enc => exact bufRead_cellWrites_outside _ _ _ _ _ (.inr (by rw [List.length_replicate]; omega))
  | dec => rfl

/-- A step of a message op leaves every buffer byte at or above the padded length (R85, R175). -/
theorem EngineMove.bufRead_above (h : EngineMove ep x y) (hinv : EngineInv x) (hm : latMode x = .msg) {off : Nat}
    (ho : latPadded x ≤ off) : bufRead e ep y.msgbuf off = bufRead e ep x.msgbuf off := by
  have hstored (hf : x.fsm = .store) : x.j.toNat * Config.blkBytes e + Config.blkBytes e ≤ off := by
    have hc := hinv.counters (by rw [hf]; trivial)
    rw [countersOk, hm] at hc
    rw [← Nat.succ_mul]
    exact (Nat.mul_le_mul_right _ hc.2).trans (hc.1.trans_le ho)
  cases h with
  | emptyMsg hf | padMsg hf =>
    exact bufRead_padBuf_above x.msgbuf (paddedLen_legal (hinv.msg_len (by simp [hf]) hm)).1 ho
  | storeNext hf | storeLast hf =>
    exact bufRead_cellWrites_outside _ _ _ _ _ (.inr (by simpa using hstored hf))
  | _ => rfl

/-- Settles O37: the frame of each transition. -/
theorem engineStepFrame : Obligations.EngineStepFrame := by
  intro e ep x y hinv hstep
  have hmove := EngineMove.of_step hstep
  obtain ⟨hkeylen, hmsglen, hkey, hdin⟩ := hmove.inputs
  exact ⟨hkeylen, hmsglen, hkey, hdin, hmove.running, hmove.blk_msgbuf hinv,
    fun hm => ⟨hmove.msg_dout hm, fun _ ho => hmove.bufRead_above hinv hm ho⟩⟩

/-! ### Steps of two engines -/

/-- Settles O48: a turn reads the engine and the epoch only, and writes the engine only. -/
theorem engineTurnsAreIsolatedAndCommute : Obligations.EngineTurnsAreIsolatedAndCommute := by
  refine ⟨fun s s' t e heng hep ht => ?_, fun s t u e e' hne ht hu => ?_⟩
  · obtain ⟨y, hy, rfl⟩ := engineTurn_next ht
    rw [setEngine_engine_same]
    exact ⟨engineTurn_ok (by rw [heng, hep, hy]), rfl⟩
  · obtain ⟨y, hy, rfl⟩ := engineTurn_next ht
    obtain ⟨z, hz, rfl⟩ := engineTurn_next hu
    rw [setEngine_epoch, setEngine_engine_other s y hne.symm] at hz
    refine ⟨s.setEngine e' z, engineTurn_ok hz, ?_⟩
    rw [setEngine_comm s hne]
    exact engineTurn_ok (by rw [setEngine_epoch, setEngine_engine_other s z hne, hy])

end Sys2Proof.Machine
end

section
/-! How many steps a running command still has to take (spec/40_common.md R171, R178). -/

namespace Sys2Proof.Machine

variable {e : EngineId} {ep : Nat} {x y : EngineOf e}

/-! ### Rounds -/

/-- The number of elements of a round list from round i on. -/
def roundsFrom (l : List Nat) (i : Nat) : Nat := l.length - l.idxOf i

theorem roundsFrom_split (pre : List Nat) (i : Nat) (rest : List Nat) (h : i ∉ pre) :
    roundsFrom (pre ++ i :: rest) i = rest.length + 1 := by
  simp [roundsFrom, List.idxOf_append_of_notMem h]

/-- A round leaves one round less, or STORE after the last. -/
theorem roundsFrom_afterRound {l : List Nat} (hl : l.Nodup) {i : Nat} (hi : i ∈ l) {f : Fsm}
    (h : afterRound l i = some f) :
    (f = .store ∧ roundsFrom l i = 1) ∨ ∃ n, f = .rnd n ∧ roundsFrom l i = roundsFrom l n + 1 := by
  obtain ⟨pre, rest, rfl⟩ := List.append_of_mem hi
  obtain ⟨-, hrest, hdisj⟩ := List.nodup_append.1 hl
  have hni : i ∉ pre := fun hmem => hdisj i hmem i List.mem_cons_self rfl
  rw [afterRound_split pre i rest hni, Option.some.injEq] at h
  subst h
  rw [roundsFrom_split pre i rest hni]
  cases rest with
  | nil => exact .inl ⟨rfl, rfl⟩
  | cons n rest =>
    have hnn : n ∉ pre ++ [i] := by
      rw [List.mem_append, List.mem_singleton]
      rintro (hmem | rfl)
      · exact hdisj n hmem n (by simp) rfl
      · simp at hrest
    have hn := roundsFrom_split (pre ++ [i]) n rest hnn
    rw [List.append_assoc, List.singleton_append] at hn
    exact .inr ⟨n, rfl, by rw [hn, List.length_cons]⟩

theorem roundsFrom_first (d : Dir) : roundsFrom (rounds e d) ((rounds e d).headD 0) = (rounds e .enc).length := by
  obtain ⟨i, rest, hr⟩ := List.exists_cons_of_ne_nil (rounds_ne_nil e d)
  rw [← rounds_length e d, hr]
  exact roundsFrom_split [] i rest List.not_mem_nil

/-! ### Steps -/

/-- The engine steps of one block: LOAD, the rounds and STORE (R178). -/
def stepsPerBlock (e : EngineId) : Nat := (rounds e .enc).length + 2

/-- The engine steps of the command in progress that follow its key schedule (R178). -/
def stepsAfterKeys (x : EngineOf e) : Nat :=
  match latMode x with
  | .blk => stepsPerBlock e
  | .msg => 1 + latPadded x / Config.blkBytes e * stepsPerBlock e

/-- The steps that engine E has still to take until its command completes (R178). -/
def remaining (x : EngineOf e) : Nat :=
  match x.fsm with
  | .idle => 0
  | .ks i => Config.nks e + 1 - i + stepsAfterKeys x
  | .msginit => stepsAfterKeys x
  | .load => (x.nblk.toNat - x.j.toNat) * stepsPerBlock e
  | .rnd i => roundsFrom (rounds e (latDir x)) i + 1 + (x.nblk.toNat - (x.j.toNat + 1)) * stepsPerBlock e
  | .store => 1 + (x.nblk.toNat - (x.j.toNat + 1)) * stepsPerBlock e

theorem remaining_idle (h : x.fsm = .idle) : remaining x = 0 := by rw [remaining, h]

/-- The block in progress is one of the command's blocks. -/
theorem j_lt_nblk (h : countersOk x) : x.j.toNat < x.nblk.toNat := by
  unfold countersOk at h
  split at h
  · rw [h.1, h.2]; decide
  · exact h.2

/-- Every step of a running command brings its completion one step nearer. -/
theorem EngineMove.remaining_eq (h : EngineMove ep x y) (hinv : EngineInv x) (hf : x.fsm ≠ .idle) :
    remaining x = remaining y + 1 := by
  have hcounters := hinv.counters
  have hlegal := hinv.fsm_legal
  cases h with
  | idle hidle => exact absurd hidle hf
  | nextKey i hks h1 hi =>
    simp only [remaining, hks]
    show _ = Config.nks e + 1 - (i + 1) + stepsAfterKeys x + 1
    omega
  | lastKeyMsg hks hm =>
    simp only [remaining, hks]
    show _ = stepsAfterKeys x + 1
    omega
  | lastKeyBlk hks hm =>
    simp only [remaining, hks, stepsAfterKeys, hm]
    show _ = (1 - 0) * stepsPerBlock e + 1
    omega
  | emptyMsg hmi hp hn =>
    rw [fsmLegal, hmi] at hlegal
    rw [remaining_idle (completeOn_fsm ..)]
    simp only [remaining, hmi, stepsAfterKeys, hlegal, hn, Nat.zero_mul]
  | padMsg hmi hp hn =>
    rw [fsmLegal, hmi] at hlegal
    have hle : latPadded x / Config.blkBytes e ≤ 256 := (Nat.div_le_self _ _).trans hp
    simp only [remaining, hmi, stepsAfterKeys, hlegal, half_toNat_ofNat hle]
    exact Nat.add_comm ..
  | load blk hl hb =>
    have hj := j_lt_nblk (hcounters (by rw [hl]; trivial))
    simp only [remaining, hl]
    show _ = roundsFrom (rounds e (latDir x)) ((rounds e (latDir x)).headD 0) + 1 +
      (x.nblk.toNat - (x.j.toNat + 1)) * stepsPerBlock e + 1
    rw [roundsFrom_first, show x.nblk.toNat - x.j.toNat = x.nblk.toNat - (x.j.toNat + 1) + 1 by omega, Nat.succ_mul]
    unfold stepsPerBlock
    omega
  | round i f hr ha =>
    rw [fsmLegal, hr] at hlegal
    rcases roundsFrom_afterRound (rounds_nodup e _) hlegal ha with ⟨rfl, hrounds⟩ | ⟨n, rfl, hrounds⟩ <;>
      simp only [remaining, hr, hrounds]
    · omega
    · show _ = roundsFrom (rounds e (latDir x)) n + 1 + _ + 1
      omega
  | storeBlk hs hm =>
    have hc := hcounters (by rw [hs]; trivial)
    rw [countersOk, hm] at hc
    rw [remaining_idle (completeOn_fsm ..)]
    simp [remaining, hs, hc.1, hc.2]
  | storeNext hs hm hr hn =>
    have hj : (x.j + 1).toNat = x.j.toNat + 1 := by
      have := x.nblk.isLt
      rw [BitVec.toNat_add]
      exact Nat.mod_eq_of_lt (by simp; omega)
    simp only [remaining, hs, hj]
    omega
  | storeLast hs hm hr hn =>
    rw [remaining_idle (completeOn_fsm ..)]
    simp only [remaining, hs, show x.nblk.toNat - (x.j.toNat + 1) = 0 by omega, Nat.zero_mul]

/-- From its accept a block op takes the steps of R178. -/
theorem remaining_accept_blk (x : EngineOf e) (d : Dir) :
    remaining (acceptOn (encodeFields (.cipher e .blk d)) x) = blockOpSteps e := by
  have hm : latMode (acceptOn (encodeFields (.cipher e .blk d)) x) = .blk := modeField_encodeFields e .blk d
  simp only [remaining, acceptOn_fsm, stepsAfterKeys, hm, stepsPerBlock, blockOpSteps]
  omega

/-- From its accept a message op takes the steps of R178. -/
theorem remaining_accept_msg (x : EngineOf e) (d : Dir) :
    remaining (acceptOn (encodeFields (.cipher e .msg d)) x) =
      msgOpSteps e (paddedLen e d x.msglen.toNat / Config.blkBytes e) := by
  have hm : latMode (acceptOn (encodeFields (.cipher e .msg d)) x) = .msg := modeField_encodeFields e .msg d
  have hp : latPadded (acceptOn (encodeFields (.cipher e .msg d)) x) = paddedLen e d x.msglen.toNat := by
    simp only [latPadded, latDir, acceptOn_lat, dirField_encodeFields]
  simp only [remaining, acceptOn_fsm, stepsAfterKeys, hm, hp, stepsPerBlock, msgOpSteps]
  omega

end Sys2Proof.Machine
end

section
/-! A running command against every interleaving: the engine's own steps from the accept on are a reference run, and whatever
the host and the other engines do between them, the engine stays equal to it but for its input registers and, in a block op,
its buffer (spec/20_memory.md R91, R96; spec/40_common.md R161, R180, R181). -/

namespace Sys2Proof.Machine

variable {e : EngineId} {ep : Nat} {s t : State}

/-! ### Engines that run the same command -/

/-- Two engines that run the same command of mode `m`: they differ at most in the input registers, which no step reads, and,
unless it is a message op, in the buffer. -/
def sameRun (m : Mode) (x y : EngineOf e) : Prop :=
  ∃ keylen msglen key din buf,
    x = { y with keylen := keylen, msglen := msglen, key := key, din := din, msgbuf := buf } ∧ (m = .msg → buf = y.msgbuf)

theorem sameRun.refl (m : Mode) (x : EngineOf e) : sameRun m x x := ⟨_, _, _, _, _, rfl, fun _ => rfl⟩

theorem sameRun.trans {m : Mode} {x y z : EngineOf e} (hxy : sameRun m x y) (hyz : sameRun m y z) : sameRun m x z := by
  obtain ⟨keylen, msglen, key, din, buf, rfl, hbuf⟩ := hxy
  obtain ⟨keylen', msglen', key', din', buf', rfl, hbuf'⟩ := hyz
  exact ⟨_, _, _, _, _, rfl, fun hm => (hbuf hm).trans (hbuf' hm)⟩

theorem sameRun.status {m : Mode} {x y : EngineOf e} (h : sameRun m x y) : x.status = y.status := by
  obtain ⟨_, _, _, _, _, rfl, -⟩ := h
  rfl

theorem sameRun.latMode {m : Mode} {x y : EngineOf e} (h : sameRun m x y) : latMode x = latMode y := by
  obtain ⟨_, _, _, _, _, rfl, -⟩ := h
  rfl

/-- A step of one of two engines that run the same command is a step of the other (R96). -/
theorem EngineMove.of_sameRun {x y y' : EngineOf e} (h : EngineMove ep y y') (hs : sameRun (latMode y) x y) :
    ∃ x', EngineMove ep x x' ∧ sameRun (latMode y) x' y' := by
  obtain ⟨keylen, msglen, key, din, buf, rfl, hbuf⟩ := hs
  cases h with
  | idle hf => exact ⟨_, .idle hf, _, _, _, _, _, rfl, hbuf⟩
  | nextKey i hf h1 hi => exact ⟨_, .nextKey i hf h1 hi, _, _, _, _, _, rfl, hbuf⟩
  | lastKeyMsg hf hm => exact ⟨_, .lastKeyMsg hf hm, _, _, _, _, _, rfl, hbuf⟩
  | lastKeyBlk hf hm => exact ⟨_, .lastKeyBlk hf hm, _, _, _, _, _, rfl, hbuf⟩
  | emptyMsg hf hp hn =>
    exact ⟨_, .emptyMsg hf hp hn, _, _, _, _, _, rfl, fun hm => congrArg (padBuf e (latDir y) y.lat.mlen.toNat) (hbuf hm)⟩
  | padMsg hf hp hn =>
    exact ⟨_, .padMsg hf hp hn, _, _, _, _, _, rfl, fun hm => congrArg (padBuf e (latDir y) y.lat.mlen.toNat) (hbuf hm)⟩
  | load blk hf hb =>
    refine ⟨_, .load blk hf ?_, _, _, _, _, _, rfl, hbuf⟩
    rw [← hb]
    cases hm : Machine.latMode y with
    | blk => simp only [blockIn, Machine.latMode] at hm ⊢; simp only [hm]
    | msg => rw [hbuf hm]; rfl
  | round i f hf hr => exact ⟨_, .round i f hf hr, _, _, _, _, _, rfl, hbuf⟩
  | storeBlk hf hm => exact ⟨_, .storeBlk hf hm, _, _, _, _, _, rfl, hbuf⟩
  | storeNext hf hm hr hn =>
    exact ⟨_, .storeNext hf hm hr hn, _, _, _, _, _, rfl, fun h => congrArg (cellWrites · _ _) (hbuf h)⟩
  | storeLast hf hm hr hn =>
    exact ⟨_, .storeLast hf hm hr hn, _, _, _, _, _, rfl, fun h => congrArg (cellWrites · _ _) (hbuf h)⟩

/-! ### What the host can do to a running engine -/

theorem sameRun_regWrite (m : Mode) (v : Byte) (x : EngineOf e) (r : EngReg) : sameRun m (regWrite v x r) x := by
  cases r <;> exact ⟨_, _, _, _, _, rfl, fun _ => rfl⟩

/-- A host write to the buffer is ignored during a message op (70_reset_and_hazards.md R452). -/
theorem sameRun_bufWrite {x : EngineOf e} (hb : x.status.busy = true) (off : Nat) (v : Byte) :
    sameRun (latMode x) (bufWrite off v x) x := by
  unfold bufWrite
  split
  · exact sameRun.refl _ x
  case isFalse hrun => exact ⟨_, _, _, _, _, rfl, fun hm => absurd (by simp [msgOpRunning, hb, hm]) hrun⟩

/-- An update of one engine that is no change to its command is none to any engine's. -/
theorem sameRun_setEngine {e' : EngineId} {x : EngineOf e'}
    (h : (s.engine e').status.busy = true → sameRun (latMode (s.engine e')) x (s.engine e'))
    (hb : (s.engine e).status.busy = true) :
    sameRun (latMode (s.engine e)) ((s.setEngine e' x).engine e) (s.engine e) := by
  by_cases he : e = e'
  · subst he
    rw [setEngine_engine_same]
    exact h hb
  · rw [setEngine_engine_other s x he]
    exact sameRun.refl _ _

theorem sameRun_of_eq {x y : EngineOf e} (h : x = y) (m : Mode) : sameRun m x y := h ▸ sameRun.refl m x

/-- A CMD write leaves a running command: its engine refuses the byte (R161). -/
theorem cmdWrite_sameRun {v : Byte} (ht : cmdWrite v s = .next t) (hb : (s.engine e).status.busy = true) :
    sameRun (latMode (s.engine e)) (t.engine e) (s.engine e) := by
  rcases cmdWrite_cases v s with ⟨-, heq⟩ | ⟨f, u, -, heq⟩ | ⟨e', m, d, -, -, heq⟩ <;> rw [heq] at ht
  · rw [outcome_next_inj] at ht
    exact sameRun_of_eq (by rw [← ht, setIllegal_engine]) _
  · rw [outcome_next_inj] at ht
    exact sameRun_of_eq (by rw [← ht, engine_with_ur]) _
  · rcases acceptCipher_cases e' v m d s with ⟨-, heq⟩ | ⟨hidle, -, heq⟩ | ⟨hidle, -, heq⟩ <;>
      (rw [heq, outcome_next_inj] at ht; subst ht)
    · exact sameRun_of_eq (setBusyrej_engine s e) _
    all_goals exact sameRun_setEngine (fun hbusy => by simp [hidle] at hbusy) hb

theorem busWrite_sameRun {a : Addr} {v : Byte} (ht : busWrite s a v = .next t) (hb : (s.engine e).status.busy = true) :
    sameRun (latMode (s.engine e)) (t.engine e) (s.engine e) := by
  rcases busWrite_cases ht with ⟨-, hc⟩ | ⟨-, rfl⟩ | ⟨e', r, rfl⟩ | ⟨e', off, -, rfl⟩ | rfl | rfl | rfl
  · exact cmdWrite_sameRun hc hb
  · exact sameRun_of_eq (gstatWrite_engine v s e) _
  · exact sameRun_setEngine (fun _ => sameRun_regWrite _ v _ r) hb
  · exact sameRun_setEngine (fun hbusy => sameRun_bufWrite hbusy off v) hb
  · exact sameRun_of_eq (engine_with_ua s v e) _
  · exact sameRun_of_eq (engine_with_ub s v e) _
  · exact sameRun.refl _ _

theorem hostTurn_sameRun (ht : hostTurn s = .next t) (hb : (s.engine e).status.busy = true) :
    sameRun (latMode (s.engine e)) (t.engine e) (s.engine e) := by
  rcases hostTurn_cases ht with ⟨a, v, lines, -, hw⟩ | ⟨⟨-, -, -, -, -, heng, -⟩, -⟩
  · have hrun := busWrite_sameRun (e := e) hw (by rwa [engine_with_host])
    rwa [engine_with_host] at hrun
  · exact sameRun_of_eq (heng e) _

/-! ### What no turn but reset changes -/

theorem cmdWrite_epoch_sched {v : Byte} (ht : cmdWrite v s = .next t) : t.epoch = s.epoch ∧ t.sched = s.sched := by
  rcases cmdWrite_cases v s with ⟨-, heq⟩ | ⟨f, u, -, heq⟩ | ⟨e, m, d, -, -, heq⟩ <;> rw [heq] at ht
  · rw [outcome_next_inj] at ht
    exact ht ▸ ⟨rfl, rfl⟩
  · rw [outcome_next_inj] at ht
    exact ht ▸ ⟨rfl, rfl⟩
  · rcases acceptCipher_cases e v m d s with ⟨-, heq⟩ | ⟨-, -, heq⟩ | ⟨-, -, heq⟩ <;>
      (rw [heq, outcome_next_inj] at ht; subst ht)
    · exact ⟨rfl, rfl⟩
    all_goals exact ⟨setEngine_epoch .., setEngine_sched ..⟩

theorem busWrite_epoch_sched {a : Addr} {v : Byte} (ht : busWrite s a v = .next t) :
    t.epoch = s.epoch ∧ t.sched = s.sched := by
  rcases busWrite_cases ht with ⟨-, hc⟩ | ⟨-, rfl⟩ | ⟨e, r, rfl⟩ | ⟨e, off, -, rfl⟩ | rfl | rfl | rfl
  · exact cmdWrite_epoch_sched hc
  case inr.inr.inl | inr.inr.inr.inl => exact ⟨setEngine_epoch .., setEngine_sched ..⟩
  all_goals exact ⟨rfl, rfl⟩

theorem busRead_epoch_sched (s : State) (a : Addr) : (busRead s a).2.epoch = s.epoch ∧ (busRead s a).2.sched = s.sched := by
  unfold busRead
  rcases locRead_state s (locate a) with h | ⟨h, -⟩ <;> rw [h] <;> exact ⟨rfl, rfl⟩

theorem hostTurn_epoch_sched (ht : hostTurn s = .next t) : t.epoch = s.epoch ∧ t.sched = s.sched := by
  unfold hostTurn at ht
  split at ht
  case h_1 =>
    rw [outcome_next_inj] at ht
    exact ht ▸ ⟨rfl, rfl⟩
  case h_2 a v lines _ => exact busWrite_epoch_sched (s := { s with host := lines }) ht
  case h_3 a name lines _ =>
    rw [outcome_next_inj] at ht
    exact ht ▸ busRead_epoch_sched { s with host := lines } a
  case h_4 a mask value lines _ =>
    rw [outcome_next_inj] at ht
    exact ht ▸ busRead_epoch_sched s a

theorem agentTurn_epoch_sched {g : Agent} (ht : agentTurn g s = .next t) (hg : g ≠ .reset) :
    t.epoch = s.epoch ∧ t.sched = s.sched := by
  cases g with
  | host => exact hostTurn_epoch_sched ht
  | engine e =>
    obtain ⟨y, -, rfl⟩ := engineTurn_next ht
    exact ⟨setEngine_epoch .., setEngine_sched ..⟩
  | reset => exact absurd rfl hg

/-- A turn of another agent, but reset, leaves a running command. -/
theorem agentTurn_sameRun {g : Agent} (ht : agentTurn g s = .next t) (hg : g ≠ .reset) (hge : g ≠ .engine e)
    (hb : (s.engine e).status.busy = true) : sameRun (latMode (s.engine e)) (t.engine e) (s.engine e) := by
  cases g with
  | host => exact hostTurn_sameRun ht hb
  | engine e' =>
    obtain ⟨y, -, rfl⟩ := engineTurn_next ht
    exact sameRun_of_eq (setEngine_engine_other s y fun he => hge (he ▸ rfl)) _
  | reset => exact absurd rfl hg

/-! ### A schedule against the reference run -/

/-- Engine E of a state of the invariant runs the same command as the engine `y` of the reference run. -/
structure Follows (s : State) (y : EngineOf e) : Prop where
  inv : Inv s
  reference : EngineInv y
  same : sameRun (latMode y) (s.engine e) y

/-- One turn, with as many steps of the reference run as it gives the engine. -/
theorem Follows.step {y : EngineOf e} {g : Agent} {rest : List Agent} (h : Follows s y) (hs : s.sched = g :: rest)
    (hg : g ≠ .reset) (hy : y.fsm ≠ .idle) :
    ∃ t y', Machine.step s = .next t ∧ engineSteps s.epoch ([g].count (.engine e)) y = .ok y' ∧
      remaining y = [g].count (.engine e) + remaining y' ∧ sameRun (latMode y) (t.engine e) y' ∧
      (y'.fsm ≠ .idle → latMode y' = latMode y ∧ Follows t y') ∧ t.epoch = s.epoch ∧ t.sched = rest := by
  have hinv : Inv { s with sched := rest } := inv_congr h.inv (engine_with_sched s rest) h.inv.vars
  obtain ⟨t, ht, hinvt⟩ := inv_agentTurn hinv g
  obtain ⟨hep, hsched⟩ := agentTurn_epoch_sched ht hg
  rw [step_sched hs]
  by_cases hge : g = .engine e
  · subst hge
    obtain ⟨y', hstep, hinvy⟩ := engineInv_step (ep := s.epoch) h.reference
    have hmove := EngineMove.of_step hstep
    obtain ⟨x', hx, hsame⟩ := hmove.of_sameRun h.same
    have hrem := hmove.remaining_eq h.reference hy
    obtain ⟨z, hz, rfl⟩ := engineTurn_next ht
    rw [engine_with_sched, hx.step, Except.ok.injEq] at hz
    subst hz
    rw [List.count_singleton_self]
    refine ⟨_, y', ht, (engineSteps_one y).trans hstep, by omega, by rwa [setEngine_engine_same], fun hy' => ?_, hep, hsched⟩
    have hmode : latMode y' = latMode y := by rw [latMode, latMode, (hmove.running hy').2.2.2]
    exact ⟨hmode, hinvt, hinvy, by rwa [hmode, setEngine_engine_same]⟩
  · have hb : (s.engine e).status.busy = true := by rw [h.same.status]; exact h.reference.busy_iff.2 hy
    have hsame := agentTurn_sameRun ht hg hge (by rwa [engine_with_sched])
    rw [engine_with_sched, h.same.latMode] at hsame
    have hsame' := hsame.trans h.same
    rw [List.count_singleton, if_neg (by simpa using hge)]
    exact ⟨t, y, ht, rfl, (Nat.zero_add _).symm, hsame', fun _ => ⟨rfl, hinvt, h.reference, hsame'⟩, hep, hsched⟩

/-- A schedule without reset, up to the turn that completes the command, ends as the reference run does. -/
theorem Follows.steps (turns rest : List Agent) : ∀ {s : State} {y : EngineOf e}, Follows s y →
    s.sched = turns ++ .engine e :: rest → Agent.reset ∉ turns → turns.count (.engine e) + 1 = remaining y →
    ∃ u z, Machine.steps (turns.length + 1) s = .next u ∧ engineSteps s.epoch (remaining y) y = .ok z ∧
      sameRun (latMode y) (u.engine e) z ∧ u.epoch = s.epoch ∧ u.sched = rest := by
  induction turns with
  | nil =>
    intro s y h hs _ hcount
    have hy : y.fsm ≠ .idle := fun hidle => by simp [remaining_idle hidle] at hcount
    obtain ⟨u, z, hu, hz, -, hsame, -, hep, hsched⟩ := h.step hs nofun hy
    rw [List.count_singleton_self] at hz
    exact ⟨u, z, by simp only [List.length_nil, Machine.steps, hu], by rwa [← hcount], hsame, hep, hsched⟩
  | cons g turns ih =>
    intro s y h hs hreset hcount
    rw [← List.singleton_append, List.count_append] at hcount
    have hy : y.fsm ≠ .idle := fun hidle => by rw [remaining_idle hidle] at hcount; omega
    rw [List.mem_cons, not_or] at hreset
    obtain ⟨hg, hreset⟩ := hreset
    obtain ⟨t, y', ht, hsteps, hrem, -, hnext, hep, hsched⟩ := h.step hs (Ne.symm hg) hy
    obtain ⟨hmode, hfollows⟩ := hnext fun hidle => by rw [hrem, remaining_idle hidle] at hcount; omega
    obtain ⟨u, z, hu, hz, hsame, hep', hsched'⟩ := ih hfollows hsched hreset (by omega)
    refine ⟨u, z, by simpa only [List.length_cons, Machine.steps, ht] using hu, ?_, hmode ▸ hsame, hep'.trans hep, hsched'⟩
    rw [hrem, engineSteps_add _ hsteps, ← hep]
    exact hz

/-! ### The obligations -/

/-- A command that the checks of R160 accept is latched and started. -/
theorem exec_acceptable {m : Mode} {d : Dir} (h : acceptable e m d s) :
    acceptCheck e m d (s.engine e) = .none ∧
      exec (instrOf (.cipher e m d)) s = .next (s.setEngine e (acceptOn (encodeFields (.cipher e m d)) (s.engine e))) := by
  obtain ⟨hb, hkey, hlen⟩ := h
  have hkc : keyCheck e (s.engine e).keylen = .none := by
    cases e with
    | aes => exact if_pos (hkey rfl)
    | des | present => rfl
  have hc : acceptCheck e m d (s.engine e) = .none := by
    unfold acceptCheck
    rw [hkc]
    cases m with
    | blk => rfl
    | msg => exact lenCheck_none.2 (hlen rfl)
  exact ⟨hc, by rw [exec_cipher, acceptCipher_ok _ hb hc]⟩

/-- From the accept of a command, a schedule without reset that gives the engine its last step ends as the engine's own steps
do. -/
theorem steps_accepted {m : Mode} {d : Dir} (hinv : Inv s) (hacc : acceptable e m d s)
    (ht : exec (instrOf (.cipher e m d)) s = .next t) {turns : List Agent} (rest : List Agent)
    (hreset : Agent.reset ∉ turns)
    (hcount : turns.count (.engine e) + 1 = remaining (acceptOn (encodeFields (.cipher e m d)) (s.engine e))) :
    ∃ u z, steps (turns.length + 1) { t with sched := turns ++ .engine e :: rest } = .next u ∧
      engineSteps s.epoch (turns.count (.engine e) + 1) (acceptOn (encodeFields (.cipher e m d)) (s.engine e)) = .ok z ∧
      sameRun m (u.engine e) z ∧ u.epoch = s.epoch ∧ u.sched = rest := by
  obtain ⟨hc, hexec⟩ := exec_acceptable hacc
  rw [hexec, outcome_next_inj] at ht
  subst ht
  let y := acceptOn (encodeFields (.cipher e m d)) (s.engine e)
  have hmode : latMode y = m := modeField_encodeFields e m d
  have hy : EngineInv y := engineInv_accept (hinv.engines e) hc
  have hfollows : Follows { s.setEngine e y with sched := turns ++ .engine e :: rest } y :=
    ⟨inv_congr (inv_setEngine hinv hy) (engine_with_sched _ _) (inv_setEngine hinv hy).vars, hy,
      sameRun_of_eq (by rw [engine_with_sched, setEngine_engine_same]) _⟩
  have hrun := hfollows.steps turns rest rfl hreset hcount
  rwa [hmode, ← hcount, setEngine_epoch] at hrun

/-- Settles O45: the reference run ends in `blockOpDone`. -/
theorem blockResultUnderEveryInterleaving : Obligations.BlockResultUnderEveryInterleaving := by
  intro s t e d turns rest hinv hacc ht hreset hcount
  obtain ⟨u, z, hu, hz, hsame, -, hsched⟩ :=
    steps_accepted hinv hacc ht rest hreset (hcount.trans (remaining_accept_blk _ d).symm)
  rw [hcount, engineSteps_blockOp, Except.ok.injEq] at hz
  subst hz
  obtain ⟨_, _, _, _, _, heng, -⟩ := hsame
  exact ⟨u, hu, by rw [heng]; rfl, by rw [heng]; rfl, by rw [heng]; rfl, by rw [heng]; rfl, hsched⟩

/-- A message function gives the padded message's length. -/
theorem length_msgFn (d : Dir) (m : List Byte) (k : KeyT e) (hl : lenCheck e d m.length = .none) :
    (msgFn e d m k).length = paddedLen e d m.length := by
  obtain ⟨-, -, hwhole⟩ := paddedLen_legal hl
  cases d with
  | enc => rw [msgFn, msgEnc, length_mapBlocks, hwhole]
  | dec =>
    rw [msgFn, msgDec, length_mapBlocks]
    exact hwhole

/-- Bytes written from the start of a buffer on are what it then reads there. -/
theorem bufBytes_cellWrites (buf : List Host.Cell) (bs : List Byte) :
    bufBytes e ep (cellWrites buf (Config.mbase e) bs) 0 bs.length = bs := by
  refine List.ext_getElem (length_bufBytes ..) fun i _ hi => ?_
  rw [getElem_bufBytes]
  exact bufRead_cellWrites_inside e ep buf 0 bs hi

/-- Settles O46: the reference run ends in `msgOpDone`, and in a message op the buffers agree. -/
theorem messageResultUnderEveryInterleaving : Obligations.MessageResultUnderEveryInterleaving := by
  intro s t e d turns rest hinv hacc ht m p hreset hcount
  have hl : lenCheck e d m = .none := lenCheck_of_acceptCheck (exec_acceptable hacc).1
  obtain ⟨u, z, hu, hz, hsame, hep, hsched⟩ :=
    steps_accepted hinv hacc ht rest hreset (hcount.trans (remaining_accept_msg _ d).symm)
  rw [hcount, engineSteps_msgOp _ d (hinv.engines e).mem_wf.1 hl, Except.ok.injEq] at hz
  subst hz
  obtain ⟨_, _, _, _, buf, heng, hbuf⟩ := hsame
  let out := msgFn e d (bufBytes e s.epoch (s.engine e).msgbuf 0 m) (normKey e (s.engine e).key (s.engine e).keylen)
  have hout : out.length = p := by
    have hlen := length_bufBytes (e := e) (ep := s.epoch) (s.engine e).msgbuf 0 m
    rw [length_msgFn d _ _ (by rwa [hlen]), hlen]
  have hcells : (u.engine e).msgbuf = cellWrites (s.engine e).msgbuf (Config.mbase e) out := by rw [heng]; exact hbuf rfl
  refine ⟨u, hu, ?_, fun off ho => ?_, by rw [heng]; rfl, by rw [heng]; rfl, by rw [heng]; rfl, hsched⟩
  · rw [hcells, ← hout]
    exact bufBytes_cellWrites _ out
  · rw [hcells, hep]
    exact bufRead_cellWrites_outside e _ _ 0 out (.inr (by omega))

end Sys2Proof.Machine
end

section
/-! The command byte against the opcode map: decoding inverts encoding on bytes and on streams, and a byte outside the
map sets ILLEGAL only (spec/30_encoding.md R120, R126 to R128). -/

namespace Sys2Proof.Machine

/-! ### One byte -/

/-- A byte has the fields it is encoded from, and no others. -/
theorem decodeFields_eq_ok_iff {v : Byte} {f : Verdict} : decodeFields v = .ok f ↔ encodeFields f = v :=
  ⟨encodeFields_of_decodeFields, fun h => h ▸ decodeFields_encodeFields f⟩

/-- Decoding is reading the fields and naming their row. -/
theorem decode_of_fields {v : Byte} {f : Verdict} (h : decodeFields v = .ok f) : decode v = .ok (instrOf f) := by
  rw [decode, h, Except.map]

theorem decode_eq_error_iff {v : Byte} {r : Illegal} : decode v = .error r ↔ decodeFields v = .error r := by
  rw [decode]
  cases decodeFields v <;> simp [Except.map]

/-- A byte that decodes is the encoding of what it decodes to. -/
theorem encode_of_decode {v : Byte} {i : Instr} (h : decode v = .ok i) : encode i = v := by
  cases hf : decodeFields v with
  | error r => exact absurd (h.symm.trans (decode_eq_error_iff.mpr hf)) (by simp)
  | ok f =>
    obtain rfl : i = instrOf f := Except.ok.inj (h.symm.trans (decode_of_fields hf))
    rw [encode_instrOf]
    exact encodeFields_of_decodeFields hf

/-! ### Streams of commands -/

theorem mapM_decode_map_encode (is : List Instr) : (is.map encode).mapM decode = Except.ok is := by
  induction is with
  | nil => rfl
  | cons i is ih =>
    rw [List.map_cons, List.mapM_cons, decode_encode, ih]
    rfl

/-- A stream that decodes: its first byte does, and then the rest. -/
theorem mapM_decode_cons {v : Byte} {bs : List Byte} {is : List Instr} (h : (v :: bs).mapM decode = Except.ok is) :
    ∃ i rest, decode v = .ok i ∧ bs.mapM decode = Except.ok rest ∧ is = i :: rest := by
  rw [List.mapM_cons] at h
  cases hv : decode v with
  | error r => rw [hv] at h; cases h
  | ok i =>
    cases hbs : bs.mapM decode with
    | error r => rw [hv, hbs] at h; cases h
    | ok rest =>
      rw [hv, hbs] at h
      exact ⟨i, rest, rfl, rfl, (Except.ok.inj h).symm⟩

theorem map_encode_of_mapM_decode {bs : List Byte} :
    ∀ {is : List Instr}, bs.mapM decode = Except.ok is → is.map encode = bs := by
  induction bs with
  | nil =>
    intro is h
    cases h
    rfl
  | cons v bs ih =>
    intro is h
    obtain ⟨i, rest, hv, hbs, rfl⟩ := mapM_decode_cons h
    rw [List.map_cons, encode_of_decode hv, ih hbs]

/-- Settles O2: by induction on the stream, each way from the same fact about one byte. -/
theorem commandStreamsRoundTrip : Obligations.CommandStreamsRoundTrip := by
  refine ⟨fun is _ => mapM_decode_map_encode is, fun bs is => map_encode_of_mapM_decode, fun i rest => ?_⟩
  rw [decodeStream, decode_encode]

/-! ### The opcode map -/

/-- Every choice of fields that R126 lists. -/
def legalFields : List Verdict :=
  ([.aes, .des, .present].flatMap fun e => [.blk, .msg].flatMap fun m => [.enc, .dec].map fun d => .cipher e m d) ++
    [.gfMul, .aesSbox, .aesInvSbox, .presentSbox, .presentInvSbox, .desSbox].map .util

theorem mem_legalFields (f : Verdict) : f ∈ legalFields := by
  cases f with
  | cipher e m d => cases e <;> cases m <;> cases d <;> decide
  | util f => cases f <;> decide

/-- A row of R126: the byte, its fields and its command. -/
def opcodeRow (f : Verdict) : Byte × Verdict × Instr := (encodeFields f, f, instrOf f)

theorem mem_opcodeRows {v : Byte} {f : Verdict} {i : Instr} :
    (v, f, i) ∈ legalFields.map opcodeRow ↔ encodeFields f = v ∧ instrOf f = i := by
  rw [List.mem_map]
  constructor
  · rintro ⟨g, -, h⟩
    cases h
    exact ⟨rfl, rfl⟩
  · rintro ⟨rfl, rfl⟩
    exact ⟨f, mem_legalFields f, rfl⟩

/-- Settles O1: the rows are those of the fields that a command byte can have. -/
theorem opcodeMapIsComplete : Obligations.OpcodeMapIsComplete := by
  refine ⟨fun v f i => ?_, fun i => ⟨?_, decode_encode i⟩⟩
  · change _ ↔ (v, f, i) ∈ legalFields.map opcodeRow
    rw [mem_opcodeRows, ← decodeFields_eq_ok_iff]
    refine and_congr_right fun h => ?_
    rw [decode_of_fields h, Except.ok.injEq]
  · change encode i ∈ legalFields.map encodeFields
    exact List.mem_map_of_mem (mem_legalFields (verdictOf i))

/-! ### Illegal bytes -/

/-- The illegal bytes are those that no fields encode to. -/
theorem decode_error_iff {v : Byte} : (∃ r, decode v = .error r) ↔ v ∉ legalFields.map encodeFields := by
  simp only [decode_eq_error_iff, List.mem_map, mem_legalFields, true_and, ← decodeFields_eq_ok_iff]
  cases decodeFields v <;> simp

theorem busWrite_cmd_illegal {v : Byte} {r : Illegal} (s : State) (h : decode v = .error r) :
    busWrite s 0x000 v = .next (setIllegal s) := by
  rw [busWrite, locate_cmd, locWrite, cmdWrite, h]

/-- Settles O3: the ranges are what the opcode map leaves of the 256 bytes. -/
theorem illegalByteSetsOnlyIllegal : Obligations.IllegalByteSetsOnlyIllegal := by
  refine ⟨fun v => ?_, by decide +kernel, fun v r s => busWrite_cmd_illegal s⟩
  have hbyte : v.toNat < 256 := v.isLt
  rw [decode_error_iff]
  change v ∉ ([0x10, 0x11, 0x12, 0x13, 0x20, 0x21, 0x22, 0x23, 0x30, 0x31, 0x32, 0x33,
    0x40, 0x41, 0x42, 0x43, 0x44, 0x45] : List Byte) ↔ _
  simp only [List.mem_cons, List.not_mem_nil, or_false, ← BitVec.toNat_inj, BitVec.ofNat_eq_ofNat, BitVec.toNat_ofNat]
  omega

end Sys2Proof.Machine
end

section
/-! The fields of a command byte as arithmetic on the byte (spec/30_encoding.md R121 to R124). -/

namespace Sys2Proof.Machine

variable {v : Byte}

/-! ### Fields -/

theorem toNat_unitField (v : Byte) : (unitField v).toNat = v.toNat / 16 := by
  rw [unitField, BitVec.extractLsb'_toNat, Nat.shiftRight_eq_div_pow]
  omega

theorem toNat_funcField (v : Byte) : (funcField v).toNat = v.toNat % 16 := by
  rw [funcField, BitVec.extractLsb'_toNat, Nat.shiftRight_zero]

theorem toNat_zField (v : Byte) : (zField v).toNat = v.toNat % 16 / 4 := by
  rw [zField, BitVec.extractLsb'_toNat, Nat.shiftRight_eq_div_pow]
  omega

theorem unitField_eq {u : BitVec 4} (h : v.toNat / 16 = u.toNat) : unitField v = u :=
  BitVec.eq_of_toNat_eq ((toNat_unitField v).trans h)

theorem funcField_eq {u : BitVec 4} (h : v.toNat % 16 = u.toNat) : funcField v = u :=
  BitVec.eq_of_toNat_eq ((toNat_funcField v).trans h)

theorem zField_eq_zero_iff : zField v = 0#2 ↔ v.toNat % 16 < 4 := by
  rw [← BitVec.toNat_inj, toNat_zField, BitVec.toNat_ofNat]
  omega

theorem modeField_eq (v : Byte) : modeField v = if v.toNat % 16 / 2 % 2 = 1 then .msg else .blk := by
  have hbit : v.getLsbD 1 = decide (v.toNat % 16 / 2 % 2 = 1) := by
    rw [BitVec.getLsbD, Nat.testBit_eq_decide_div_mod_eq]
    exact decide_eq_decide.mpr (by omega)
  simp only [modeField, hbit, decide_eq_true_eq]

theorem dirField_eq (v : Byte) : dirField v = if v.toNat % 16 % 2 = 1 then .dec else .enc := by
  have hbit : v.getLsbD 0 = decide (v.toNat % 16 % 2 = 1) := by
    rw [BitVec.getLsbD, Nat.testBit_eq_decide_div_mod_eq]
    exact decide_eq_decide.mpr (by omega)
  simp only [dirField, hbit, decide_eq_true_eq]

/-! ### What the fields select -/

theorem engineOfUnit_unitCode (e : EngineId) : engineOfUnit (unitCode e) = some e := by cases e <;> rfl

/-- The UTIL unit is no engine. -/
theorem engineOfUnit_util : engineOfUnit 4#4 = none := rfl

theorem utilOfFunc_funcCode (f : UtilFn) : utilOfFunc (funcCode f) = some f := by cases f <;> rfl

theorem engineOfUnit_eq_none {u : BitVec 4} (h : u.toNat = 0 ∨ 4 ≤ u.toNat) : engineOfUnit u = none := by
  unfold engineOfUnit
  split_ifs with h1 h2 h3
  case neg => rfl
  all_goals subst u; exact absurd h (by decide)

theorem utilOfFunc_eq_none {u : BitVec 4} (h : 6 ≤ u.toNat) : utilOfFunc u = none := by
  unfold utilOfFunc
  split_ifs
  case neg => rfl
  all_goals subst u; exact absurd h (by decide)

/-! ### The branches of R128 -/

theorem decodeFields_cipher (e : EngineId) (hu : v.toNat / 16 = (unitCode e).toNat) (hl : v.toNat % 16 < 4) :
    decodeFields v = .ok (.cipher e (if v.toNat % 16 / 2 % 2 = 1 then .msg else .blk)
      (if v.toNat % 16 % 2 = 1 then .dec else .enc)) := by
  rw [← modeField_eq, ← dirField_eq]
  simp only [decodeFields, unitField_eq hu, engineOfUnit_unitCode, zField_eq_zero_iff.mpr hl, if_true]

theorem decodeFields_zNotZero (e : EngineId) (hu : v.toNat / 16 = (unitCode e).toNat) (hl : 4 ≤ v.toNat % 16) :
    decodeFields v = .error .zNotZero := by
  have hz : zField v ≠ 0#2 := fun h => absurd (zField_eq_zero_iff.mp h) hl.not_gt
  simp only [decodeFields, unitField_eq hu, engineOfUnit_unitCode, if_neg hz]

theorem decodeFields_util (f : UtilFn) (hu : v.toNat / 16 = 4) (hl : v.toNat % 16 = (funcCode f).toNat) :
    decodeFields v = .ok (.util f) := by
  have hunit : unitField v = 4#4 := unitField_eq hu
  simp only [decodeFields, hunit, engineOfUnit_util, if_true, funcField_eq hl,
    utilOfFunc_funcCode]

theorem decodeFields_unknownFunc (hu : v.toNat / 16 = 4) (hl : 6 ≤ v.toNat % 16) :
    decodeFields v = .error .unknownFunc := by
  have hunit : unitField v = 4#4 := unitField_eq hu
  have hfunc : utilOfFunc (funcField v) = none := utilOfFunc_eq_none (by rwa [toNat_funcField])
  simp only [decodeFields, hunit, engineOfUnit_util, if_true, hfunc]

theorem decodeFields_unknownUnit (hu : v.toNat / 16 = 0 ∨ 5 ≤ v.toNat / 16) : decodeFields v = .error .unknownUnit := by
  have hnone : engineOfUnit (unitField v) = none := engineOfUnit_eq_none (by rw [toNat_unitField]; omega)
  have hutil : unitField v ≠ 4#4 := by
    rw [Ne, ← BitVec.toNat_inj, toNat_unitField, BitVec.toNat_ofNat]
    omega
  simp only [decodeFields, hnone, if_neg hutil]

/-- Settles O4: each clause is one branch of R128. -/
theorem commandFieldsSelectUnitAndFunction : Obligations.CommandFieldsSelectUnitAndFunction := by
  intro v
  refine ⟨decodeFields_cipher .aes, decodeFields_cipher .des, decodeFields_cipher .present, fun hu hl => ?_,
    decodeFields_util .gfMul, decodeFields_util .aesSbox, decodeFields_util .aesInvSbox, decodeFields_util .presentSbox,
    decodeFields_util .presentInvSbox, decodeFields_util .desSbox, fun hu hl => ⟨_, decodeFields_unknownFunc hu hl⟩,
    fun hu => ⟨_, decodeFields_unknownUnit hu⟩⟩
  rcases hu with hu | hu | hu
  · exact ⟨_, decodeFields_zNotZero .aes hu hl⟩
  · exact ⟨_, decodeFields_zNotZero .des hu hl⟩
  · exact ⟨_, decodeFields_zNotZero .present hu hl⟩

end Sys2Proof.Machine
end

section
/-! The pseudo-instructions as bus steps (spec/30_encoding.md R130). -/

namespace Sys2Proof.Machine

/-- Byte i of consecutive writes goes to the i-th address. -/
theorem getElem?_writeSteps (bytes : List HostVal) : ∀ a i : Nat,
    (writeSteps a bytes)[i]? = bytes[i]?.map fun b => HostOp.wr8 (BitVec.ofNat 12 (a + i)) b := by
  induction bytes with
  | nil => intro a i; rfl
  | cons b bytes ih =>
    intro a i
    cases i with
    | zero => rfl
    | succ i => rw [writeSteps, List.getElem?_cons_succ, List.getElem?_cons_succ, ih, Nat.succ_add_eq_add_succ]

theorem ofNat_toNat_add (a : Addr) (i : Nat) : BitVec.ofNat 12 (a.toNat + i) = a + BitVec.ofNat 12 i := by
  rw [BitVec.ofNat_add, BitVec.ofNat_toNat, BitVec.setWidth_eq]

theorem getElem?_expandLine_wrbytes (a : Addr) {bytes : List HostVal} {i : Nat} {b : HostVal} (h : bytes[i]? = some b) :
    (expandLine (.wrbytes a bytes))[i]? = some (.wr8 (a + BitVec.ofNat 12 i) b) := by
  rw [expandLine, getElem?_writeSteps, h, Option.map_some, ofNat_toNat_add]

theorem length_expandLine_rdbytes (a : Addr) (n name : Nat) : (expandLine (.rdbytes a n name)).length = n := by
  rw [expandLine, List.length_map, List.length_range]

theorem getElem?_expandLine_rdbytes (a : Addr) {n i : Nat} (name : Nat) (h : i < n) :
    (expandLine (.rdbytes a n name))[i]? = some (.rd8 (a + BitVec.ofNat 12 i) (name + i)) := by
  rw [expandLine, List.getElem?_map, List.getElem?_range h, Option.map_some, ofNat_toNat_add]

/-- Settles O9: the lines of many bytes by the byte, the others by their expansion. -/
theorem pseudoInstructionsExpand : Obligations.PseudoInstructionsExpand :=
  ⟨rfl, fun _ _ => List.flatMap_cons, fun _ => rfl, fun _ => rfl, fun _ _ _ => rfl,
    fun a bytes _ => ⟨length_writeSteps _ bytes, fun _ _ => getElem?_expandLine_wrbytes a⟩,
    fun a n name _ => ⟨length_expandLine_rdbytes a n name, fun _ => getElem?_expandLine_rdbytes a name⟩,
    rfl, rfl, rfl, fun _ => rfl, fun _ => rfl, fun _ => rfl⟩

end Sys2Proof.Machine
end

section
/-! The acceptance of a command byte: the outcomes of a CMD write in the order of its checks, what a busy engine refuses, and
what an accept latches (spec/40_common.md R160 to R164, spec/60_exceptions.md R420). -/

namespace Sys2Proof.Machine

variable {e : EngineId} {s : State}

/-! ### The checks in order -/

/-- A legal byte written to CMD is exec of its command. -/
theorem cmdWrite_of_fields {v : Byte} {f : Verdict} (h : decodeFields v = .ok f) :
    cmdWrite v s = exec (instrOf f) s := by
  rw [cmdWrite, decode_of_fields h]

/-- A key error comes before the length check. -/
theorem acceptCheck_keyError {x : EngineOf e} (m : Mode) (d : Dir) (h : keyCheck e x.keylen ≠ .none) :
    acceptCheck e m d x = keyCheck e x.keylen := by
  unfold acceptCheck
  split
  case h_1 hk => exact absurd hk h
  case h_2 => rfl

/-- With a legal key the length check decides, in a message op. -/
theorem acceptCheck_keyOk {x : EngineOf e} (m : Mode) (d : Dir) (h : keyCheck e x.keylen = .none) :
    acceptCheck e m d x = if m = .msg then lenCheck e d x.msglen.toNat else .none := by
  unfold acceptCheck
  rw [h]
  cases m <;> rfl

/-- Settles O28: the verdict on the byte first, then the checks of `acceptCipher` in their order. -/
theorem acceptanceTakesTheFirstFailingCheck : Obligations.AcceptanceTakesTheFirstFailingCheck := by
  intro s v
  refine ⟨fun r h => cmdWrite_illegal (decode_eq_error_iff.mpr h), fun f h => cmdWrite_of_fields h, fun e m d h => ?_⟩
  have hwrite : busWrite s 0x000 v = acceptCipher e v m d s := by
    have hexec := cmdWrite_of_fields (s := s) h
    rwa [exec_cipher, encodeFields_of_decodeFields h] at hexec
  rw [hwrite]
  refine ⟨fun hb => acceptCipher_busy v m d hb, fun hb hkey => ?_, fun hb hkey hlen => ?_, fun hb hkey hlen => ?_⟩
  · have hcheck := acceptCheck_keyError m d hkey
    rw [acceptCipher_error v hb (hcheck ▸ hkey), hcheck]
    rfl
  · have hcheck := acceptCheck_keyOk m d hkey
    rw [acceptCipher_error v hb (hcheck ▸ hlen), hcheck]
    rfl
  · exact acceptCipher_ok v hb ((acceptCheck_keyOk m d hkey).trans hlen)

/-! ### Commands and the engines that they do not name -/

theorem setBusyrej_setEngine (s : State) (e : EngineId) (x : EngineOf e) :
    setBusyrej (s.setEngine e x) = (setBusyrej s).setEngine e x := by cases e <;> rfl

theorem utilResult_setEngine (v : Byte) (s : State) (e : EngineId) (x : EngineOf e) :
    utilResult v (s.setEngine e x) = .next (State.setEngine { s with ur := v } e x) := by cases e <;> rfl

/-- A cipher command neither reads nor writes another engine. -/
theorem acceptCipher_setEngine {e' : EngineId} (h : e' ≠ e) (v : Byte) (m : Mode) (d : Dir) (s : State) (x : EngineOf e) :
    ∃ t, acceptCipher e' v m d s = .next t ∧ acceptCipher e' v m d (s.setEngine e x) = .next (t.setEngine e x) := by
  have hother : (s.setEngine e x).engine e' = s.engine e' := setEngine_engine_other s x h
  rcases acceptCipher_cases e' v m d s with ⟨hb, heq⟩ | ⟨hb, hc, heq⟩ | ⟨hb, hc, heq⟩ <;> refine ⟨_, heq, ?_⟩
  · rw [acceptCipher_busy v m d (by rwa [hother]), setBusyrej_setEngine]
  · rw [acceptCipher_ok v (by rwa [hother]) (by rwa [hother]), hother, setEngine_comm s h.symm]
  · rw [acceptCipher_error v (by rwa [hother]) (by rwa [hother]), raiseCmdError, hother, setEngine_comm s h.symm,
      raiseCmdError]

/-- The result of a UTIL command, from UA and UB (44_diagnostic.md R371 to R376). -/
def utilValue (ua ub : Byte) : UtilFn → Byte
  | .gfMul => gfmul ua ub
  | .aesSbox => sbox ua
  | .aesInvSbox => invSbox ua
  | .presentSbox => (psbox (ua.extractLsb' 0 4)).setWidth 8
  | .presentInvSbox => (psboxInv (ua.extractLsb' 0 4)).setWidth 8
  | .desSbox => (sboxDes ((ub.extractLsb' 0 3).toNat + 1) (ua.extractLsb' 0 6)).setWidth 8

theorem exec_util_eq (f : UtilFn) (s : State) :
    exec (instrOf (.util f)) s = utilResult (utilValue s.ua s.ub f) s := by cases f <;> rfl

/-- Settles O29: a cipher command reads its own engine only, a UTIL command UA and UB only. -/
theorem busyEngineRefusesItsCommands : Obligations.BusyEngineRefusesItsCommands := by
  refine ⟨fun s e m d hb => ?_, fun s e e' m d x h => ?_, fun s e f x => ⟨_, exec_util_eq f s, ?_⟩⟩
  · rw [exec_cipher, acceptCipher_busy _ m d hb]
    rfl
  · simp only [exec_cipher]
    exact acceptCipher_setEngine h _ m d s x
  · rw [exec_util_eq, setEngine_ua, setEngine_ub]
    exact utilResult_setEngine _ s e x

/-! ### The input registers after the accept -/

/-- The engine with other input registers: KEYLEN, MSGLEN, KEY and DIN. -/
def withInputs (keylen : Byte) (msglen : Half) (key : Vector Byte (Config.keyBytes e))
    (din : Vector Byte (Config.blkBytes e)) (x : EngineOf e) : EngineOf e :=
  { x with keylen := keylen, msglen := msglen, key := key, din := din }

/-- A register write changes the input registers only, to values that it reads from the input registers. -/
theorem regWrite_eq_withInputs (v : Byte) {x y : EngineOf e} (r : EngReg)
    (h : y.keylen = x.keylen ∧ y.msglen = x.msglen ∧ y.key = x.key ∧ y.din = x.din) :
    regWrite v y r = withInputs (regWrite v x r).keylen (regWrite v x r).msglen (regWrite v x r).key
      (regWrite v x r).din y := by
  obtain ⟨hkeylen, hmsglen, hkey, hdin⟩ := h
  cases r <;> simp only [regWrite, withInputs, ← hkeylen, ← hmsglen, ← hkey, ← hdin]

/-- No transition reads an input register (R162). -/
theorem EngineMove.withInputs {ep : Nat} {x y : EngineOf e} (h : EngineMove ep x y) (keylen : Byte) (msglen : Half)
    (key : Vector Byte (Config.keyBytes e)) (din : Vector Byte (Config.blkBytes e)) :
    EngineMove ep (withInputs keylen msglen key din x) (withInputs keylen msglen key din y) := by
  cases h with
  | idle hf => exact .idle hf
  | nextKey i hf h1 hi => exact .nextKey i hf h1 hi
  | lastKeyMsg hf hm => exact .lastKeyMsg hf hm
  | lastKeyBlk hf hm => exact .lastKeyBlk hf hm
  | emptyMsg hf hp hn => exact .emptyMsg hf hp hn
  | padMsg hf hp hn => exact .padMsg hf hp hn
  | load blk hf hb => exact .load blk hf hb
  | round i f hf hr => exact .round i f hf hr
  | storeBlk hf hm => exact .storeBlk hf hm
  | storeNext hf hm hr hn => exact .storeNext hf hm hr hn
  | storeLast hf hm hr hn => exact .storeLast hf hm hr hn

/-- Settles O30: the accept of `exec_acceptable`, after which no transition reads the input registers. -/
theorem acceptLatchesTheInputsAndStarts : Obligations.AcceptLatchesTheInputsAndStarts := by
  refine ⟨fun s e m d hacc => (exec_acceptable hacc).2, fun e ep x y r v _ hstep => ?_⟩
  have hmove := EngineMove.of_step hstep
  rw [regWrite_eq_withInputs v (x := x) (y := x) r ⟨rfl, rfl, rfl, rfl⟩, regWrite_eq_withInputs v r hmove.inputs]
  exact (hmove.withInputs _ _ _ _).step

end Sys2Proof.Machine
end

section
/-! The transitions of an engine's FSM one by one (spec/40_common.md R163, R170 to R176). -/

namespace Sys2Proof.Machine

variable {e : EngineId} {ep : Nat}

/-! ### Key schedule, LOAD and the rounds -/

/-- A round index stands once in the round list. -/
theorem notMem_before_round {d : Dir} {before after : List Nat} {i : Nat} (h : rounds e d = before ++ i :: after) :
    i ∉ before := fun hmem => by
  have hnodup := rounds_nodup e d
  rw [h, List.nodup_append] at hnodup
  exact hnodup.2.2 i hmem i List.mem_cons_self rfl

/-- After a round comes the one that follows it in the round list. -/
theorem afterRound_next {d : Dir} {before after : List Nat} {i next : Nat}
    (h : rounds e d = before ++ i :: next :: after) : afterRound (rounds e d) i = some (.rnd next) := by
  rw [h]
  exact afterRound_split before i _ (notMem_before_round h)

/-- After the last round comes STORE. -/
theorem afterRound_last {d : Dir} {before : List Nat} {last : Nat} (h : rounds e d = before ++ [last]) :
    afterRound (rounds e d) last = some .store := by
  rw [h]
  exact afterRound_split before last [] (notMem_before_round h)

/-- LOAD goes on to the first round. -/
theorem engineStep_load_first {x : EngineOf e} {blk : Vector Byte (Config.blkBytes e)} {first : Nat} {rest : List Nat}
    (hf : x.fsm = .load) (hb : blockIn ep x = .ok blk) (hr : rounds e (latDir x) = first :: rest) :
    engineStep ep x = .ok { x with work := loadAction e (latDir x) blk x.work, fsm := .rnd first } := by
  rw [engineStep_load hf hb, hr, List.headD_cons]

theorem blockIn_blk {x : EngineOf e} (hm : latMode x = .blk) : blockIn ep x = .ok x.lat.din := by rw [blockIn, hm]

theorem blockIn_msg {x : EngineOf e} (hm : latMode x = .msg) (hr : blockInRange x) :
    blockIn ep x = .ok (Vector.ofFn fun k : Fin (Config.blkBytes e) =>
      bufRead e ep x.msgbuf (x.j.toNat * Config.blkBytes e + k.val)) := by rw [blockIn, hm]; exact if_pos hr

/-- Settles O34: each clause is a transition of `EngineMove`, or LOAD and a round by the round list. -/
theorem engineStepFollowsTheTransitions : Obligations.EngineStepFollowsTheTransitions := by
  intro e ep x
  refine ⟨engineStep_idle, fun i hf h1 hi => (EngineMove.nextKey i hf h1 hi).step, ?_, ?_,
    fun first rest hf hm hr => engineStep_load_first hf (blockIn_blk hm) hr,
    fun first rest hf hm hr hin => engineStep_load_first hf (blockIn_msg hm hin) hr,
    fun before i next after hf hr => engineStep_rnd hf (afterRound_next hr),
    fun before last hf hr => engineStep_rnd hf (afterRound_last hr)⟩
  · rintro i hf rfl hm
    exact (EngineMove.lastKeyMsg hf hm).step
  · rintro i hf rfl hm
    exact (EngineMove.lastKeyBlk hf hm).step

end Sys2Proof.Machine
end

section
/-! The lengths of a message op, and what MSGINIT and STORE write (spec/40_common.md R163, R168, R172, R175, R176). -/

namespace Sys2Proof.Machine

variable {e : EngineId} {ep : Nat}

/-! ### MSGINIT -/

/-- The padding of MSGINIT stands at offsets m to p-1 of an encrypt, and nothing else changes (R172). -/
theorem bufRead_padBuf (d : Dir) (m : Nat) (buf : List Host.Cell) (off : Nat) :
    bufRead e ep (padBuf e d m buf) off =
      if d = .enc ∧ m ≤ off ∧ off < paddedLen e d m then 0x00 else bufRead e ep buf off := by
  cases d with
  | dec => simp only [padBuf, reduceCtorEq, false_and, if_false]
  | enc =>
    simp only [padBuf, true_and]
    split_ifs with h
    · obtain ⟨i, rfl⟩ := Nat.exists_eq_add_of_le h.1
      rw [bufRead_cellWrites_inside _ _ _ _ _ (by rw [List.length_replicate]; omega), List.getElem_replicate]
    · exact bufRead_cellWrites_outside _ _ _ _ _ (by rw [List.length_replicate]; omega)

/-- A legal message has no block exactly when its padded length is 0. -/
theorem blocks_eq_zero_iff {d : Dir} {m : Nat} (h : lenCheck e d m = .none) :
    paddedLen e d m / Config.blkBytes e = 0 ↔ paddedLen e d m = 0 := by
  obtain ⟨-, -, hwhole⟩ := paddedLen_legal h
  refine ⟨fun h0 => ?_, fun h0 => by rw [h0, Nat.zero_div]⟩
  rw [← hwhole, h0, Nat.zero_mul]

/-- The block counter holds the number of blocks of a legal message. -/
theorem toNat_blocks {d : Dir} {m : Nat} (h : lenCheck e d m = .none) :
    (BitVec.ofNat 16 (paddedLen e d m / Config.blkBytes e)).toNat = paddedLen e d m / Config.blkBytes e :=
  half_toNat_ofNat ((Nat.div_le_self _ _).trans (paddedLen_legal h).2.1)

/-- Settles O35: MSGINIT of a legal length is `EngineMove.emptyMsg` or `EngineMove.padMsg`. -/
theorem msginitWritesOnlyThePadding : Obligations.MsginitWritesOnlyThePadding := by
  intro e ep x hf m dir p hlen
  obtain ⟨-, hfit, hwhole⟩ := paddedLen_legal hlen
  by_cases hp : p = 0
  · have hmove := EngineMove.emptyMsg (ep := ep) hf hfit ((blocks_eq_zero_iff hlen).mpr hp)
    exact ⟨_, hmove.step, bufRead_padBuf dir m x.msgbuf, rfl, rfl, rfl, rfl, rfl, fun _ => ⟨rfl, rfl, rfl⟩,
      fun h => absurd hp h⟩
  · have hmove := EngineMove.padMsg (ep := ep) hf hfit (mt (blocks_eq_zero_iff hlen).mp hp)
    have hblocks := (congrArg (· * Config.blkBytes e) (toNat_blocks hlen)).trans hwhole
    exact ⟨_, hmove.step, bufRead_padBuf dir m x.msgbuf, rfl, rfl, rfl, rfl, rfl, fun h => absurd h hp,
      fun _ => ⟨rfl, rfl, hblocks, rfl, rfl, rfl, rfl⟩⟩

/-! ### STORE -/

/-- Block j is what the buffer reads where it was stored. -/
theorem bufRead_storedBlock (buf : List Host.Cell) (off : Nat) (ob : Vector Byte (Config.blkBytes e)) {k : Nat}
    (hk : k < Config.blkBytes e) : bufRead e ep (cellWrites buf (Config.mbase e + off) ob.toList) (off + k) = ob[k] := by
  rw [bufRead_cellWrites_inside _ _ _ _ _ (by simpa using hk), Vector.getElem_toList]

/-- Every other byte reads as before. -/
theorem bufRead_storedBlock_other (buf : List Host.Cell) (off : Nat) (ob : Vector Byte (Config.blkBytes e)) {o : Nat}
    (ho : o < off ∨ off + Config.blkBytes e ≤ o) :
    bufRead e ep (cellWrites buf (Config.mbase e + off) ob.toList) o = bufRead e ep buf o :=
  bufRead_cellWrites_outside _ _ _ _ _ (by simpa using ho)

/-- Settles O36: STORE is `EngineMove.storeBlk`, `EngineMove.storeNext` or `EngineMove.storeLast`. -/
theorem storeWritesTheBlockInPlace : Obligations.StoreWritesTheBlockInPlace := by
  intro e ep x hf ob B inputsKept completed
  refine ⟨fun hm => ?_, fun hm hr => ?_⟩
  · exact ⟨_, (EngineMove.storeBlk (ep := ep) hf hm).step, rfl, rfl, ⟨rfl, rfl, rfl, rfl⟩, rfl, rfl, rfl⟩
  · by_cases hn : x.j.toNat + 1 < x.nblk.toNat
    · exact ⟨_, (EngineMove.storeNext (ep := ep) hf hm hr hn).step, fun k hk => bufRead_storedBlock _ _ _ hk,
        fun off ho => bufRead_storedBlock_other _ _ _ ho, rfl, ⟨rfl, rfl, rfl, rfl⟩,
        fun _ => ⟨rfl, rfl, rfl, rfl, rfl, rfl, rfl⟩, fun hlast => absurd hn hlast.not_gt⟩
    · exact ⟨_, (EngineMove.storeLast (ep := ep) hf hm hr hn).step, fun k hk => bufRead_storedBlock _ _ _ hk,
        fun off ho => bufRead_storedBlock_other _ _ _ ho, rfl, ⟨rfl, rfl, rfl, rfl⟩,
        fun hnext => absurd hnext hn, fun _ => ⟨rfl, rfl, rfl⟩⟩

/-! ### Lengths -/

/-- The padded length of an encrypt is the message length rounded up to whole blocks (R163). -/
theorem paddedLen_enc (e : EngineId) (m : Nat) :
    Config.blkBytes e ∣ paddedLen e .enc m ∧ m ≤ paddedLen e .enc m ∧ paddedLen e .enc m < m + Config.blkBytes e := by
  refine ⟨Nat.dvd_mul_left _ _, ?_⟩
  cases e <;> simp only [paddedLen, Config.blkBytes] <;> omega

theorem paddedLen_zero (e : EngineId) (d : Dir) : paddedLen e d 0 = 0 := by cases e <;> cases d <;> rfl

/-- Settles O33: the checks and the padded length by their definitions, the block counts by the transitions that set them. -/
theorem messageLengthsAreCheckedAndPadded : Obligations.MessageLengthsAreCheckedAndPadded := by
  refine ⟨fun e d m => ⟨fun h => ?_, fun hm hd => lenCheck_none.mpr ⟨hm, hd⟩⟩, fun e d x => ?_, fun _ _ => rfl, paddedLen_enc,
    fun e ep x hf hm => ⟨_, (EngineMove.lastKeyBlk hf hm).step, rfl, rfl, rfl⟩, fun e ep x hf hlen hp => ?_,
    fun e d => ⟨paddedLen_zero e d, by rw [paddedLen_zero, Nat.zero_div]⟩⟩
  · unfold lenCheck
    split_ifs with hlong hpart
    · rfl
    · rfl
    · exact absurd h (not_or.mpr ⟨hlong, hpart⟩)
  · by_cases hkey : keyCheck e x.keylen = .none
    · rw [acceptCheck_keyOk .blk d hkey, hkey, if_neg nofun]
    · exact acceptCheck_keyError .blk d hkey
  · obtain ⟨-, hfit, -⟩ := paddedLen_legal hlen
    exact ⟨_, (EngineMove.padMsg hf hfit (mt (blocks_eq_zero_iff hlen).mp hp)).step, toNat_blocks hlen⟩

end Sys2Proof.Machine
end

section
/-! Bytes packed into bits and taken out again, and the keys that an accept normalises (spec/20_memory.md R86,
spec/40_common.md R158, R165 to R167). -/

namespace Sys2Proof.Machine

/-! ### Packing -/

/-- Byte i of a packed byte sequence. -/
theorem slice_bytesToBits {n i : Nat} (b : Vector Byte n) (hi : i < n) : slice (bytesToBits b) (8 * i) 8 = b[i] := by
  refine BitVec.eq_of_getMsbD_eq fun m hm => ?_
  rw [getMsbD_slice _ (by omega) hm, getMsbD_bytesToBits b hi (by omega), BitVec.getMsbD_eq_getLsbD, decide_eq_true hm,
    Bool.true_and]

theorem getElem_bytesAt {n i : Nat} (l : List Byte) (off : Nat) (hi : i < n) :
    (bytesAt n l off)[i] = byteAt l (off + i) := by rw [bytesAt, Vector.getElem_ofFn]

theorem byteAt_eq_dite (l : List Byte) (i : Nat) : byteAt l i = if h : i < l.length then l[i] else 0 := by
  rw [byteAt, List.getD_eq_getElem?_getD]
  split_ifs with h
  · rw [List.getElem?_eq_getElem h, Option.getD_some]
  · rw [List.getElem?_eq_none (not_lt.mp h), Option.getD_none]

/-! ### Keys -/

/-- A key register holds its own number of bytes, so a larger KEYLEN takes no more. -/
theorem take_toList_min {n : Nat} (key : Vector Byte n) (len : Nat) : key.toList.take len = key.toList.take (min len n) := by
  rw [List.take_eq_take_min, Vector.length_toList]

/-- Settles O32: the key is the packing of its first bytes, with 0x00 past its end. -/
theorem keysAreNormalised : Obligations.KeysAreNormalised := by
  refine ⟨fun n => ⟨fun h => if_neg h, fun h => if_pos h, rfl, rfl⟩, fun _ => rfl, fun k i m hi hm => ?_,
    fun key n => congrArg keyBitsDes (take_toList_min key n.toNat), fun k i hi => ?_,
    fun key n => congrArg keyIntPresent (take_toList_min key n.toNat)⟩
  · rw [keyBitsDes, getMsbD_bytesToBits _ hi hm, getElem_bytesAt, Nat.zero_add, byteAt_eq_dite]
    split_ifs
    · rfl
    · exact BitVec.getLsbD_zero
  · have hslice := slice_bytesToBits (bytesAt 10 k 0) hi
    rw [getElem_bytesAt, Nat.zero_add, byteAt_eq_dite, slice, show 8 * 10 - 8 * i - 8 = 72 - 8 * i by omega] at hslice
    exact hslice

end Sys2Proof.Machine
end

section
/-! What the host reads after an engine has changed, and the frame of the cipher commands at their CMD write
(spec/40_common.md R160 to R164, spec/60_exceptions.md R410, spec/70_reset_and_hazards.md R452). -/

namespace Sys2Proof.Machine

variable {e : EngineId} {s : State}

/-! ### Reads after an engine has changed -/

/-- An address reads as before when what stands there does: GSTAT by BUSY, a register of the window by its byte, a buffer byte by
the buffer and by whether a message op runs. -/
theorem readAt_setEngine {x : EngineOf e} {a : Addr}
    (hgstat : locate a = .gstat → x.status.busy = (s.engine e).status.busy)
    (hreg : ∀ r, locate a = .reg e r → regRead x r = regRead (s.engine e) r)
    (hbuf : ∀ off, locate a = .msgbuf e off → msgOpRunning x = msgOpRunning (s.engine e) ∧
      bufRead e s.epoch x.msgbuf off = bufRead e s.epoch (s.engine e).msgbuf off) :
    (s.setEngine e x).readAt a = s.readAt a := by
  unfold State.readAt busRead
  cases hl : locate a with
  | gstat =>
    have hbusy := setEngine_field (fun _ x => x.status.busy) s (hgstat hl)
    simp only [locRead, gstatByte, setEngine_illegal, setEngine_busyrej, ← engine_aes, ← engine_des, ← engine_present, hbusy]
  | reg e' r =>
    simp only [locRead]
    by_cases he : e' = e
    · subst he
      rw [setEngine_engine_same, hreg r hl]
    · rw [setEngine_engine_other s x he]
  | msgbuf e' off =>
    simp only [locRead_msgbuf_fst, setEngine_epoch, setEngine_draws]
    by_cases he : e' = e
    · subst he
      obtain ⟨hrun, hbyte⟩ := hbuf off hl
      rw [setEngine_engine_same, hrun, hbyte]
    · rw [setEngine_engine_other s x he]
  | _ => simp [locRead]

theorem readAt_setBusyrej {a : Addr} (ha : a ≠ 0x001) : (setBusyrej s).readAt a = s.readAt a := by
  unfold State.readAt busRead
  cases hl : locate a with
  | gstat => exact absurd (locate_eq_gstat hl) ha
  | reg e r => simp only [locRead, setBusyrej_engine]
  | msgbuf e off => simp only [locRead_msgbuf_fst, setBusyrej_engine]; rfl
  | _ => rfl

/-- A byte of a buffer (R42). -/
theorem locate_bufAddr (e : EngineId) {off : Nat} (h : off < 256) : locate (bufAddr e off) = .msgbuf e off := by
  have hbuf : locateBuf e off = .msgbuf e off := if_pos h
  rw [← hbuf]
  cases e <;> simp only [locate, bufAddr, Config.mbase, BitVec.toNat_ofNat]
  · rw [show (0x400 + off) % 2 ^ 12 / 256 = 4 by omega, show (0x400 + off) % 2 ^ 12 % 256 = off by omega]
    rfl
  · rw [show (0x500 + off) % 2 ^ 12 / 256 = 5 by omega, show (0x500 + off) % 2 ^ 12 % 256 = off by omega]
    rfl
  · rw [show (0x600 + off) % 2 ^ 12 / 256 = 6 by omega, show (0x600 + off) % 2 ^ 12 % 256 = off by omega]
    rfl

/-- STATUS stands at one address. -/
theorem locate_status_inj {a : Addr} (h : locate a = .reg e .status) : a = regAddr e 0x00 :=
  locate_inj (h.trans (locate_status e).symm) (by simp [h])

/-- A buffer byte stands in its buffer's window (R42). -/
theorem window_of_locate_msgbuf {a : Addr} {off : Nat} (h : locate a = .msgbuf e off) :
    a.toNat / 256 = Config.mbase e / 256 := by
  have hat := locate_standsAt a
  rw [h] at hat
  obtain ⟨haddr, hoff⟩ := hat
  cases e <;> simp only [Config.mbase, Config.msgBufBytes] at haddr hoff ⊢ <;> omega

/-! ### The frame of a cipher command -/

/-- An engine that differs from `x` in STATUS and in the hidden registers only. -/
def sameRegisters (x y : EngineOf e) : Prop :=
  y.keylen = x.keylen ∧ y.msglen = x.msglen ∧ y.outlen = x.outlen ∧ y.key = x.key ∧ y.din = x.din ∧ y.dout = x.dout ∧
  y.msgbuf = x.msgbuf

theorem sameRegisters.regRead {x y : EngineOf e} (h : sameRegisters x y) {r : EngReg} (hr : r ≠ .status) :
    regRead y r = regRead x r := by
  obtain ⟨hkeylen, hmsglen, houtlen, hkey, hdin, hdout, -⟩ := h
  cases r with
  | status => exact absurd rfl hr
  | _ => simp only [Machine.regRead, hkeylen, hmsglen, houtlen, hkey, hdin, hdout]

/-- Such an engine reads as before at every address but GSTAT, STATUS and, when a message op starts or ends, its buffer. -/
theorem sameRegisters.readAt {x : EngineOf e} (h : sameRegisters (s.engine e) x) {a : Addr} (hg : a ≠ 0x001)
    (hs : a ≠ regAddr e 0x00) (hrun : a.toNat / 256 = Config.mbase e / 256 → msgOpRunning x = msgOpRunning (s.engine e)) :
    (s.setEngine e x).readAt a = s.readAt a := by
  refine readAt_setEngine (fun hl => absurd (locate_eq_gstat hl) hg) (fun r hl => h.regRead ?_)
    (fun off hl => ⟨hrun (window_of_locate_msgbuf hl), ?_⟩)
  · rintro rfl
    exact hs (locate_status_inj hl)
  · obtain ⟨-, -, -, -, -, -, hmsgbuf⟩ := h
    rw [hmsgbuf]

theorem bufAddr_ne (e : EngineId) {off : Nat} (h : off < 256) : bufAddr e off ≠ 0x001 ∧ bufAddr e off ≠ regAddr e 0x00 := by
  have hl := locate_bufAddr e h
  constructor <;> intro heq <;> rw [heq] at hl
  · cases locate_gstat.symm.trans hl
  · cases (locate_status e).symm.trans hl

theorem msgOpRunning_idle {x : EngineOf e} (h : x.status.busy = false) : msgOpRunning x = false := by
  rw [msgOpRunning, h, Bool.false_and]

theorem msgOpRunning_blk {x : EngineOf e} (h : latMode x = .blk) : msgOpRunning x = false := by
  rw [msgOpRunning, h]
  simp

/-- The frame of a command that leaves its engine's registers: an accept, or a refusal with an error. -/
theorem cipherCommandFrame_setEngine {m : Mode} {x : EngineOf e} (h : sameRegisters (s.engine e) x)
    (hb : (s.engine e).status.busy = false) (hrun : m = .blk → msgOpRunning x = false) :
    let t := s.setEngine e x
    (∀ a : Addr, a ≠ 0x001 → a ≠ regAddr e 0x00 → a.toNat / 256 ≠ Config.mbase e / 256 → t.readAt a = s.readAt a) ∧
    (t.engine e).msgbuf = (s.engine e).msgbuf ∧
    (m = .blk → ∀ off, off < 256 → t.readAt (bufAddr e off) = s.readAt (bufAddr e off)) ∧
    (∀ e', e' ≠ e → t.engine e' = s.engine e') := by
  refine ⟨fun a hg hs hw => h.readAt hg hs fun hw' => absurd hw' hw, ?_, fun hm off ho => ?_,
    fun e' he => setEngine_engine_other s x he⟩
  · obtain ⟨-, -, -, -, -, -, hmsgbuf⟩ := h
    rw [setEngine_engine_same, hmsgbuf]
  · obtain ⟨hg, hs⟩ := bufAddr_ne e ho
    exact h.readAt hg hs fun _ => (hrun hm).trans (msgOpRunning_idle hb).symm

/-- Settles O44: a refusal as busy touches GSTAT only, an accept and a refusal with an error the engine's STATUS and hidden
registers only. -/
theorem cipherCommandFrame : Obligations.CipherCommandFrame := by
  intro s e m d
  rw [exec_cipher]
  rcases acceptCipher_cases e (encodeFields (.cipher e m d)) m d s with ⟨hb, heq⟩ | ⟨hb, -, heq⟩ | ⟨hb, -, heq⟩
  · exact ⟨_, heq, fun a hg _ _ => readAt_setBusyrej hg, by rw [setBusyrej_engine], rfl,
      fun _ hidle => absurd hidle (by simp [hb]), fun e' _ => setBusyrej_engine s e', fun hidle => absurd hidle (by simp [hb]),
      rfl, rfl, rfl, rfl, rfl, rfl, rfl⟩
  · have hmode : latMode (acceptOn (encodeFields (.cipher e m d)) (s.engine e)) = m := modeField_encodeFields e m d
    obtain ⟨hread, hmsgbuf, hbuf, hother⟩ := cipherCommandFrame_setEngine (m := m)
      (x := acceptOn (encodeFields (.cipher e m d)) (s.engine e)) ⟨rfl, rfl, rfl, rfl, rfl, rfl, rfl⟩ hb
      fun hm => msgOpRunning_blk (hmode.trans hm)
    exact ⟨_, heq, hread, hmsgbuf, by simp, fun hm _ => hbuf hm, hother, by simp⟩
  · obtain ⟨hread, hmsgbuf, hbuf, hother⟩ := cipherCommandFrame_setEngine (m := m)
      (x := raiseOn (acceptCheck e m d (s.engine e)) (s.engine e)) ⟨rfl, rfl, rfl, rfl, rfl, rfl, rfl⟩ hb
      fun _ => msgOpRunning_idle hb
    exact ⟨_, heq, hread, hmsgbuf, by simp [raiseCmdError], fun hm _ => hbuf hm, hother, by simp [raiseCmdError]⟩

end Sys2Proof.Machine
end

section
/-! Whole commands on the machine: the accept, then the engine's own turns to the completion (spec/40_common.md R171, R178,
R180, R181). -/

namespace Sys2Proof.Machine

variable {e : EngineId} {s : State}

/-! ### Block ops -/

/-- An accepted block op completes in the steps of R178, and nothing but its engine changes. -/
theorem blockCommand_completes {d : Dir} (h : acceptable e .blk d s) :
    ∃ t, exec (instrOf (.cipher e .blk d)) s = .next t ∧
      steps (blockOpSteps e) (scheduleEngine e (blockOpSteps e) t) = .next (s.setEngine e (blockOpDone d (s.engine e))) := by
  refine ⟨_, (exec_acceptable h).2, ?_⟩
  rw [steps_scheduleEngine _ (by rw [setEngine_engine_same, setEngine_epoch]; exact engineSteps_blockOp _ d),
    setEngine_setEngine]

/-- Settles O38: the two block ops of AES. -/
theorem aesBlockCommandsComplete : Obligations.AesBlockCommandsComplete := by
  intro s hb hkeylen done
  have hacc (d : Dir) : acceptable .aes .blk d s := ⟨hb, fun _ => hkeylen, nofun⟩
  obtain ⟨t, ht, hu⟩ := blockCommand_completes (hacc .enc)
  obtain ⟨t', ht', hu'⟩ := blockCommand_completes (hacc .dec)
  exact ⟨⟨t, _, ht, hu, rfl⟩, ⟨t', _, ht', hu', rfl⟩⟩

/-- Settles O39: the two block ops of DES. -/
theorem desBlockCommandsComplete : Obligations.DesBlockCommandsComplete := by
  intro s hb key done
  have hacc (d : Dir) : acceptable .des .blk d s := ⟨hb, nofun, nofun⟩
  obtain ⟨t, ht, hu⟩ := blockCommand_completes (hacc .enc)
  obtain ⟨t', ht', hu'⟩ := blockCommand_completes (hacc .dec)
  exact ⟨⟨t, _, ht, hu, rfl⟩, ⟨t', _, ht', hu', rfl⟩⟩

/-- Settles O40: the two block ops of PRESENT. -/
theorem presentBlockCommandsComplete : Obligations.PresentBlockCommandsComplete := by
  intro s hb key done
  have hacc (d : Dir) : acceptable .present .blk d s := ⟨hb, nofun, nofun⟩
  obtain ⟨t, ht, hu⟩ := blockCommand_completes (hacc .enc)
  obtain ⟨t', ht', hu'⟩ := blockCommand_completes (hacc .dec)
  exact ⟨⟨t, _, ht, hu, rfl⟩, ⟨t', _, ht', hu', rfl⟩⟩

/-! ### Message ops -/

/-- An accepted message op completes in the steps of R178, and nothing but its engine changes. -/
theorem msgCommand_completes {d : Dir} {n : Nat} (hinv : Inv s) (h : acceptable e .msg d s)
    (hn : msgOpSteps e (paddedLen e d (s.engine e).msglen.toNat / Config.blkBytes e) = n) :
    ∃ t, exec (instrOf (.cipher e .msg d)) s = .next t ∧
      steps n (scheduleEngine e n t) = .next (s.setEngine e (msgOpDone s.epoch d (s.engine e))) := by
  subst hn
  obtain ⟨hcheck, hexec⟩ := exec_acceptable h
  refine ⟨_, hexec, ?_⟩
  rw [steps_scheduleEngine _ (by
      rw [setEngine_engine_same, setEngine_epoch]
      exact engineSteps_msgOp _ d (hinv.engines e).mem_wf.1 (lenCheck_of_acceptCheck hcheck)),
    setEngine_setEngine]

/-- What a completed message op leaves on the machine when its result is `out` (R181). -/
def MessageFinished (e : EngineId) (s u : State) (out : List Byte) : Prop :=
  (∀ k b, out[k]? = some b → u.readAt (bufAddr e k) = b) ∧
  (∀ a : Addr, a.toNat ∉ [Config.base e, Config.base e + 4, Config.base e + 5] →
    ¬ (Config.mbase e ≤ a.toNat ∧ a.toNat < Config.mbase e + out.length) → u.readAt a = s.readAt a) ∧
  (u.engine e).outlen = BitVec.ofNat 16 out.length ∧ (u.engine e).status = ⟨false, true, false, .none⟩ ∧
  (u.engine e).fsm = .idle ∧ (∀ e', e' ≠ e → u.engine e' = s.engine e') ∧
  u.host = s.host ∧ u.vars = s.vars ∧ u.rdata = s.rdata ∧ u.sched = s.sched ∧ u.epoch = s.epoch ∧ u.draws = s.draws

/-- The bytes that the host reads from an idle engine's buffer are the buffer's. -/
theorem readAt_bufAddr (hb : (s.engine e).status.busy = false) {off : Nat} (ho : off < 256) :
    s.readAt (bufAddr e off) = bufRead e s.epoch (s.engine e).msgbuf off := by
  rw [State.readAt, busRead, locate_bufAddr e ho, locRead_msgbuf_fst, msgOpRunning_idle hb]
  rfl

theorem map_readAt_bufAddr (hb : (s.engine e).status.busy = false) {m : Nat} (hm : m ≤ 256) :
    ((List.range m).map fun k => s.readAt (bufAddr e k)) = bufBytes e s.epoch (s.engine e).msgbuf 0 m := by
  refine List.map_congr_left fun k hk => ?_
  rw [List.mem_range] at hk
  rw [readAt_bufAddr hb (by omega), Nat.zero_add]

/-- The engine that a message op leaves when its result is `out`. -/
def msgDoneWith (x : EngineOf e) (out : List Byte) : EngineOf e :=
  completeOn out.length { x with
    status := statusAccepted, msgbuf := cellWrites x.msgbuf (Config.mbase e) out }

/-- A completed message op leaves the registers but STATUS and OUTLEN, and the buffer beyond its result. -/
theorem messageFinished_msgDoneWith {out : List Byte} (hb : (s.engine e).status.busy = false) (hout : out.length ≤ 256) :
    MessageFinished e s (s.setEngine e (msgDoneWith (s.engine e) out)) out := by
  refine ⟨fun k b hk => ?_, fun a hregs hbuf => readAt_setEngine (fun _ => ?_) (fun r hl => ?_) fun off hl => ⟨?_, ?_⟩,
    ?_, ?_, ?_, fun e' he => setEngine_engine_other s _ he, by simp⟩
  · obtain ⟨hlt, rfl⟩ := List.getElem?_eq_some_iff.mp hk
    rw [readAt_bufAddr (by rw [setEngine_engine_same]; rfl) (by omega), setEngine_engine_same, setEngine_epoch]
    have hread := bufRead_cellWrites_inside e s.epoch (s.engine e).msgbuf 0 out hlt
    rwa [Nat.zero_add] at hread
  · exact hb.symm
  · have hat := locate_standsAt a
    rw [hl] at hat
    obtain ⟨haddr, -⟩ := hat
    cases r with
    | status | outlenHi | outlenLo => exact absurd (by simp [haddr, EngReg.offset]) hregs
    | _ => rfl
  · rw [msgOpRunning_idle hb]
    rfl
  · have hat := locate_standsAt a
    rw [hl] at hat
    obtain ⟨haddr, -⟩ := hat
    exact bufRead_cellWrites_outside e s.epoch _ 0 out (.inr (by omega))
  all_goals
    rw [setEngine_engine_same]
    rfl

/-- The result of a message op of a legal length is as long as its padded message, and fits the buffer. -/
theorem length_result {d : Dir} {m : Nat} (hlen : lenCheck e d m = .none) (ep : Nat) (buf : List Host.Cell) (k : KeyT e) :
    (msgFn e d (bufBytes e ep buf 0 m) k).length = paddedLen e d m ∧
    (msgFn e d (bufBytes e ep buf 0 m) k).length ≤ 256 := by
  have hlength := length_bufBytes (e := e) (ep := ep) buf 0 m
  rw [length_msgFn d _ k (by rwa [hlength]), hlength]
  exact ⟨rfl, (paddedLen_legal hlen).2.1⟩

/-- From the host's side: an accepted message op turns the bytes that the host reads into the message function of them. -/
theorem msgCommand_finished {d : Dir} {n : Nat} (hinv : Inv s) (h : acceptable e .msg d s)
    (hn : msgOpSteps e (paddedLen e d (s.engine e).msglen.toNat / Config.blkBytes e) = n) :
    let m := (s.engine e).msglen.toNat
    let out := msgFn e d ((List.range m).map fun k => s.readAt (bufAddr e k))
      (normKey e (s.engine e).key (s.engine e).keylen)
    ∃ t u, exec (instrOf (.cipher e .msg d)) s = .next t ∧ steps n (scheduleEngine e n t) = .next u ∧
      out.length = paddedLen e d m ∧ MessageFinished e s u out := by
  intro m out
  obtain ⟨t, ht, hu⟩ := msgCommand_completes hinv h hn
  obtain ⟨hb, -, hlen⟩ := h
  have hlen : m ≤ 256 ∧ (d = .dec → m % Config.blkBytes e = 0) := hlen rfl
  obtain ⟨hout, hfit⟩ := length_result (lenCheck_none.mpr hlen) s.epoch (s.engine e).msgbuf
    (normKey e (s.engine e).key (s.engine e).keylen)
  have hmsg : out = msgFn e d (bufBytes e s.epoch (s.engine e).msgbuf 0 m)
      (normKey e (s.engine e).key (s.engine e).keylen) := by rw [← map_readAt_bufAddr hb hlen.1]
  have hdone : msgOpDone s.epoch d (s.engine e) = msgDoneWith (s.engine e) out := by
    rw [msgDoneWith, hmsg, hout]
    rfl
  rw [← hmsg] at hout hfit
  exact ⟨t, _, ht, hu, hout, hdone ▸ messageFinished_msgDoneWith hb hfit⟩

/-- The number of blocks of an encrypt (R163). -/
theorem blocks_enc (e : EngineId) (m : Nat) :
    paddedLen e .enc m / Config.blkBytes e = (m + (Config.blkBytes e - 1)) / Config.blkBytes e :=
  Nat.mul_div_cancel _ (blkBytes_pos e)

theorem msgOpSteps_aes (n : Nat) : msgOpSteps .aes n = 11 + 12 * n := congrArg (11 + ·) (Nat.mul_comm n 12)

theorem msgOpSteps_des (n : Nat) : msgOpSteps .des n = 17 + 18 * n := congrArg (17 + ·) (Nat.mul_comm n 18)

theorem msgOpSteps_present (n : Nat) : msgOpSteps .present n = 33 + 33 * n := congrArg (33 + ·) (Nat.mul_comm n 33)

/-- Settles O41: the two message ops of AES. -/
theorem aesMessageCommandsComplete : Obligations.AesMessageCommandsComplete := by
  intro s hinv hb hkeylen hm m message finished
  have hacc (d : Dir) (hd : d = .dec → m % 16 = 0) : acceptable .aes .msg d s := ⟨hb, fun _ => hkeylen, fun _ => ⟨hm, hd⟩⟩
  exact ⟨msgCommand_finished hinv (hacc .enc nofun) (by rw [msgOpSteps_aes, blocks_enc]; rfl),
    fun hwhole => msgCommand_finished hinv (hacc .dec fun _ => hwhole) (msgOpSteps_aes _)⟩

/-- Settles O42: the two message ops of DES. -/
theorem desMessageCommandsComplete : Obligations.DesMessageCommandsComplete := by
  intro s hinv hb hm m key message finished
  have hacc (d : Dir) (hd : d = .dec → m % 8 = 0) : acceptable .des .msg d s := ⟨hb, nofun, fun _ => ⟨hm, hd⟩⟩
  exact ⟨msgCommand_finished hinv (hacc .enc nofun) (by rw [msgOpSteps_des, blocks_enc]; rfl),
    fun hwhole => msgCommand_finished hinv (hacc .dec fun _ => hwhole) (msgOpSteps_des _)⟩

/-- Settles O43: the two message ops of PRESENT. -/
theorem presentMessageCommandsComplete : Obligations.PresentMessageCommandsComplete := by
  intro s hinv hb hm m key message finished
  have hacc (d : Dir) (hd : d = .dec → m % 8 = 0) : acceptable .present .msg d s := ⟨hb, nofun, fun _ => ⟨hm, hd⟩⟩
  exact ⟨msgCommand_finished hinv (hacc .enc nofun) (by rw [msgOpSteps_present, blocks_enc]; rfl),
    fun hwhole => msgCommand_finished hinv (hacc .dec fun _ => hwhole) (msgOpSteps_present _)⟩

/-! ### Completion within a bound -/

/-- A running engine's STATUS is BUSY alone. -/
theorem EngineInv.status_running {x : EngineOf e} (h : EngineInv x) (hf : x.fsm ≠ .idle) : x.status = statusAccepted := by
  have hbusy := h.busy_iff.mpr hf
  obtain ⟨hdone, herr, -⟩ := h.one_flag
  have hdone : x.status.done = false := by simpa [hbusy] using hdone
  have herr : x.status.err = false := by simpa [hbusy] using herr
  exact congr (congr (congr (congrArg Status.mk hbusy) hdone) herr) (h.err_code.mpr herr)

/-- A running engine has a step to take. -/
theorem EngineInv.remaining_pos {x : EngineOf e} (h : EngineInv x) (hf : x.fsm ≠ .idle) : 0 < remaining x := by
  obtain ⟨y, hy, -⟩ := engineInv_step (ep := 0) h
  rw [(EngineMove.of_step hy).remaining_eq h hf]
  exact Nat.succ_pos _

/-- Within the steps that remain, each step is taken and counts. -/
theorem engineSteps_remaining {ep : Nat} (j : Nat) :
    ∀ {x : EngineOf e}, EngineInv x → j ≤ remaining x →
      ∃ y, engineSteps ep j x = .ok y ∧ EngineInv y ∧ remaining x = j + remaining y := by
  induction j with
  | zero => exact fun {x} hinv _ => ⟨x, rfl, hinv, (Nat.zero_add _).symm⟩
  | succ j ih =>
    intro x hinv hj
    have hf : x.fsm ≠ .idle := fun hidle => by rw [remaining_idle hidle] at hj; omega
    obtain ⟨z, hz, hinvz⟩ := engineInv_step (ep := ep) hinv
    have hrem := (EngineMove.of_step hz).remaining_eq hinv hf
    obtain ⟨y, hy, hinvy, hremy⟩ := ih hinvz (by omega)
    exact ⟨y, (engineSteps_succ j hz).trans hy, hinvy, by omega⟩

/-- The step that leaves an engine idle sets DONE alone. -/
theorem status_completed {ep : Nat} {x y : EngineOf e} (h : EngineInv x) (hf : x.fsm ≠ .idle)
    (hstep : engineStep ep x = .ok y) (hy : EngineInv y) (hidle : y.fsm = .idle) : y.status = ⟨false, true, false, .none⟩ := by
  have hbusy : y.status.busy ≠ true := fun hb => hy.busy_iff.mp hb hidle
  rcases engineStep_results hstep with ⟨hsame, -⟩ | ⟨-, -, hdone, -⟩
  · rw [hsame, h.status_running hf] at hbusy
    exact absurd rfl hbusy
  · rw [hdone, h.status_running hf]
    rfl

/-- After the steps that remain the command has completed. -/
theorem engineSteps_complete {ep : Nat} {x : EngineOf e} (h : EngineInv x) (hf : x.fsm ≠ .idle) :
    ∃ y, engineSteps ep (remaining x) x = .ok y ∧ y.fsm = .idle ∧ y.status = ⟨false, true, false, .none⟩ := by
  obtain ⟨n, hn⟩ := Nat.exists_eq_succ_of_ne_zero (h.remaining_pos hf).ne'
  obtain ⟨z, hz, hinvz, hremz⟩ := engineSteps_remaining (ep := ep) n h (by omega)
  have hfz : z.fsm ≠ .idle := fun hidle => by rw [remaining_idle hidle] at hremz; omega
  obtain ⟨y, hy, hinvy⟩ := engineInv_step (ep := ep) hinvz
  have hremy := (EngineMove.of_step hy).remaining_eq hinvz hfz
  have hidle : y.fsm = .idle := by
    by_contra hrun
    have := hinvy.remaining_pos hrun
    omega
  refine ⟨y, ?_, hidle, status_completed hinvz hfz hy hinvy hidle⟩
  rw [hn, engineSteps_add 1 hz, engineSteps_one, hy]

/-- A command has at most the blocks of a full buffer (R168). -/
theorem nblk_le {x : EngineOf e} (h : EngineInv x) (hf : x.fsm ≠ .idle) (hc : countersOk x) :
    x.nblk.toNat ≤ 256 / Config.blkBytes e := by
  rw [Nat.le_div_iff_mul_le (blkBytes_pos e)]
  cases hm : latMode x with
  | blk =>
    rw [countersOk, hm] at hc
    rw [hc.2]
    cases e <;> decide
  | msg =>
    rw [countersOk, hm] at hc
    exact hc.1.trans_le (paddedLen_legal (h.msg_len hf hm)).2.1

/-- What follows the key schedule is at most a message op of a full buffer. -/
theorem stepsAfterKeys_le {x : EngineOf e} (h : EngineInv x) (hf : x.fsm ≠ .idle) :
    stepsAfterKeys x ≤ 1 + 256 / Config.blkBytes e * stepsPerBlock e := by
  unfold stepsAfterKeys
  split
  case h_1 =>
    have hone : 1 * stepsPerBlock e ≤ 256 / Config.blkBytes e * stepsPerBlock e :=
      Nat.mul_le_mul_right _ (by cases e <;> decide)
    omega
  case h_2 hm =>
    have hfit : latPadded x ≤ 256 := (paddedLen_legal (h.msg_len hf hm)).2.1
    exact Nat.add_le_add_left (Nat.mul_le_mul_right _ (Nat.div_le_div_right hfit)) 1

/-- The block in progress and those after it are at most the blocks of a full buffer. -/
theorem stepsOfBlocks_le {x : EngineOf e} (h : EngineInv x) (hf : x.fsm ≠ .idle) (hc : countersOk x) :
    stepsPerBlock e + (x.nblk.toNat - (x.j.toNat + 1)) * stepsPerBlock e ≤
      256 / Config.blkBytes e * stepsPerBlock e := by
  have hj := j_lt_nblk hc
  rw [Nat.add_comm, ← Nat.succ_mul]
  exact Nat.mul_le_mul_right _ (le_trans (by omega) (nblk_le h hf hc))

/-- No command has more steps to take than a message op of a full buffer (R178). -/
theorem remaining_le {x : EngineOf e} (h : EngineInv x) (hf : x.fsm ≠ .idle) :
    remaining x ≤ msgOpSteps e (256 / Config.blkBytes e) := by
  have hkeys := stepsAfterKeys_le h hf
  have hbound : msgOpSteps e (256 / Config.blkBytes e) =
      Config.nks e + (1 + 256 / Config.blkBytes e * stepsPerBlock e) := Nat.add_assoc ..
  have hlegal := h.fsm_legal
  unfold fsmLegal at hlegal
  unfold remaining
  rw [hbound]
  cases hx : x.fsm with
  | idle => exact absurd hx hf
  | ks i =>
    rw [hx] at hlegal
    dsimp only at hlegal ⊢
    omega
  | msginit =>
    dsimp only
    omega
  | load =>
    have hc := h.counters (by rw [hx]; trivial)
    have hj := j_lt_nblk hc
    have hblocks := stepsOfBlocks_le h hf hc
    dsimp only
    rw [show x.nblk.toNat - x.j.toNat = x.nblk.toNat - (x.j.toNat + 1) + 1 by omega, Nat.succ_mul]
    omega
  | rnd i =>
    have hblocks := stepsOfBlocks_le h hf (h.counters (by rw [hx]; trivial))
    have hrounds : roundsFrom (rounds e (latDir x)) i ≤ (rounds e .enc).length :=
      (Nat.sub_le _ _).trans_eq (rounds_length e _)
    dsimp only
    unfold stepsPerBlock at *
    omega
  | store =>
    have hblocks := stepsOfBlocks_le h hf (h.counters (by rw [hx]; trivial))
    dsimp only
    unfold stepsPerBlock at *
    omega

/-- Settles O47: the bound is `remaining`, the number of steps that the command has still to take. -/
theorem runningCommandCompletesWithinBound : Obligations.RunningCommandCompletesWithinBound := by
  intro s e hinv hf
  have hx := hinv.engines e
  obtain ⟨y, hy, hidle, hstatus⟩ := engineSteps_complete (ep := s.epoch) hx hf
  refine ⟨remaining (s.engine e), hx.remaining_pos hf, remaining_le hx hf,
    ⟨_, steps_scheduleEngine _ hy, by rwa [setEngine_engine_same], by rwa [setEngine_engine_same]⟩, fun j hj => ?_⟩
  obtain ⟨z, hz, hinvz, hremz⟩ := engineSteps_remaining (ep := s.epoch) j hx hj.le
  have hrun : z.fsm ≠ .idle := fun h => by rw [remaining_idle h] at hremz; omega
  exact ⟨_, steps_scheduleEngine _ hz, by rw [setEngine_engine_same]; exact hinvz.busy_iff.mpr hrun⟩

end Sys2Proof.Machine
end

section
/-! A message block by block and in pieces of whole blocks (spec/40_common.md R179, R183, R186). -/

namespace Sys2Proof.Machine

variable {e : EngineId}

/-! ### Blocks of two messages after one another -/

theorem byteAt_append_left {xs : List Byte} (ys : List Byte) {i : Nat} (h : i < xs.length) :
    byteAt (xs ++ ys) i = byteAt xs i := List.getD_append xs ys 0 i h

theorem byteAt_append_right (xs ys : List Byte) (i : Nat) : byteAt (xs ++ ys) (xs.length + i) = byteAt ys i := by
  rw [byteAt, List.getD_append_right _ _ _ _ (Nat.le_add_right ..), Nat.add_sub_cancel_left, byteAt]

/-- The blocks of a message of whole blocks, and then those of what follows it. -/
theorem mapBlocks_append (f : Vector Byte (Config.blkBytes e) → Vector Byte (Config.blkBytes e)) {xs : List Byte} {m : Nat}
    (hx : xs.length = m * Config.blkBytes e) (ys : List Byte) (n : Nat) :
    mapBlocks e f (xs ++ ys) (m + n) = mapBlocks e f xs m ++ mapBlocks e f ys n := by
  have hleft (j : Nat) (hj : j < m) : bytesAt (Config.blkBytes e) (xs ++ ys) (j * Config.blkBytes e) =
      bytesAt (Config.blkBytes e) xs (j * Config.blkBytes e) := by
    have hle : j * Config.blkBytes e + Config.blkBytes e ≤ xs.length := by
      rw [hx, ← Nat.succ_mul]
      exact Nat.mul_le_mul_right _ hj
    refine Vector.ext fun i hi => ?_
    rw [getElem_bytesAt, getElem_bytesAt, byteAt_append_left ys (by omega)]
  have hright (j : Nat) : bytesAt (Config.blkBytes e) (xs ++ ys) ((m + j) * Config.blkBytes e) =
      bytesAt (Config.blkBytes e) ys (j * Config.blkBytes e) := by
    refine Vector.ext fun i hi => ?_
    rw [getElem_bytesAt, getElem_bytesAt, Nat.add_mul, ← hx, Nat.add_assoc, byteAt_append_right]
  rw [mapBlocks, List.range_add, List.flatMap_append, List.flatMap_map]
  simp only [hright]
  refine congrArg (· ++ _) (List.flatMap_congr fun j hj => ?_)
  rw [hleft j (List.mem_range.mp hj)]

/-- One block alone. -/
theorem mapBlocks_one (f : Vector Byte (Config.blkBytes e) → Vector Byte (Config.blkBytes e))
    (b : Vector Byte (Config.blkBytes e)) : mapBlocks e f b.toList 1 = (f b).toList := by
  have hb : bytesAt (Config.blkBytes e) b.toList (0 * Config.blkBytes e) = b := by
    refine Vector.ext fun i hi => ?_
    rw [getElem_bytesAt, Nat.zero_mul, Nat.zero_add, byteAt_eq_dite, dif_pos (by rwa [Vector.length_toList]),
      Vector.getElem_toList]
  simp only [mapBlocks, List.range_one, List.flatMap_singleton, hb]

/-! ### The message functions on whole blocks -/

/-- The padding of a message does not depend on whole blocks before it. -/
theorem paddedLen_enc_add {m : Nat} (hm : Config.blkBytes e ∣ m) (n : Nat) :
    paddedLen e .enc (m + n) = m + paddedLen e .enc n := by
  obtain ⟨c, rfl⟩ := hm
  simp only [paddedLen]
  rw [Nat.add_assoc, Nat.mul_add_div (blkBytes_pos e), Nat.add_mul, Nat.mul_comm c]

/-- Whole blocks need no padding. -/
theorem paddedLen_whole {m : Nat} (hm : Config.blkBytes e ∣ m) (d : Dir) : paddedLen e d m = m := by
  cases d with
  | enc => exact (paddedLen_enc_add hm 0).trans (by rw [paddedLen_zero, Nat.add_zero])
  | dec => rfl

/-- A message function on whole blocks and what follows them (R183). -/
theorem msgFn_append (d : Dir) (k : KeyT e) {xs : List Byte} (hx : Config.blkBytes e ∣ xs.length) (ys : List Byte) :
    msgFn e d (xs ++ ys) k = msgFn e d xs k ++ msgFn e d ys k := by
  have hblocks : xs.length = xs.length / Config.blkBytes e * Config.blkBytes e := (Nat.div_mul_cancel hx).symm
  cases d with
  | dec =>
    rw [msgFn, msgFn, msgFn, msgDec, List.length_append, Nat.add_div_of_dvd_right hx, mapBlocks_append _ hblocks, msgDec,
      msgDec]
  | enc =>
    rw [msgFn, msgFn, msgFn, msgEnc, List.length_append, paddedLen_enc_add hx, Nat.add_div_of_dvd_right hx,
      Nat.add_sub_add_left, List.append_assoc, mapBlocks_append _ hblocks, msgEnc, paddedLen_whole hx, Nat.sub_self,
      List.replicate_zero, List.append_nil, msgEnc]

theorem msgFn_nil (d : Dir) (k : KeyT e) : msgFn e d [] k = [] := by
  cases d with
  | enc => simp [msgFn, msgEnc, paddedLen_zero, mapBlocks]
  | dec => simp [msgFn, msgDec, mapBlocks]

/-- A message function on one block is the block function. -/
theorem msgFn_block (d : Dir) (k : KeyT e) (b : Vector Byte (Config.blkBytes e)) :
    msgFn e d b.toList k = (blockFn e d b k).toList := by
  have hone : Config.blkBytes e / Config.blkBytes e = 1 := Nat.div_self (blkBytes_pos e)
  cases d with
  | dec => rw [msgFn, msgDec, Vector.length_toList, hone, mapBlocks_one, blockFn]
  | enc =>
    rw [msgFn, msgEnc, Vector.length_toList, paddedLen_whole dvd_rfl, Nat.sub_self, List.replicate_zero, List.append_nil,
      hone, mapBlocks_one, blockFn]

/-- A message function works on each block on its own (R179, R183). -/
theorem msgFn_blocks (d : Dir) (k : KeyT e) (blocks : List (Vector Byte (Config.blkBytes e))) :
    msgFn e d (blocks.flatMap fun b => b.toList) k = blocks.flatMap fun b => (blockFn e d b k).toList := by
  induction blocks with
  | nil => exact msgFn_nil d k
  | cons b blocks ih =>
    rw [List.flatMap_cons, List.flatMap_cons, msgFn_append d k (by rw [Vector.length_toList]), msgFn_block, ih]

/-! ### Pieces -/

theorem pieces_nil (n : Nat) (hn : 0 < n) : pieces n [] = [] := by
  rw [pieces, List.length_nil, Nat.zero_add, Nat.div_eq_of_lt (by omega)]
  rfl

/-- A message is its first piece and the pieces of the rest. -/
theorem pieces_cons {n : Nat} (hn : 0 < n) {m : List Byte} (hm : m ≠ []) :
    pieces n m = m.take n :: pieces n (m.drop n) := by
  have hpos : 0 < m.length := List.length_pos_of_ne_nil hm
  have hcount : (m.length + (n - 1)) / n = ((m.drop n).length + (n - 1)) / n + 1 := by
    rw [List.length_drop]
    rcases Nat.lt_or_ge m.length n with hlt | hge
    · rw [show m.length + (n - 1) = m.length - 1 + n by omega, Nat.add_div_right _ hn, Nat.div_eq_of_lt (by omega),
        Nat.div_eq_of_lt (by omega)]
    · rw [show m.length + (n - 1) = m.length - n + (n - 1) + n by omega, Nat.add_div_right _ hn]
  rw [pieces, hcount, List.range_succ_eq_map, List.map_cons, List.map_map, Nat.mul_zero, List.drop_zero, pieces]
  congr 1
  refine List.map_congr_left fun j _ => ?_
  rw [Function.comp_apply, Nat.mul_succ, Nat.add_comm, List.drop_drop]

/-- A claim about messages holds when it holds of the empty one and passes from what follows a piece to the whole. -/
theorem pieces_induction {n : Nat} (hn : 0 < n) {P : List Byte → Prop} (nil : P [])
    (piece : ∀ m, m ≠ [] → P (m.drop n) → P m) (m : List Byte) : P m := by
  induction h : m.length using Nat.strong_induction_on generalizing m with
  | _ len ih =>
    by_cases hm : m = []
    · exact hm ▸ nil
    · have hpos := List.length_pos_of_ne_nil hm
      exact piece m hm (ih _ (by rw [List.length_drop]; omega) _ rfl)

theorem flatten_pieces {n : Nat} (hn : 0 < n) (m : List Byte) : (pieces n m).flatten = m := by
  induction m using pieces_induction hn with
  | nil => rw [pieces_nil n hn, List.flatten_nil]
  | piece m hm ih => rw [pieces_cons hn hm, List.flatten_cons, ih, List.take_append_drop]

theorem mem_pieces {n : Nat} (hn : 0 < n) (m : List Byte) : ∀ p ∈ pieces n m, p ≠ [] ∧ p.length ≤ n := by
  induction m using pieces_induction hn with
  | nil => simp [pieces_nil n hn]
  | piece m hm ih =>
    rw [pieces_cons hn hm, List.forall_mem_cons]
    exact ⟨⟨by simp [hm, hn.ne'], List.length_take_le ..⟩, ih⟩

/-- Pieces of whole blocks give what the message function gives for the whole message (R186). -/
theorem msgInPieces_eq (d : Dir) (k : KeyT e) {n : Nat} (hn : 0 < n) (hB : Config.blkBytes e ∣ n) (m : List Byte) :
    msgInPieces e d n m k = msgFn e d m k := by
  induction m using pieces_induction hn with
  | nil => rw [msgInPieces, pieces_nil n hn, List.flatMap_nil, msgFn_nil]
  | piece m hm ih =>
    rw [msgInPieces] at ih ⊢
    rw [pieces_cons hn hm, List.flatMap_cons, ih]
    rcases Nat.lt_or_ge m.length n with hlt | hge
    · rw [List.take_of_length_le hlt.le, List.drop_of_length_le hlt.le, msgFn_nil, List.append_nil]
    · rw [← msgFn_append d k (by rwa [List.length_take_of_le hge]), List.take_append_drop]

/-- Settles O59: by induction on the blocks, and on the pieces. -/
theorem blocksAreIndependent : Obligations.BlocksAreIndependent :=
  ⟨fun _ k blocks => msgFn_blocks .enc k blocks, fun _ k blocks => msgFn_blocks .dec k blocks,
    fun _ k d _ m hn hB _ => msgInPieces_eq d k hn hB m, fun _ m hn => ⟨flatten_pieces hn m, mem_pieces hn m⟩⟩

end Sys2Proof.Machine
end

section
/-! The laws of the conversion utility (spec/40_common.md R150 to R158). -/

namespace Sys2Proof.Machine

/-! ### Bit sequences and integers -/

/-- The integer of a bit sequence is the value of the bit vector with the same elements. -/
theorem bitsToInteger_eq_toNat (b : List Bool) : bitsToInteger b = (BitVec.ofBoolListBE b).toNat := by
  have hfold (b : List Bool) : ∀ acc : Nat, b.foldl (fun acc x => 2 * acc + x.toNat) acc =
      acc * 2 ^ b.length + (BitVec.ofBoolListBE b).toNat := by
    induction b with
    | nil => intro acc; simp [BitVec.ofBoolListBE]
    | cons x b ih =>
      intro acc
      rw [List.foldl_cons, ih, BitVec.ofBoolListBE, BitVec.toNat_cons', Nat.shiftLeft_eq, List.length_cons, Nat.pow_succ']
      ring
  rw [bitsToInteger, hfold, Nat.zero_mul, Nat.zero_add]

/-- Element i of a sequence is bit len-1-i of its integer (R156). -/
theorem testBit_bitsToInteger (b : List Bool) (k : Nat) :
    (bitsToInteger b).testBit k = (decide (k < b.length) && b.getD (b.length - 1 - k) false) := by
  rw [bitsToInteger_eq_toNat]
  exact BitVec.getLsbD_ofBoolListBE

/-- R156 as the sum that it writes. -/
theorem bitsToInteger_eq_sum (b : List Bool) :
    bitsToInteger b = ∑ i : Fin b.length, (b[i]).toNat * 2 ^ (b.length - 1 - i.val) := by
  rw [bitsToInteger_eq_toNat]
  induction b with
  | nil => rfl
  | cons x b ih =>
    rw [BitVec.ofBoolListBE, BitVec.toNat_cons', Nat.shiftLeft_eq, ih]
    refine Eq.trans ?_ (Fin.sum_univ_succ _).symm
    congr 1
    refine Finset.sum_congr rfl fun i _ => ?_
    congr 2
    rw [Fin.val_succ, List.length_cons]
    omega

/-- `IntegerToBits` of a value that fits. -/
def bitsOfInteger (v len : Nat) : List Bool := (List.range len).map fun i => v.testBit (len - 1 - i)

theorem length_bitsOfInteger (v len : Nat) : (bitsOfInteger v len).length = len := by
  rw [bitsOfInteger, List.length_map, List.length_range]

theorem getD_bitsOfInteger (v : Nat) {len i : Nat} (h : i < len) :
    (bitsOfInteger v len).getD i false = v.testBit (len - 1 - i) := by
  rw [bitsOfInteger, List.getD_eq_getElem?_getD, List.getElem?_map, List.getElem?_range h]
  rfl

/-- R157 undone by R156. -/
theorem bitsToInteger_bitsOfInteger {v len : Nat} (h : v < 2 ^ len) : bitsToInteger (bitsOfInteger v len) = v := by
  refine Nat.eq_of_testBit_eq fun k => ?_
  rw [testBit_bitsToInteger, length_bitsOfInteger]
  rcases Nat.lt_or_ge k len with hlt | hge
  · rw [decide_eq_true hlt, Bool.true_and, getD_bitsOfInteger v (by omega), show len - 1 - (len - 1 - k) = k by omega]
  · rw [decide_eq_false hge.not_gt, Bool.false_and]
    exact (Nat.testBit_lt_two_pow (h.trans_le (Nat.pow_le_pow_right (by decide) hge))).symm

theorem bitsToInteger_lt (b : List Bool) : bitsToInteger b < 2 ^ b.length := by
  rw [bitsToInteger_eq_toNat]
  exact BitVec.isLt _

/-- R156 undone by R157. -/
theorem bitsOfInteger_bitsToInteger (b : List Bool) : bitsOfInteger (bitsToInteger b) b.length = b := by
  refine List.ext_getElem (length_bitsOfInteger ..) fun i _ hi => ?_
  rw [← List.getD_eq_getElem _ false, getD_bitsOfInteger _ hi, testBit_bitsToInteger, decide_eq_true (by omega),
    Bool.true_and, show b.length - 1 - (b.length - 1 - i) = i by omega, List.getD_eq_getElem _ _ hi]

/-! ### Bit sequences and bytes -/

/-- The bits of a byte are those of its value. -/
theorem byteBits_eq_bitsOfInteger (b : Byte) : byteBits b = bitsOfInteger b.toNat 8 := rfl

theorem length_byteBits (b : Byte) : (byteBits b).length = 8 := by
  rw [byteBits_eq_bitsOfInteger, length_bitsOfInteger]

theorem ofNat_bitsToInteger_byteBits (b : Byte) : BitVec.ofNat 8 (bitsToInteger (byteBits b)) = b := by
  rw [byteBits_eq_bitsOfInteger, bitsToInteger_bitsOfInteger b.isLt, BitVec.ofNat_toNat, BitVec.setWidth_eq]

theorem byteBits_ofNat_bitsToInteger {b : List Bool} (h : b.length = 8) :
    byteBits (BitVec.ofNat 8 (bitsToInteger b)) = b := by
  have hlt : bitsToInteger b < 2 ^ 8 := h ▸ bitsToInteger_lt b
  rw [byteBits_eq_bitsOfInteger, BitVec.toNat_ofNat, Nat.mod_eq_of_lt hlt, ← h, bitsOfInteger_bitsToInteger]

theorem bytesToBitList_cons (x : Byte) (b : List Byte) : bytesToBitList (x :: b) = byteBits x ++ bytesToBitList b :=
  List.flatMap_cons

/-- Eight bits are one byte, and then come the bytes of the rest (R158). -/
theorem bitListToBytes_append {b : List Bool} (h : b.length = 8) (rest : List Bool) :
    bitListToBytes (b ++ rest) = BitVec.ofNat 8 (bitsToInteger b) :: bitListToBytes rest := by
  rw [bitListToBytes, List.length_append, h, Nat.add_comm, Nat.add_div_right _ (by decide), List.range_succ_eq_map,
    List.map_cons, List.map_map, Nat.mul_zero, List.drop_zero, List.take_left' h, bitListToBytes]
  congr 1
  refine List.map_congr_left fun k _ => ?_
  rw [Function.comp_apply, Nat.mul_succ, Nat.add_comm, ← List.drop_drop, List.drop_left' h]

/-- R150 undone by R158. -/
theorem bitListToBytes_bytesToBitList (b : List Byte) : bitListToBytes (bytesToBitList b) = b := by
  induction b with
  | nil => rfl
  | cons x b ih =>
    rw [bytesToBitList_cons,
      bitListToBytes_append (length_byteBits x), ofNat_bitsToInteger_byteBits, ih]

/-- R158 undone by R150, on whole bytes. -/
theorem bytesToBitList_bitListToBytes (n : Nat) :
    ∀ b : List Bool, b.length = 8 * n → bytesToBitList (bitListToBytes b) = b := by
  induction n with
  | zero =>
    intro b h
    rw [List.eq_nil_of_length_eq_zero h]
    rfl
  | succ n ih =>
    intro b h
    have hbyte : (b.take 8).length = 8 := List.length_take_of_le (by omega)
    have hbytes := bitListToBytes_append hbyte (b.drop 8)
    rw [List.take_append_drop] at hbytes
    rw [hbytes, bytesToBitList_cons,
      byteBits_ofNat_bitsToInteger hbyte, ih _ (by rw [List.length_drop]; omega), List.take_append_drop]

theorem length_bytesToBitList (b : List Byte) : (bytesToBitList b).length = 8 * b.length := by
  induction b with
  | nil => rfl
  | cons x b ih =>
    rw [bytesToBitList_cons, List.length_append, length_byteBits, ih,
      List.length_cons]
    omega

/-! ### The obligation -/

theorem getElem?_xorBits {a b : List Bool} {i : Nat} (ha : i < a.length) (hb : i < b.length) :
    (xorBits a b)[i]? = some (xor (a.getD i false) (b.getD i false)) := by
  rw [xorBits, List.getElem?_zipWith, List.getElem?_eq_getElem ha, List.getElem?_eq_getElem hb,
    List.getD_eq_getElem _ _ ha, List.getD_eq_getElem _ _ hb]

theorem rotateLeftSeq_ok {α : Type} (s : List α) (n : Nat) : rotateLeftSeq s n = .ok (s.rotate n) :=
  if_pos (Int.natCast_nonneg n)

theorem stringToBits_ok {t : List Nat} (h : ∀ c ∈ t, c ≤ 255) :
    stringToBits t = .ok (bytesToBitList (t.map (BitVec.ofNat 8))) := by
  rw [stringToBits, stringToBytes_ok h, Except.map]

/-- Settles O60: each law and each refusal by its own lemma. -/
theorem conversionUtilityLaws : Obligations.ConversionUtilityLaws := by
  refine ⟨fun a b i => getElem?_xorBits, fun a b => List.length_zipWith,
    fun s n => ⟨_, rotateLeftSeq_ok s n, List.length_rotate .., fun i hi => List.getElem?_rotate hi⟩,
    fun s n hn => if_neg hn.not_ge, bitsToInteger_eq_sum,
    fun v len hv => ⟨bitsOfInteger v len, if_pos hv, length_bitsOfInteger v len, bitsToInteger_bitsOfInteger hv⟩,
    fun v len hv => if_neg hv.not_gt, bitListToBytes_bytesToBitList,
    fun b hb => bytesToBitList_bitListToBytes (b.length / 8) b (by omega), fun t ht => ⟨stringToBytes_refused ht, ?_⟩,
    fun t ht => ⟨stringToBytes_ok ht, stringToBits_ok ht⟩⟩
  rw [stringToBits, stringToBytes_refused ht, Except.map]

end Sys2Proof.Machine
end

section
/-! Rounds undone by their inverses in the reverse order, and bytes and bits in both directions. -/

namespace Sys2Proof.Machine

/-- Steps undone one by one, last one first: each undoing step `g` works on the image under `φ` of what its step left. -/
theorem foldl_reverse_undo {α β ι : Type} (φ : α → β) (f : α → ι → α) (g : β → ι → β) (l : List ι)
    (h : ∀ s, ∀ i ∈ l, g (φ (f s i)) i = φ s) : ∀ s, l.reverse.foldl g (φ (l.foldl f s)) = φ s := by
  induction l with
  | nil => exact fun _ => rfl
  | cons i l ih =>
    intro s
    have htail := ih (fun s j hj => h s j (List.mem_cons_of_mem _ hj)) (f s i)
    rw [List.reverse_cons, List.foldl_append, List.foldl_cons (f := f), htail]
    exact h s i List.mem_cons_self

/-- R158 undone by R150, on a fixed number of bytes. -/
theorem bytesToBits_bitsToBytes {n : Nat} (b : BitVec (8 * n)) : bytesToBits (bitsToBytes n b) = b := by
  refine BitVec.eq_of_getMsbD_eq fun i hi => ?_
  have hbyte : i / 8 < n := by omega
  rw [show i = 8 * (i / 8) + i % 8 by omega, getMsbD_bytesToBits _ hbyte (by omega), bitsToBytes, Vector.getElem_ofFn]
  have hbit := getMsbD_slice b (i := 8 * (i / 8)) (len := 8) (k := i % 8) (by omega) (by omega)
  rwa [BitVec.getMsbD_eq_getLsbD, decide_eq_true (by omega), Bool.true_and] at hbit

/-- R150 undone by R158, on a fixed number of bytes. -/
theorem bitsToBytes_bytesToBits {n : Nat} (b : Vector Byte n) : bitsToBytes n (bytesToBits b) = b := by
  refine Vector.ext fun i hi => ?_
  rw [bitsToBytes, Vector.getElem_ofFn, slice_bytesToBits b hi]

end Sys2Proof.Machine
end

section
/-! The AES decrypt undoes the encrypt (spec/41_aes.md R208 to R215, R236, R237). -/

namespace Sys2Proof.Machine

/-! ### Matrices by their entries -/

@[simp] theorem Matrix.get_ofFn (f : Fin 4 → Fin 4 → Byte) (r c : Fin 4) : Matrix.get (Matrix.ofFn f) r c = f r c := by
  simp [Matrix.get, Matrix.ofFn]

theorem Matrix.ext_get {s t : Matrix} (h : ∀ r c, Matrix.get s r c = Matrix.get t r c) : s = t :=
  Vector.ext fun r hr => Vector.ext fun c hc => h ⟨r, hr⟩ ⟨c, hc⟩

theorem fromState_toState (blk : Vector Byte 16) : fromState (toState blk) = blk := by
  refine Vector.ext fun n hn => ?_
  rw [fromState, Vector.getElem_ofFn, toState, Matrix.get_ofFn]
  exact getElem_congr_idx (Nat.mod_add_div n 4)

theorem toState_fromState (s : Matrix) : toState (fromState s) = s := by
  refine Matrix.ext_get fun r c => ?_
  rw [toState, Matrix.get_ofFn, fromState, Vector.getElem_ofFn]
  congr 1 <;> refine Fin.ext ?_
  · show (r.val + 4 * c.val) % 4 = r.val
    omega
  · show (r.val + 4 * c.val) / 4 = c.val
    omega

/-! ### The round functions -/

theorem addRoundKey_addRoundKey (s k : Matrix) : addRoundKey (addRoundKey s k) k = s := by
  refine Matrix.ext_get fun r c => ?_
  simp only [addRoundKey, Matrix.get_ofFn]
  rw [BitVec.xor_assoc, BitVec.xor_self, BitVec.xor_zero]

/-- The tables of R200 and R201 are inverse. -/
theorem invSbox_sbox : ∀ x : Byte, invSbox (sbox x) = x := by decide +kernel

theorem invSubBytes_subBytes (s : Matrix) : invSubBytes (subBytes s) = s := by
  refine Matrix.ext_get fun r c => ?_
  simp only [invSubBytes, subBytes, Matrix.get_ofFn, invSbox_sbox]

theorem invShiftRows_shiftRows (s : Matrix) : invShiftRows (shiftRows s) = s := by
  refine Matrix.ext_get fun r c => ?_
  simp only [invShiftRows, shiftRows, Matrix.get_ofFn, sub_add_cancel]

/-! ### The column mixing -/

/-- The loop of R204 is linear in its second operand. -/
theorem gfmulLoop_xor (n : Nat) : ∀ p q a x y : Byte,
    gfmulLoop n (p ^^^ q) a (x ^^^ y) = gfmulLoop n p a x ^^^ gfmulLoop n q a y := by
  induction n with
  | zero => exact fun _ _ _ _ _ => rfl
  | succ n ih =>
    intro p q a x y
    have hprod : (if (x ^^^ y).getLsbD 0 then (p ^^^ q) ^^^ a else p ^^^ q) =
        (if x.getLsbD 0 then p ^^^ a else p) ^^^ (if y.getLsbD 0 then q ^^^ a else q) := by
      rw [BitVec.getLsbD_xor]
      cases x.getLsbD 0 <;> cases y.getLsbD 0
      · rfl
      · exact BitVec.xor_assoc p q a
      · show (p ^^^ q) ^^^ a = (p ^^^ a) ^^^ q
        rw [BitVec.xor_assoc, BitVec.xor_assoc, BitVec.xor_comm q a]
      · show p ^^^ q = (p ^^^ a) ^^^ (q ^^^ a)
        rw [BitVec.xor_comm q a, BitVec.xor_assoc, ← BitVec.xor_assoc a a q, BitVec.xor_self, BitVec.zero_xor]
    rw [gfmulLoop, hprod, BitVec.ushiftRight_xor_distrib, ih, gfmulLoop, gfmulLoop]

theorem gfmul_xor (a x y : Byte) : gfmul a (x ^^^ y) = gfmul a x ^^^ gfmul a y := gfmulLoop_xor 8 0 0 a x y

/-- Row `a` of a coefficient matrix times a column (R212, R213). -/
def mixEntry (a : Fin 4 → Byte) (x : Fin 4 → Byte) : Byte :=
  gfmul (a 0) (x 0) ^^^ gfmul (a 1) (x 1) ^^^ gfmul (a 2) (x 2) ^^^ gfmul (a 3) (x 3)

theorem get_mixWith (m s : Matrix) (r c : Fin 4) :
    Matrix.get (mixWith m s) r c = mixEntry (Matrix.get m r) fun i => Matrix.get s i c := by
  rw [mixWith, Matrix.get_ofFn, mixEntry]

/-- A column that is a sum of columns with one entry each. -/
theorem mixEntry_mixEntry (a : Fin 4 → Byte) (m : Fin 4 → Fin 4 → Byte) (x : Fin 4 → Byte) :
    mixEntry a (fun i => mixEntry (m i) x) =
      mixEntry a (fun i => gfmul (m i 0) (x 0)) ^^^ mixEntry a (fun i => gfmul (m i 1) (x 1)) ^^^
        mixEntry a (fun i => gfmul (m i 2) (x 2)) ^^^ mixEntry a (fun i => gfmul (m i 3) (x 3)) := by
  simp only [mixEntry, gfmul_xor]
  ac_rfl

/-- The byte with the given bits. -/
def sumOfBits (l : List Nat) : Byte := l.foldr (fun i x => BitVec.twoPow 8 i ^^^ x) 0

theorem eq_sumOfBits : ∀ x : Byte, x = sumOfBits ((List.range 8).filter x.getLsbD) := by decide +kernel

/-- A linear function on bytes. -/
def IsLinear (f : Byte → Byte) : Prop := ∀ x y, f (x ^^^ y) = f x ^^^ f y

theorem IsLinear.map_zero {f : Byte → Byte} (hf : IsLinear f) : f 0 = 0 := by
  have h := hf 0 0
  rwa [BitVec.xor_self, BitVec.xor_self] at h

/-- Linear functions that agree on the single bits agree. -/
theorem IsLinear.ext {f g : Byte → Byte} (hf : IsLinear f) (hg : IsLinear g)
    (h : ∀ i < 8, f (BitVec.twoPow 8 i) = g (BitVec.twoPow 8 i)) (x : Byte) : f x = g x := by
  have hsum (l : List Nat) (hl : ∀ i ∈ l, i < 8) : f (sumOfBits l) = g (sumOfBits l) := by
    induction l with
    | nil => exact hf.map_zero.trans hg.map_zero.symm
    | cons i l ih =>
      have hi : i < 8 := hl i List.mem_cons_self
      rw [sumOfBits, List.foldr_cons, hf, hg, h i hi]
      exact congrArg _ (ih fun j hj => hl j (List.mem_cons_of_mem _ hj))
  rw [eq_sumOfBits x]
  exact hsum _ fun i hi => List.mem_range.mp (List.mem_filter.mp hi).1

theorem isLinear_mixEntry (a m : Fin 4 → Byte) : IsLinear fun x => mixEntry a fun i => gfmul (m i) x := by
  intro x y
  simp only [mixEntry, gfmul_xor]
  ac_rfl

theorem isLinear_ite (p : Prop) [Decidable p] : IsLinear fun x => if p then x else 0 := by
  intro x y
  by_cases hp : p <;> simp [hp]

/-- The coefficients IM of R213 are inverse to M of R212, entry by entry. -/
theorem invMixCoeff_mixCoeff (r c : Fin 4) (x : Byte) :
    mixEntry (Matrix.get invMixCoeff r) (fun i => gfmul (Matrix.get mixCoeff i c) x) = if r = c then x else 0 := by
  refine IsLinear.ext (isLinear_mixEntry _ _) (isLinear_ite _) ?_ x
  revert r c
  decide +kernel

theorem invMixColumns_mixColumns (s : Matrix) : invMixColumns (mixColumns s) = s := by
  refine Matrix.ext_get fun r c => ?_
  simp only [invMixColumns, mixColumns, get_mixWith, mixEntry_mixEntry, invMixCoeff_mixCoeff]
  have hr : r = 0 ∨ r = 1 ∨ r = 2 ∨ r = 3 := by omega
  rcases hr with rfl | rfl | rfl | rfl <;> simp

/-! ### The block functions -/

theorem blockDecAes_blockEncAes (blk k : Vector Byte 16) : blockDecAes (blockEncAes blk k) k = blk := by
  let rk := keyExpand k
  have hround (s : Matrix) (r : Nat) : invMixColumns (addRoundKey (invSubBytes (invShiftRows
      (shiftRows (subBytes (addRoundKey (mixColumns (shiftRows (subBytes s))) (rkAt rk r)))))) (rkAt rk r)) =
        shiftRows (subBytes s) := by
    rw [invShiftRows_shiftRows, invSubBytes_subBytes, addRoundKey_addRoundKey, invMixColumns_mixColumns]
  have hrounds := foldl_reverse_undo (fun s => shiftRows (subBytes s))
    (fun s r => addRoundKey (mixColumns (shiftRows (subBytes s))) (rkAt rk r))
    (fun s r => invMixColumns (addRoundKey (invSubBytes (invShiftRows s)) (rkAt rk r))) (List.range' 1 9)
    (fun s r _ => hround s r)
  rw [blockDecAes, blockEncAes]
  simp only [toState_fromState, addRoundKey_addRoundKey]
  rw [hrounds, invShiftRows_shiftRows, invSubBytes_subBytes, addRoundKey_addRoundKey, fromState_toState]

end Sys2Proof.Machine
end

section
/-! The DES decrypt undoes the encrypt (spec/42_des.md R264, R265, R292, R296, R297). -/

namespace Sys2Proof.Machine

/-! ### Permutations and slices -/

/-- Element k of a permutation, by the entry of its table. -/
theorem getMsbD_perm_getD {n m : Nat} (b : BitVec n) {t : List Nat} (ht : t.length = m) {k : Nat} (hk : k < m) :
    (perm m b t).getMsbD k = b.getMsbD (t.getD k 0 - 1) := by
  subst ht
  rw [getMsbD_perm b t hk, List.getD_eq_getElem _ _ hk]

/-- A permutation undone by one whose table leads back to each element. -/
theorem perm_perm {n : Nat} {t u : List Nat} (ht : t.length = n) (hu : u.length = n)
    (h : ∀ k < n, u.getD k 0 - 1 < n ∧ t.getD (u.getD k 0 - 1) 0 - 1 = k) (b : BitVec n) : perm n (perm n b t) u = b := by
  refine BitVec.eq_of_getMsbD_eq fun k hk => ?_
  obtain ⟨hlt, hback⟩ := h k hk
  rw [getMsbD_perm_getD _ hu hk, getMsbD_perm_getD _ ht hlt, hback]

/-- FP undoes IP (R265). -/
theorem perm_ip_fp (b : BitVec 64) : perm 64 (perm 64 b ipTable) fpTable = b :=
  perm_perm (t := ipTable) (u := fpTable) rfl rfl (by decide) b

/-- IP undoes FP. -/
theorem perm_fp_ip (b : BitVec 64) : perm 64 (perm 64 b fpTable) ipTable = b :=
  perm_perm (t := fpTable) (u := ipTable) rfl rfl (by decide) b

theorem slice_append_left (a b : BitVec 32) : slice (a ++ b) 0 32 = a := BitVec.extractLsb'_append_eq_left

theorem slice_append_right (a b : BitVec 32) : slice (a ++ b) 32 32 = b := BitVec.extractLsb'_append_eq_right

theorem slice_append_slice (b : BitVec 64) : slice b 0 32 ++ slice b 32 32 = b := BitVec.extractLsb'_append_extractLsb'

/-! ### The block functions -/

/-- A Feistel round undoes itself on exchanged halves (R292). -/
theorem desRound_swap_desRound (kr : BitVec 48) (lr : BitVec 32 × BitVec 32) :
    desRound kr (desRound kr lr).swap = lr.swap := by
  simp only [desRound, Prod.swap]
  rw [BitVec.xor_assoc, BitVec.xor_self, BitVec.xor_zero]

/-- The transform with the subkeys in reverse order undoes it (R296, R297). -/
theorem transformDes_reverse (b : BitVec 64) (ks : List (BitVec 48)) :
    transformDes (transformDes b ks) ks.reverse = b := by
  have hrounds := foldl_reverse_undo Prod.swap (fun lr kr => desRound kr lr) (fun lr kr => desRound kr lr) ks
    fun lr kr _ => desRound_swap_desRound kr lr
  simp only [Prod.swap] at hrounds
  rw [transformDes, transformDes]
  simp only [perm_fp_ip, slice_append_left, slice_append_right]
  rw [hrounds, slice_append_slice, perm_ip_fp]

theorem blockDecDes_blockEncDes (blk : Vector Byte 8) (key : BitVec 64) : blockDecDes (blockEncDes blk key) key = blk := by
  rw [blockDecDes, blockEncDes, bytesToBits_bitsToBytes, transformDes_reverse, bitsToBytes_bytesToBits]

end Sys2Proof.Machine
end

section
/-! The PRESENT decrypt undoes the encrypt (spec/43_present.md R321 to R327, R342, R343, R346, R347). -/

namespace Sys2Proof.Machine

/-! ### The layers -/

/-- Bit r of nibble n after a substitution layer is bit r of the box on that nibble (R326). -/
theorem getLsbD_nibbleLayer (box : BitVec 4 → BitVec 4) (s : BitVec 64) {n r : Nat} (hn : n < 16) (hr : r < 4) :
    (nibbleLayer box s).getLsbD (4 * n + r) = (box (s.extractLsb' (4 * n) 4)).getLsbD r := by
  have hterm (m : Nat) : ((box (s.extractLsb' (4 * m) 4)).setWidth 64 <<< (4 * m)).getLsbD (4 * n + r) =
      (decide (m = n) && (box (s.extractLsb' (4 * n) 4)).getLsbD r) := by
    rw [BitVec.getLsbD_shiftLeft, BitVec.getLsbD_setWidth]
    rcases lt_trichotomy m n with hlt | rfl | hgt
    · rw [BitVec.getLsbD_of_ge _ _ (by omega), decide_eq_false hlt.ne]
      simp
    · simp [show 4 * m + r < 64 by omega]
      omega
    · rw [decide_eq_true (show 4 * n + r < 4 * m by omega), decide_eq_false hgt.ne']
      simp
  rw [nibbleLayer, getLsbD_orSum]
  simp only [hterm]
  rw [Bool.eq_iff_iff, List.any_eq_true]
  simp [hn]

/-- Nibble n after a substitution layer is the box on that nibble (R326). -/
theorem extractLsb'_nibbleLayer (box : BitVec 4 → BitVec 4) (s : BitVec 64) {n : Nat} (hn : n < 16) :
    (nibbleLayer box s).extractLsb' (4 * n) 4 = box (s.extractLsb' (4 * n) 4) := by
  refine BitVec.eq_of_getLsbD_eq fun r hr => ?_
  rw [BitVec.getLsbD_extractLsb', decide_eq_true hr, Bool.true_and, getLsbD_nibbleLayer box s hn hr]

/-- A substitution layer is undone by that of an inverse box. -/
theorem nibbleLayer_nibbleLayer {box inv : BitVec 4 → BitVec 4} (h : ∀ x, inv (box x) = x) (s : BitVec 64) :
    nibbleLayer inv (nibbleLayer box s) = s := by
  refine BitVec.eq_of_getLsbD_eq fun i hi => ?_
  have hn : i / 4 < 16 := by omega
  have hr : i % 4 < 4 := by omega
  rw [show i = 4 * (i / 4) + i % 4 by omega, getLsbD_nibbleLayer inv _ hn hr, extractLsb'_nibbleLayer box s hn, h,
    BitVec.getLsbD_extractLsb', decide_eq_true hr, Bool.true_and]

/-- The tables of R321 and R322 are inverse. -/
theorem psboxInv_psbox : ∀ x : BitVec 4, psboxInv (psbox x) = x := by decide

theorem invSLayer_sLayer (s : BitVec 64) : invSLayer (sLayer s) = s := nibbleLayer_nibbleLayer psboxInv_psbox s

/-- One bit of a sequence at another place. -/
theorem getLsbD_movedBit (s : BitVec 64) (i j : Nat) {k : Nat} (hk : k < 64) :
    (((s >>> i) &&& 1) <<< j).getLsbD k = (decide (k = j) && s.getLsbD i) := by
  simp only [BitVec.getLsbD_shiftLeft, BitVec.getLsbD_and, BitVec.getLsbD_ushiftRight, BitVec.ofNat_eq_ofNat,
    BitVec.getLsbD_one]
  rcases lt_trichotomy k j with hlt | rfl | hgt
  · simp [hlt, hlt.ne]
  · simp [hk]
  · simp [hgt.ne', show k - j ≠ 0 by omega]

/-- The places of R323 differ. -/
theorem pp_injective : ∀ i < 64, ∀ j < 64, pp i = pp j → i = j := by decide +kernel

theorem pp_lt : ∀ i < 64, pp i < 64 := by decide +kernel

/-- The permutation layer moves bit i to bit PP(i) (R327). -/
theorem getLsbD_pLayer (s : BitVec 64) {i : Nat} (hi : i < 64) : (pLayer s).getLsbD (pp i) = s.getLsbD i := by
  rw [pLayer, getLsbD_orSum, Bool.eq_iff_iff, List.any_eq_true]
  simp only [getLsbD_movedBit _ _ _ (pp_lt i hi), List.mem_range, Bool.and_eq_true, decide_eq_true_eq]
  constructor
  · rintro ⟨j, hj, hpp, hbit⟩
    rwa [pp_injective i hi j hj hpp]
  · exact fun hbit => ⟨i, hi, rfl, hbit⟩

/-- Its inverse takes bit i from bit PP(i) (R327). -/
theorem getLsbD_invPLayer (s : BitVec 64) {i : Nat} (hi : i < 64) : (invPLayer s).getLsbD i = s.getLsbD (pp i) := by
  rw [invPLayer, getLsbD_orSum, Bool.eq_iff_iff, List.any_eq_true]
  simp only [getLsbD_movedBit _ _ _ hi, List.mem_range, Bool.and_eq_true, decide_eq_true_eq]
  constructor
  · rintro ⟨j, -, rfl, hbit⟩
    exact hbit
  · exact fun hbit => ⟨i, hi, rfl, hbit⟩

theorem invPLayer_pLayer (s : BitVec 64) : invPLayer (pLayer s) = s := by
  refine BitVec.eq_of_getLsbD_eq fun i hi => ?_
  rw [getLsbD_invPLayer _ hi, getLsbD_pLayer s hi]

/-! ### The block functions -/

theorem decRoundPresent_encRoundPresent (k s : BitVec 64) : decRoundPresent k (encRoundPresent k s) = s := by
  rw [decRoundPresent, encRoundPresent, invPLayer_pLayer, invSLayer_sLayer, BitVec.xor_assoc, BitVec.xor_self,
    BitVec.xor_zero]

theorem blockDecPresent_blockEncPresent (blk : Vector Byte 8) (key : BitVec 80) :
    blockDecPresent (blockEncPresent blk key) key = blk := by
  let k := keySchedPresent key
  have hrounds := foldl_reverse_undo id (fun s i => encRoundPresent (presentKeyAt k i) s)
    (fun s i => decRoundPresent (presentKeyAt k i) s) (List.range' 1 31)
    fun s i _ => decRoundPresent_encRoundPresent (presentKeyAt k i) s
  simp only [id_eq] at hrounds
  rw [blockDecPresent, blockEncPresent]
  simp only [bytesToBits_bitsToBytes]
  rw [BitVec.xor_assoc, BitVec.xor_self, BitVec.xor_zero, hrounds, bitsToBytes_bytesToBits]

end Sys2Proof.Machine
end

section
/-! The round trip of messages and of the source's calls (spec/40_common.md R182, R184, R186, spec/60_exceptions.md R401). -/

namespace Sys2Proof.Machine

variable {e : EngineId}

/-! ### Messages -/

/-- A block decrypt undoes the encrypt with the same key (R182). -/
theorem blockDec_blockEnc (e : EngineId) (b : Vector Byte (Config.blkBytes e)) (k : KeyT e) :
    blockDec e (blockEnc e b k) k = b := by
  cases e with
  | aes => exact blockDecAes_blockEncAes b k
  | des => exact blockDecDes_blockEncDes b k
  | present => exact blockDecPresent_blockEncPresent b k

/-- A message with its zero padding (R172). -/
def zeroPadded (e : EngineId) (m : List Byte) : List Byte := m ++ List.replicate (paddedLen e .enc m.length - m.length) 0

theorem length_zeroPadded (e : EngineId) (m : List Byte) : (zeroPadded e m).length = paddedLen e .enc m.length := by
  obtain ⟨-, hle, -⟩ := paddedLen_enc e m.length
  rw [zeroPadded, List.length_append, List.length_replicate, Nat.add_sub_cancel' hle]

theorem dvd_length_zeroPadded (e : EngineId) (m : List Byte) : Config.blkBytes e ∣ (zeroPadded e m).length := by
  rw [length_zeroPadded]
  exact (paddedLen_enc e m.length).1

/-- Whole blocks are their own padding. -/
theorem zeroPadded_whole {m : List Byte} (h : Config.blkBytes e ∣ m.length) : zeroPadded e m = m := by
  rw [zeroPadded, paddedLen_whole h, Nat.sub_self, List.replicate_zero, List.append_nil]

/-- Encrypting a message is encrypting its padding. -/
theorem msgEnc_zeroPadded (m : List Byte) (k : KeyT e) : msgEnc e (zeroPadded e m) k = msgEnc e m k := by
  have hpad : msgEnc e (zeroPadded e m) k =
      mapBlocks e (fun b => blockEnc e b k) (zeroPadded e (zeroPadded e m))
        (paddedLen e .enc (zeroPadded e m).length / Config.blkBytes e) := rfl
  rw [hpad, zeroPadded_whole (dvd_length_zeroPadded e m), paddedLen_whole (dvd_length_zeroPadded e m), length_zeroPadded]
  rfl

theorem dvd_length_msgEnc (m : List Byte) (k : KeyT e) : Config.blkBytes e ∣ (msgEnc e m k).length := by
  rw [msgEnc, length_mapBlocks]
  exact Nat.dvd_mul_left ..

theorem toList_bytesAt {n : Nat} {m : List Byte} (h : n ≤ m.length) : (bytesAt n m 0).toList = m.take n := by
  refine List.ext_getElem (by simp [h]) fun i hi _ => ?_
  rw [Vector.length_toList] at hi
  rw [Vector.getElem_toList, getElem_bytesAt, Nat.zero_add, byteAt_eq_dite, dif_pos (by omega), List.getElem_take]

/-- A message of whole blocks is its blocks one after another. -/
theorem exists_blocks (n : Nat) : ∀ m : List Byte, m.length = n * Config.blkBytes e →
    ∃ blocks : List (Vector Byte (Config.blkBytes e)), (blocks.flatMap fun b => b.toList) = m := by
  induction n with
  | zero =>
    intro m h
    rw [Nat.zero_mul] at h
    exact ⟨[], (List.eq_nil_of_length_eq_zero h).symm⟩
  | succ n ih =>
    intro m h
    rw [Nat.succ_mul] at h
    obtain ⟨blocks, hblocks⟩ := ih (m.drop (Config.blkBytes e)) (by rw [List.length_drop]; omega)
    refine ⟨bytesAt (Config.blkBytes e) m 0 :: blocks, ?_⟩
    rw [List.flatMap_cons, hblocks, toList_bytesAt (by omega), List.take_append_drop]

/-- A message decrypt after an encrypt gives the message with its padding (R184). -/
theorem msgDec_msgEnc (m : List Byte) (k : KeyT e) : msgDec e (msgEnc e m k) k = zeroPadded e m := by
  obtain ⟨blocks, hblocks⟩ := exists_blocks _ (zeroPadded e m) (Nat.div_mul_cancel (dvd_length_zeroPadded e m)).symm
  have henc : msgEnc e m k = (blocks.map fun b => blockEnc e b k).flatMap fun b => b.toList := by
    rw [← msgEnc_zeroPadded, ← hblocks, List.flatMap_map]
    exact msgFn_blocks .enc k blocks
  have hdec := msgFn_blocks .dec k (blocks.map fun b => blockEnc e b k)
  rw [← henc, List.flatMap_map] at hdec
  simp only [blockFn, blockDec_blockEnc, hblocks] at hdec
  exact hdec

/-! ### The source's calls -/

/-- The bytes of a key text of 16 characters are the AES key. -/
theorem bytesAt_keyText {k : List Nat} (hk : k.length = 16) :
    bytesAt 16 (k.map (BitVec.ofNat 8)) 0 = Vector.ofFn fun i : Fin 16 => BitVec.ofNat 8 (k[i.val]'(by omega)) := by
  refine Vector.ext fun i hi => ?_
  rw [getElem_bytesAt, Nat.zero_add, byteAt_eq_dite, dif_pos (by rw [List.length_map]; omega), List.getElem_map,
    Vector.getElem_ofFn]

/-- A key that is refused is refused once the text has been read. -/
theorem sourceEncrypt_key_refused {t k : List Nat} {r : Refusal} (ht : ∀ c ∈ t, c ≤ 255)
    (hk : sourceKey e k = .error r) : sourceEncrypt e t k = .error r := by
  rw [sourceEncrypt, stringToBytes_ok ht, Except.bind, hk, Except.map]

/-- A decrypt call gives an encrypted text back, with its padding. -/
theorem sourceDecrypt_msgEnc (t : List Nat) {k : List Nat} {key : KeyT e} (hk : sourceKey e k = .ok key) :
    sourceDecrypt e (msgEnc e (t.map (BitVec.ofNat 8)) key) k =
      .ok (t.map (BitVec.ofNat 8) ++ List.replicate (paddedLen e .enc t.length - t.length) 0) := by
  rw [sourceDecrypt_ok hk (Nat.mod_eq_zero_of_dvd (dvd_length_msgEnc _ key)), msgDec_msgEnc, zeroPadded, List.length_map]

/-- A decrypt call on the bits of whole blocks is the message function of the bytes (R158). -/
theorem sourceDecryptBits_ok {c : List Byte} {k : List Nat} {key : KeyT e} (hk : sourceKey e k = .ok key)
    (hc : Config.blkBytes e ∣ c.length) :
    sourceDecryptBits e (bytesToBitList c) k = .ok (bytesToBitList (msgDec e c key)) := by
  have hbits : (bytesToBitList c).length % 8 = 0 := by rw [length_bytesToBitList, Nat.mul_mod_right]
  rw [sourceDecryptBits, if_pos hbits, bitListToBytes_bytesToBitList, sourceDecrypt_ok hk (Nat.mod_eq_zero_of_dvd hc),
    Except.map]

/-- The bit calls of an engine: the encrypt is the message function of the text, and the decrypt undoes it but for the
padding. -/
theorem sourceBits_roundTrip {t k : List Nat} {key : KeyT e} (ht : ∀ c ∈ t, c ≤ 255) (hk : sourceKey e k = .ok key) :
    (sourceEncrypt e t k).map bytesToBitList = .ok (bytesToBitList (msgEnc e (t.map (BitVec.ofNat 8)) key)) ∧
    sourceDecryptBits e (bytesToBitList (msgEnc e (t.map (BitVec.ofNat 8)) key)) k =
      .ok (bytesToBitList (t.map (BitVec.ofNat 8) ++ List.replicate (paddedLen e .enc t.length - t.length) 0)) := by
  refine ⟨by rw [sourceEncrypt_ok ht hk, Except.map], ?_⟩
  rw [sourceDecryptBits_ok hk (dvd_length_msgEnc _ key), msgDec_msgEnc, zeroPadded, List.length_map]

/-- Settles O58: the message round trip, and each of the source's calls as a message function. -/
theorem messageRoundTripKeepsPadding : Obligations.MessageRoundTripKeepsPadding := by
  refine ⟨fun e k m => ⟨msgDec_msgEnc m k, fun h => ?_⟩, fun t k ht hk => ?_⟩
  · rw [msgDec_msgEnc, zeroPadded_whole (Nat.dvd_of_mod_eq_zero h)]
  intro text key padded
  have hdes := sourceBits_roundTrip ht (sourceKey_des hk)
  have hpresent := sourceBits_roundTrip ht (sourceKey_present hk)
  refine ⟨fun hk16 => ?_, fun hk16 => ?_, ⟨_, hdes.1, rfl, hdes.2⟩,
    fun c hc => sourceDecryptBits_ok (sourceKey_des hk) (Nat.dvd_of_mod_eq_zero hc), ⟨_, hpresent.1, rfl, hpresent.2⟩,
    fun c hc => sourceDecryptBits_ok (sourceKey_present hk) (Nat.dvd_of_mod_eq_zero hc)⟩
  · have hkey := sourceKey_aes hk hk16
    rw [bytesAt_keyText hk16] at hkey
    exact ⟨sourceEncrypt_ok ht hkey, fun c hc => sourceDecrypt_ok hkey hc, sourceDecrypt_msgEnc t hkey⟩
  · have hkey := sourceKey_aes_refused hk hk16
    exact ⟨sourceEncrypt_key_refused ht hkey, fun c => sourceDecrypt_key_refused hkey⟩

end Sys2Proof.Machine
end

section
/-! Maps of bytes and of byte sequences undone both ways, as both are finitely many. -/

namespace Sys2Proof.Machine

/-- On a finite type a map that undoes another is undone by it. -/
theorem rightInverse_of_leftInverse {α : Type} [Finite α] {f g : α → α} (h : Function.LeftInverse g f) :
    Function.RightInverse g f :=
  h.rightInverse_of_surjective (Finite.surjective_of_injective h.injective)

/-- Byte sequences of one length are finitely many. -/
theorem finite_bytes (n : Nat) : Finite (Vector Byte n) :=
  Finite.of_injective (fun (b : Vector Byte n) (i : Fin n) => b[i]) fun _ _ h =>
    Vector.ext fun i hi => congrFun h ⟨i, hi⟩

end Sys2Proof.Machine
end

section
/-! GF(2^8) is a field whose addition is XOR, and the S-box is its inverse under an affine map (spec/41_aes.md R202, R204, R205,
spec/44_diagnostic.md R371 to R373). -/

namespace Sys2Proof.Machine

/-! ### The product is linear in each operand -/

/-- A term that stands in both summands drops out. -/
theorem xor_xor_xor_same (u v c : Byte) : (u ^^^ c) ^^^ (v ^^^ c) = u ^^^ v :=
  calc
    (u ^^^ c) ^^^ (v ^^^ c) = u ^^^ v ^^^ (c ^^^ c) := by ac_rfl
    _ = u ^^^ v := by rw [BitVec.xor_self, BitVec.xor_zero]

theorem isLinear_xtime : IsLinear xtime := by
  intro x y
  rw [xtime, BitVec.getLsbD_xor, BitVec.shiftLeft_xor_distrib, xtime, xtime]
  cases x.getLsbD 7 <;> cases y.getLsbD 7
  · rfl
  · exact BitVec.xor_assoc ..
  · show x <<< 1 ^^^ y <<< 1 ^^^ 0x1B = x <<< 1 ^^^ 0x1B ^^^ y <<< 1
    ac_rfl
  · exact (xor_xor_xor_same ..).symm

/-- The loop of R204 is linear in its first operand. -/
theorem gfmulLoop_xor_left (n : Nat) : ∀ p q x y b : Byte,
    gfmulLoop n (p ^^^ q) (x ^^^ y) b = gfmulLoop n p x b ^^^ gfmulLoop n q y b := by
  induction n with
  | zero => exact fun _ _ _ _ _ => rfl
  | succ n ih =>
    intro p q x y b
    have hprod : (if b.getLsbD 0 then (p ^^^ q) ^^^ (x ^^^ y) else p ^^^ q) =
        (if b.getLsbD 0 then p ^^^ x else p) ^^^ (if b.getLsbD 0 then q ^^^ y else q) := by
      split
      · ac_rfl
      · rfl
    rw [gfmulLoop, hprod, isLinear_xtime, ih, gfmulLoop, gfmulLoop]

theorem isLinear_gfmul_right (a : Byte) : IsLinear (gfmul a) := gfmul_xor a

theorem isLinear_gfmul_left (b : Byte) : IsLinear fun a => gfmul a b := fun x y => gfmulLoop_xor_left 8 0 0 x y b

theorem IsLinear.comp {f g : Byte → Byte} (hf : IsLinear f) (hg : IsLinear g) : IsLinear fun x => f (g x) := by
  intro x y
  show f (g (x ^^^ y)) = f (g x) ^^^ f (g y)
  rw [hg, hf]

/-! ### The laws of the product, each from the products of single bits -/

theorem gfmul_zero (a : Byte) : gfmul a 0 = 0 := (isLinear_gfmul_right a).map_zero

theorem gfmul_one (a : Byte) : gfmul a 1 = a :=
  IsLinear.ext (g := id) (isLinear_gfmul_left 1) (fun _ _ => rfl) (by decide) a

theorem gfmul_comm (a b : Byte) : gfmul a b = gfmul b a := by
  refine IsLinear.ext (isLinear_gfmul_left b) (isLinear_gfmul_right b) (fun i hi => ?_) a
  refine IsLinear.ext (isLinear_gfmul_right _) (isLinear_gfmul_left _) (fun j hj => ?_) b
  revert i j
  decide +kernel

theorem gfmul_assoc (a b c : Byte) : gfmul (gfmul a b) c = gfmul a (gfmul b c) := by
  refine IsLinear.ext ((isLinear_gfmul_left c).comp (isLinear_gfmul_left b)) (isLinear_gfmul_left _) (fun i hi => ?_) a
  refine IsLinear.ext ((isLinear_gfmul_left c).comp (isLinear_gfmul_right _))
    ((isLinear_gfmul_right _).comp (isLinear_gfmul_left c)) (fun j hj => ?_) b
  refine IsLinear.ext (isLinear_gfmul_right _) ((isLinear_gfmul_right _).comp (isLinear_gfmul_right _)) (fun k hk => ?_) c
  revert i j k
  decide +kernel

/-! ### Inverses, read off the S-box -/

/-- The affine map of R202. -/
def affine (b : Byte) : Byte :=
  b ^^^ b.rotateLeft 1 ^^^ b.rotateLeft 2 ^^^ b.rotateLeft 3 ^^^ b.rotateLeft 4 ^^^ 0x63

/-- Its inverse. -/
def invAffine (y : Byte) : Byte := y.rotateLeft 1 ^^^ y.rotateLeft 3 ^^^ y.rotateLeft 6 ^^^ 0x05

theorem affine_invAffine : ∀ y : Byte, affine (invAffine y) = y := by decide +kernel

/-- R202's `inv(x)`: what the affine map takes to `SBOX[x]`. -/
def gfInv (x : Byte) : Byte := invAffine (sbox x)

theorem affine_gfInv (x : Byte) : affine (gfInv x) = sbox x := affine_invAffine _

theorem gfInv_zero : gfInv 0 = 0 := by decide

theorem gfmul_gfInv : ∀ x : Byte, x ≠ 0 → gfmul x (gfInv x) = 1 := by decide +kernel

/-- Inverses are unique. -/
theorem eq_gfInv {x b : Byte} (h : gfmul x b = 1) : b = gfInv x := by
  have hx : x ≠ 0 := by
    rintro rfl
    rw [gfmul_comm, gfmul_zero] at h
    exact absurd h (by decide)
  calc
    b = gfmul b (gfmul x (gfInv x)) := by rw [gfmul_gfInv x hx, gfmul_one]
    _ = gfmul (gfmul x b) (gfInv x) := by rw [← gfmul_assoc, gfmul_comm b x]
    _ = gfInv x := by rw [h, gfmul_comm, gfmul_one]

/-- Settles O24: the product is bilinear, so its laws follow from those of single bits, and the S-box gives the inverses. -/
theorem gfmulIsFieldMultiplication : Obligations.GfmulIsFieldMultiplication :=
  ⟨gfmul_comm, gfmul_assoc, gfmul_xor, fun a ha => ⟨gfInv a, gfmul_gfInv a ha⟩⟩

/-! ### The commands -/

/-- One iteration of R204's loop on product, first and second operand. -/
def gfmulIteration (x : Byte × Byte × Byte) : Byte × Byte × Byte :=
  (if x.2.2.getLsbD 0 then x.1 ^^^ x.2.1 else x.1, xtime x.2.1, x.2.2 >>> 1)

theorem gfmulLoop_eq_foldl {ι : Type} (l : List ι) : ∀ p a b : Byte,
    gfmulLoop l.length p a b = (l.foldl (fun x _ => gfmulIteration x) (p, a, b)).1 := by
  induction l with
  | nil => exact fun _ _ _ => rfl
  | cons _ l ih => exact fun p a b => ih _ _ _

/-- Settles O22: the model's loop is the one written out, iteration by iteration. -/
theorem gfMulCommandMultiplies : Obligations.GfMulCommandMultiplies :=
  ⟨exec_util_eq .gfMul, gfmulLoop_eq_foldl (List.range 8) 0, by decide⟩

theorem exec_gfMul {s : State} {v : Byte} (h : gfmul s.ua s.ub = v) : exec .gfMul s = .next { s with ur := v } := by
  rw [← h]
  exact exec_util_eq .gfMul s

/-- Settles O23: 1 is neutral, 0 absorbs, and 02 times 87 is reduced once. -/
theorem gfMulSourceProperties : Obligations.GfMulSourceProperties := by
  refine ⟨fun s hb => exec_gfMul ?_, fun s hb => exec_gfMul ?_, fun s ha hb => exec_gfMul ?_⟩
  · rw [hb, gfmul_one]
  · rw [hb, gfmul_zero]
  · rw [ha, hb]
    decide

theorem sbox_invSbox : ∀ x : Byte, sbox (invSbox x) = x := rightInverse_of_leftInverse invSbox_sbox

/-- Settles O25: the tables' own lemmas, and the S-box as the affine image of the only inverse. -/
theorem aesSboxCommandsLookUp : Obligations.AesSboxCommandsLookUp := by
  refine ⟨exec_util_eq .aesSbox, exec_util_eq .aesInvSbox, fun x => ⟨invSbox_sbox x, sbox_invSbox x⟩, fun x b h => ?_,
    by decide⟩
  have hb : b = gfInv x := by
    rcases h with ⟨rfl, rfl⟩ | h
    · exact gfInv_zero.symm
    · exact eq_gfInv h
  rw [hb]
  exact (affine_gfInv x).symm

end Sys2Proof.Machine
end

section
/-! The key-schedule steps of an accepted command (spec/41_aes.md R221, spec/42_des.md R281, spec/43_present.md R331), and the
AES block functions in both orders (spec/41_aes.md R215, R237). -/

namespace Sys2Proof.Machine

variable {e : EngineId}

/-! ### The key schedule -/

/-- Where the FSM goes after KS(i) leaves the working state. -/
theorem afterKs_work (i : Nat) (x : EngineOf e) : (afterKs i x).work = x.work := by
  unfold afterKs
  split
  · rfl
  · cases latMode x <;> rfl

/-- After its key-schedule steps an engine holds the round keys of the key that the accept latched. -/
theorem engineSteps_keyed (ep : Nat) (x : EngineOf e) (v : Byte) :
    ∃ y, engineSteps ep (Config.nks e) (acceptOn v x) = .ok y ∧ Keyed e (normKey e x.key x.keylen) y.work := by
  refine ⟨_, engineSteps_keys x v, ?_⟩
  rw [afterKs_work]
  exact keyed_ksFold e _ _

/-- Settles O53: `engineSteps_keyed` for each engine. -/
theorem keyScheduleStepsComputeTheSchedule : Obligations.KeyScheduleStepsComputeTheSchedule :=
  ⟨engineSteps_keyed (e := .aes), engineSteps_keyed (e := .des), engineSteps_keyed (e := .present)⟩

/-! ### The block functions in the other order -/

theorem blockEncAes_blockDecAes (blk k : Vector Byte 16) : blockEncAes (blockDecAes blk k) k = blk := by
  have hfinite := finite_bytes 16
  have hundo : Function.LeftInverse (blockDecAes · k) (blockEncAes · k) := fun b => blockDecAes_blockEncAes b k
  exact rightInverse_of_leftInverse hundo blk

/-- Settles O54: the round functions by their lemmas, and the block functions in both orders. -/
theorem aesBlockFunctionsAreInverse : Obligations.AesBlockFunctionsAreInverse :=
  ⟨fun s => ⟨invSubBytes_subBytes s, invShiftRows_shiftRows s, invMixColumns_mixColumns s⟩, addRoundKey_addRoundKey,
    fun x k => ⟨blockDecAes_blockEncAes x k, blockEncAes_blockDecAes x k⟩⟩

end Sys2Proof.Machine
end

section
/-! The DES block functions in both orders, the key positions that they never read, and the DES_SBOX command (spec/42_des.md R261,
R265, R268, R271, R286, R297, spec/44_diagnostic.md R376). -/

namespace Sys2Proof.Machine

/-! ### The block functions in the other order -/

theorem blockEncDes_blockDecDes (blk : Vector Byte 8) (key : BitVec 64) : blockEncDes (blockDecDes blk key) key = blk := by
  have hundo := transformDes_reverse (bytesToBits blk) (keySchedDes key).toList.reverse
  rw [List.reverse_reverse] at hundo
  rw [blockEncDes, blockDecDes, bytesToBits_bitsToBytes, hundo, bitsToBytes_bytesToBits]

/-- Settles O55: the Feistel rounds undo themselves under the subkeys in reverse order, and to reverse twice changes nothing. -/
theorem desBlockFunctionsAreInverse : Obligations.DesBlockFunctionsAreInverse :=
  ⟨perm_ip_fp, fun x k => ⟨blockDecDes_blockEncDes x k, blockEncDes_blockDecDes x k⟩⟩

/-! ### The parity positions -/

/-- A permutation reads only the elements that its table names. -/
theorem perm_congr {n m : Nat} {b b' : BitVec n} {t : List Nat} (h : ∀ p ∈ t, b.getMsbD (p - 1) = b'.getMsbD (p - 1)) :
    perm m b t = perm m b' t := by
  rw [perm, perm, List.map_congr_left h]

/-- PC1 omits the last position of each byte of the key (R261). -/
theorem pc1Table_omits_parity : ∀ p ∈ pc1Table, p - 1 < 64 ∧ (p - 1) % 8 ≠ 7 := by decide

/-- The key schedule reads its key through PC1 only. -/
theorem desHalves_congr {k k' : BitVec 64} (h : perm 56 k pc1Table = perm 56 k' pc1Table) (i : Nat) :
    desHalves k i = desHalves k' i := by
  induction i with
  | zero => rw [desHalves, desHalves, desC0, desC0, desD0, desD0, h]
  | succ i ih => rw [desHalves, desHalves, ih]

theorem keySchedDes_congr {k k' : BitVec 64} (h : perm 56 k pc1Table = perm 56 k' pc1Table) :
    keySchedDes k = keySchedDes k' := by
  simp only [keySchedDes, desHalves_congr h]

/-- Settles O57: keys that agree off the parity positions agree after PC1, which is all that the schedule reads. -/
theorem desIgnoresParityBits : Obligations.DesIgnoresParityBits := by
  intro k k' hagree
  have hpc1 : perm 56 k pc1Table = perm 56 k' pc1Table := perm_congr fun p hp =>
    have ⟨hlt, hparity⟩ := pc1Table_omits_parity p hp
    hagree (p - 1) hlt hparity
  have hks := keySchedDes_congr hpc1
  exact ⟨hks, fun x => ⟨by rw [blockEncDes, blockEncDes, hks], by rw [blockDecDes, blockDecDes, hks]⟩⟩

/-! ### The lookup in a box -/

/-- Row and column of R286 in arithmetic. -/
theorem sboxDes_eq (j : Nat) (v : BitVec 6) :
    sboxDes j v = ((desBox j).getD (2 * (v.toNat / 32 % 2) + v.toNat % 2) []).getD (v.toNat / 2 % 16) 0 := by
  have h5 : (v.getLsbD 5).toNat = v.toNat / 32 % 2 := Nat.toNat_testBit ..
  have h0 : (v.getLsbD 0).toNat = v.toNat % 2 := by rw [BitVec.getLsbD, Nat.toNat_testBit, pow_zero, Nat.div_one]
  have hcol : (v.extractLsb' 1 4).toNat = v.toNat / 2 % 16 := by rw [BitVec.extractLsb'_toNat, Nat.shiftRight_eq_div_pow]
  rw [sboxDes, h5, h0, hcol]

/-- The result of DES_SBOX in arithmetic on UA and UB (R376). -/
theorem utilValue_desSbox (ua ub : Byte) : utilValue ua ub .desSbox = 0#4 ++
    (((desBox (ub.toNat % 8 + 1)).getD (2 * (ua.toNat / 32 % 2) + ua.toNat % 2) []).getD (ua.toNat / 2 % 16) 0) := by
  have hub : (ub.extractLsb' 0 3).toNat = ub.toNat % 8 := BitVec.extractLsb'_toNat ..
  have hua : (ua.extractLsb' 0 6).toNat = ua.toNat % 64 := BitVec.extractLsb'_toNat ..
  have h5 : ua.toNat % 64 / 32 % 2 = ua.toNat / 32 % 2 := by omega
  have h0 : ua.toNat % 64 % 2 = ua.toNat % 2 := by omega
  have hcol : ua.toNat % 64 / 2 % 16 = ua.toNat / 2 % 16 := by omega
  rw [utilValue, sboxDes_eq, hub, hua, h5, h0, hcol]
  exact BitVec.setWidth_eq_append (by decide)

/-- Each row of each box holds every value (R268). -/
theorem exists_col_desBox : ∀ j, j < 8 → ∀ row, row < 4 → ∀ y : BitVec 4,
    ∃ col, col < 16 ∧ ((desBox (j + 1)).getD row []).getD col 0 = y := by
  decide +kernel

theorem exec_desSbox {s : State} {ua ub v : Byte} (hb : s.ub = ub) (ha : s.ua = ua) (h : utilValue ua ub .desSbox = v) :
    exec .desSbox s = .next { s with ur := v } := by
  subst hb ha h
  exact exec_util_eq .desSbox s

/-- Settles O27: the entry by the arithmetic of row and column, and the rows and the examples by looking them up. -/
theorem desSboxCommandLooksUp : Obligations.DesSboxCommandLooksUp :=
  ⟨fun _ => exec_desSbox rfl rfl (utilValue_desSbox _ _), exists_col_desBox, fun _ hb ha => exec_desSbox hb ha rfl,
    fun _ hb ha => exec_desSbox hb ha rfl, fun _ hb ha => exec_desSbox hb ha rfl, fun _ hb ha => exec_desSbox hb ha rfl⟩

end Sys2Proof.Machine
end

section
/-! The PRESENT layers place by place, the block functions in both orders, and the PRESENT_SBOX commands (spec/43_present.md R322,
R323, R326, R327, R347, spec/44_diagnostic.md R374, R375). -/

namespace Sys2Proof.Machine

/-! ### The places of the permutation layer -/

/-- The second form of R323. -/
theorem pp_eq {i : Nat} (hi : i < 64) : pp i = 16 * (i % 4) + i / 4 := by
  rw [pp]
  split <;> omega

/-! ### The block functions in the other order -/

theorem blockEncPresent_blockDecPresent (blk : Vector Byte 8) (key : BitVec 80) :
    blockEncPresent (blockDecPresent blk key) key = blk := by
  have hfinite := finite_bytes 8
  have hundo : Function.LeftInverse (blockDecPresent · key) (blockEncPresent · key) :=
    fun b => blockDecPresent_blockEncPresent b key
  exact rightInverse_of_leftInverse hundo blk

/-- Settles O56: the layers bit by bit and nibble by nibble by their lemmas, and the block functions in both orders. -/
theorem presentBlockFunctionsAreInverse : Obligations.PresentBlockFunctionsAreInverse := by
  refine ⟨fun s i hi => ?_, fun s n hn => ⟨extractLsb'_nibbleLayer psbox s hn, extractLsb'_nibbleLayer psboxInv s hn⟩,
    fun x k => ⟨blockDecPresent_blockEncPresent x k, blockEncPresent_blockDecPresent x k⟩⟩
  rw [← pp_eq hi]
  exact ⟨getLsbD_pLayer s hi, getLsbD_invPLayer s hi⟩

/-! ### The lookup commands -/

theorem psbox_psboxInv : ∀ y : BitVec 4, psbox (psboxInv y) = y := rightInverse_of_leftInverse psboxInv_psbox

/-- A UTIL command whose value is the same for every UB. -/
theorem exec_util_of_ua (f : UtilFn) {s : State} {ua v : Byte} (ha : s.ua = ua) (h : ∀ ub, utilValue ua ub f = v) :
    exec (instrOf (.util f)) s = .next { s with ur := v } := by
  subst ha
  rw [exec_util_eq, h, utilResult]

/-- Settles O26: the value is a box of UA's low nibble, whatever UB is; the examples are looked up. -/
theorem presentSboxCommandsLookUp : Obligations.PresentSboxCommandsLookUp :=
  ⟨fun _ => exec_util_of_ua .presentSbox rfl fun _ => BitVec.setWidth_eq_append (by decide),
    fun _ => exec_util_of_ua .presentInvSbox rfl fun _ => BitVec.setWidth_eq_append (by decide),
    fun x => ⟨psboxInv_psbox x, psbox_psboxInv x⟩,
    fun _ ha => exec_util_of_ua .presentSbox ha fun _ => rfl, fun _ ha => exec_util_of_ua .presentSbox ha fun _ => rfl,
    fun _ ha => exec_util_of_ua .presentSbox ha fun _ => rfl, fun _ ha => exec_util_of_ua .presentInvSbox ha fun _ => rfl,
    fun _ ha => exec_util_of_ua .presentInvSbox ha fun _ => rfl,
    fun _ ha => exec_util_of_ua .presentInvSbox ha fun _ => rfl⟩

end Sys2Proof.Machine
end

section
/-! The UTIL commands complete in every state, and UR changes by nothing else but reset (spec/44_diagnostic.md R370). -/

namespace Sys2Proof.Machine

theorem readAt_ur (s : State) : s.readAt 0x802 = s.ur := rfl

/-- A UTIL command by its value, written in any form: executed, written to CMD, and read back from UR. -/
theorem utilCommand_of_value {f : UtilFn} {s : State} {v : Byte} (h : utilValue s.ua s.ub f = v) :
    exec (instrOf (.util f)) s = .next { s with ur := v } ∧
    busWrite s 0x000 (encodeFields (.util f)) = .next { s with ur := v } ∧
    State.readAt { s with ur := v } 0x802 = v := by
  have hexec : exec (instrOf (.util f)) s = .next { s with ur := v } := by rw [exec_util_eq, h, utilResult]
  have hwrite : busWrite s 0x000 (encodeFields (.util f)) = exec (instrOf (.util f)) s :=
    cmdWrite_of_fields (decodeFields_encodeFields _)
  exact ⟨hexec, hwrite.trans hexec, readAt_ur _⟩

/-- Settles O21: each function's result is the command's value; a turn other than reset that changes UR is a UTIL command's. -/
theorem utilCommandsWriteOnlyUr : Obligations.UtilCommandsWriteOnlyUr := by
  refine ⟨fun f s => utilCommand_of_value ?_, fun s t g ht hne => ?_⟩
  · cases f with
    | gfMul | aesSbox | aesInvSbox => rfl
    | presentSbox | presentInvSbox => exact BitVec.setWidth_eq_append (by decide)
    | desSbox => exact utilValue_desSbox _ _
  · rw [readAt_ur, readAt_ur] at hne
    by_cases hg : g = .reset
    · exact .inl hg
    · obtain ⟨-, -, hur⟩ := resultRegistersChangeOnlyAtCompletion s t g ht hg
      exact .inr (hur hne)

end Sys2Proof.Machine
end

section
/-! What a command error writes, and the checks that raise each code (spec/60_exceptions.md R410). -/

namespace Sys2Proof.Machine

/-- A cipher command whose accept finds error `c` sets its STATUS to ERR with code `c`, every other flag clear, and nothing else. -/
theorem exec_cipher_error {e : EngineId} {s : State} {m : Mode} {d : Dir} {c : ErrCode}
    (hb : (s.engine e).status.busy = false) (hcheck : acceptCheck e m d (s.engine e) = c) (hc : c ≠ .none) :
    exec (instrOf (.cipher e m d)) s =
      .next (s.setEngine e { s.engine e with status := ⟨false, false, true, c⟩ }) := by
  rw [exec_cipher, acceptCipher_error _ hb (hcheck ▸ hc), hcheck, raiseCmdError, raiseOn, statusRefused, hb]

/-- Settles O31: a KEYLEN other than 16 fails AES's key check; past the key check, the length check decides. -/
theorem commandErrorChangesOnlyStatus : Obligations.CommandErrorChangesOnlyStatus := by
  obtain ⟨hkeys, -⟩ := keysAreNormalised
  obtain ⟨hlens, -⟩ := messageLengthsAreCheckedAndPadded
  refine ⟨fun s m d hb hlen => ?_, fun s e d hb hlen hbad => ?_⟩
  · have hkey : keyCheck .aes s.aes.keylen = .invalidKeyLength := (hkeys _).1 hlen
    have hcheck : acceptCheck .aes m d s.aes = .invalidKeyLength :=
      (acceptCheck_keyError m d (hkey ▸ nofun)).trans hkey
    exact exec_cipher_error (e := .aes) hb hcheck nofun
  · have hkey : keyCheck e (s.engine e).keylen = .none := by
      obtain ⟨-, haes, hdes, hpresent⟩ := hkeys (s.engine e).keylen
      cases e with
      | aes => exact haes (hlen rfl)
      | des => exact hdes
      | present => exact hpresent
    have hcheck : acceptCheck e .msg d (s.engine e) = .badMsgLength :=
      (acceptCheck_keyOk .msg d hkey).trans ((hlens e d _).1 hbad)
    exact exec_cipher_error hb hcheck nofun

end Sys2Proof.Machine
end

section
/-! The buffer of an engine on the bus: closed while a message op runs, plain memory otherwise (spec/70_reset_and_hazards.md
R452). -/

namespace Sys2Proof.Machine

variable {e : EngineId} {s : State} {off : Nat}

theorem msgOpRunning_iff {x : EngineOf e} :
    msgOpRunning x = true ↔ x.status.busy = true ∧ modeField x.lat.op = .msg := by
  rw [msgOpRunning, latMode, Bool.and_eq_true, decide_eq_true_iff]

theorem bufWrite_running {x : EngineOf e} (h : msgOpRunning x = true) (v : Byte) : bufWrite off v x = x := if_pos h

theorem bufWrite_plain {x : EngineOf e} (h : msgOpRunning x = false) (v : Byte) :
    bufWrite off v x = { x with msgbuf := cellWrite x.msgbuf (Config.mbase e + off) v } := if_neg (by simp [h])

theorem busWrite_bufAddr (ho : off < 256) (v : Byte) :
    busWrite s (bufAddr e off) v = .next (s.setEngine e (bufWrite off v (s.engine e))) := by
  rw [busWrite, locate_bufAddr e ho, locWrite]

theorem busRead_bufAddr_running (h : msgOpRunning (s.engine e) = true) (ho : off < 256) :
    busRead s (bufAddr e off) = (Config.busyDraw s.draws, { s with draws := s.draws + 1 }) := by
  rw [busRead, locate_bufAddr e ho, locRead, if_pos h]

theorem busRead_bufAddr_plain (h : msgOpRunning (s.engine e) = false) (ho : off < 256) :
    busRead s (bufAddr e off) = (bufRead e s.epoch (s.engine e).msgbuf off, s) := by
  rw [busRead, locate_bufAddr e ho, locRead, if_neg (by simp [h])]

/-- With no message op running, the byte stored in the buffer is the one that is read at its address. -/
theorem readAt_bufAddr_cellWrite (h : msgOpRunning (s.engine e) = false) (ho : off < 256) (v : Byte) :
    (s.setEngine e { s.engine e with
      msgbuf := cellWrite (s.engine e).msgbuf (Config.mbase e + off) v }).readAt (bufAddr e off) = v := by
  rw [State.readAt, busRead_bufAddr_plain (by rw [setEngine_engine_same]; exact h) ho, setEngine_engine_same]
  exact bufRead_cellWrite_same ..

/-- A byte stored in a buffer is read at no other address. -/
theorem readAt_cellWrite_other (ho : off < 256) (v : Byte) {a : Addr} (ha : a ≠ bufAddr e off) :
    (s.setEngine e { s.engine e with
      msgbuf := cellWrite (s.engine e).msgbuf (Config.mbase e + off) v }).readAt a = s.readAt a := by
  refine readAt_setEngine (fun _ => rfl) (fun r _ => by cases r <;> rfl) fun off' hl => ⟨rfl, ?_⟩
  have hne : off' ≠ off := fun heq =>
    ha (locate_inj (hl.trans (heq ▸ (locate_bufAddr e ho).symm)) (by simp [hl]))
  exact bufRead_cellWrite_other _ _ _ _ hne

/-- Settles O17: both cases by `msgOpRunning`, which the model's reads and writes of a buffer ask. -/
theorem messageBufferWindow : Obligations.MessageBufferWindow := by
  refine fun s e off ho => ⟨fun hmsg => ?_, fun hplain => ?_⟩
  · have hrun : msgOpRunning (s.engine e) = true := msgOpRunning_iff.2 hmsg
    refine ⟨busRead_bufAddr_running hrun ho, fun v => ?_⟩
    rw [busWrite_bufAddr ho, bufWrite_running hrun, setEngine_same_engine]
  · have hrun : msgOpRunning (s.engine e) = false := hplain.elim msgOpRunning_idle msgOpRunning_blk
    refine ⟨by rw [busRead_bufAddr_plain hrun ho], fun v =>
      ⟨_, ?_, readAt_bufAddr_cellWrite hrun ho v, fun a ha => readAt_cellWrite_other ho v ha⟩⟩
    rw [busWrite_bufAddr ho, bufWrite_plain hrun]

end Sys2Proof.Machine
end

section
/-! Reset leaves every register 0, every engine idle and every buffer byte unwritten (spec/70_reset_and_hazards.md R440,
R442). -/

namespace Sys2Proof.Machine

/-- The core's registers, engines and buffers at their reset values (R440). Only the indexes of free values, and what is outside
the core, are left open. -/
structure AtReset (s : State) : Prop where
  illegal : s.illegal = false
  busyrej : s.busyrej = false
  ua : s.ua = 0
  ub : s.ub = 0
  ur : s.ur = 0
  engines : ∀ e, s.engine e = { Engine.reset e with runs := (s.engine e).runs }

theorem atReset_reset : AtReset State.reset := ⟨rfl, rfl, rfl, rfl, rfl, fun e => by cases e <;> rfl⟩

theorem atReset_resetCore (s : State) : AtReset (resetCore s) :=
  ⟨rfl, rfl, rfl, rfl, rfl, fun e => by rw [resetCore_engine]⟩

/-- A byte of a register whose bytes are all 0, or past its end. -/
theorem vector_getD_replicate_zero (n i : Nat) : (Vector.replicate n (0 : Byte)).getD i 0 = 0 := by
  by_cases h : i < n
  · rw [vector_getD_of_lt _ _ h, Vector.getElem_replicate]
  · simp [Vector.getD, h]

theorem regRead_reset (e : EngineId) (n : Nat) (r : EngReg) :
    regRead ({ Engine.reset e with runs := n } : EngineOf e) r = 0 := by
  cases r with
  | key i | din i | dout i => exact vector_getD_replicate_zero _ i
  | status => exact (by decide : statusByte Status.reset = 0)
  | msglenHi | msglenLo | outlenHi | outlenLo => exact BitVec.extractLsb'_zero
  | keylen => rfl

namespace AtReset
variable {s : State}

theorem status (h : AtReset s) (e : EngineId) : (s.engine e).status = Status.reset :=
  congrArg Engine.status (h.engines e)

theorem fsm (h : AtReset s) (e : EngineId) : (s.engine e).fsm = .idle := congrArg Engine.fsm (h.engines e)

theorem msgbuf (h : AtReset s) (e : EngineId) : (s.engine e).msgbuf = [] := congrArg Engine.msgbuf (h.engines e)

theorem gstatByte_eq_zero (h : AtReset s) : gstatByte s = 0 := by
  have haes : s.aes.status = Status.reset := h.status .aes
  have hdes : s.des.status = Status.reset := h.status .des
  have hpresent : s.present.status = Status.reset := h.status .present
  rw [gstatByte, haes, hdes, hpresent, h.illegal, h.busyrej]
  rfl

/-- Outside the buffers every address reads 0 (R440). -/
theorem readAt_zero (h : AtReset s) {a : Addr} (ha : a.toNat < 0x400 ∨ 0x700 ≤ a.toNat) : s.readAt a = 0 := by
  unfold State.readAt busRead
  cases hl : locate a with
  | gstat => exact h.gstatByte_eq_zero
  | reg e r =>
    rw [locRead, h.engines e]
    exact regRead_reset e _ r
  | msgbuf e off =>
    have hwindow := window_of_locate_msgbuf hl
    cases e <;> simp only [Config.mbase] at hwindow <;> omega
  | ua => exact h.ua
  | ub => exact h.ub
  | ur => exact h.ur
  | cmd | reserved => rfl

/-- A buffer byte reads as the free value of its address in this epoch (R442, log 5). -/
theorem readAt_bufAddr (h : AtReset s) (e : EngineId) {off : Nat} (ho : off < 256) :
    s.readAt (bufAddr e off) = Config.msgbufDraw s.epoch (Config.mbase e + off) := by
  have hidle : msgOpRunning (s.engine e) = false := msgOpRunning_idle (by rw [h.status e]; rfl)
  rw [State.readAt, busRead_bufAddr_plain hidle ho, h.msgbuf e]
  rfl

end AtReset

/-- Settles O11: what the statement asks of a clean state follows from `AtReset`, which both states meet. -/
theorem resetLeavesTheCleanEntryState : Obligations.ResetLeavesTheCleanEntryState := by
  unfold Obligations.ResetLeavesTheCleanEntryState
  intro clean
  have hclean (t : State) (h : AtReset t) : clean t :=
    ⟨fun _ => h.readAt_zero, fun e => ⟨h.fsm e, h.status e⟩, fun e _ => h.readAt_bufAddr e⟩
  exact ⟨hclean _ atReset_reset, fun s => ⟨resetCore s, rfl, hclean _ (atReset_resetCore s), rfl⟩⟩

end Sys2Proof.Machine
end
